-- ==== Sys2Proof/Word.lean ====
section
/-! DEFINITION. The word types of the SPG-057 and the sizes of its axis-indexed and channel-indexed masks. -/

namespace Sys2Proof

/-- A register, a bus datum, a descriptor word: 32 bits (R61, R82). -/
abbrev Word := BitVec 32

/-- A byte of the register space (R64). -/
abbrev Byte := BitVec 8

/-- A byte address of the register space, 14 bits (R60). -/
abbrev Addr := BitVec 14

/-- A per-axis bit mask (R8), held at the greatest legal axis count, 16 (R6). -/
abbrev AxisMask := BitVec 16

/-- A per-channel bit mask (R8), held at the greatest legal channel count, 15 + 8 = 23 (R6, R7). -/
abbrev ChannelMask := BitVec 23

/-- A logical axis number; an axis of the part is one below `A` (R6). -/
abbrev Axis := Fin 16

/-- A value for every logical axis, such as `pos[a]` (R8). Entries at and above `A` are not state of the part. -/
abbrev PerAxis (α : Type) := Vector α 16

/-- A HEAD or TAIL counter: `log2 N + 1` bits, held at the greatest legal width, 7 (R26). -/
abbrev QueueIndex := BitVec 7

end Sys2Proof
end

