-- ==== Sys2Proof/Config.lean ====
section
/-! DEFINITION. What an implementation of the SPG-057 fixes (the four parameters of R6) and the values the spec leaves free. -/

namespace Sys2Proof

/-- The parameters of R6. Each field is a legal value less one, or the value itself where 0 is legal, so that every
`Params` is legal and every legal choice is a `Params`. -/
structure Params where
  /-- `A - 1`, with `A` in 1..16. -/
  axesPred   : Fin 16
  /-- `NE`, in 0..8. -/
  extruders  : Fin 9
  /-- `log2 N - 1`, with `N` one of 2, 4, 8, 16, 32, 64. -/
  log2nPred  : Fin 6
  /-- `F_TIMER - 1`, with `F_TIMER` in 1..2^32-1. -/
  fTimerPred : Fin 4294967295
deriving DecidableEq, Repr

/-- `A`, the number of logical axes (R6). -/
def Params.A (p : Params) : Nat := p.axesPred.val + 1

/-- `NE`, the number of extruder channels (R6). -/
def Params.NE (p : Params) : Nat := p.extruders.val

/-- `log2 N` (R7). -/
def Params.log2N (p : Params) : Nat := p.log2nPred.val + 1

/-- `N`, the segment buffer capacity in blocks (R6). -/
def Params.N (p : Params) : Nat := 2 ^ p.log2N

/-- `F_TIMER`, timer ticks per second (R6). -/
def Params.fTimer (p : Params) : Nat := p.fTimerPred.val + 1

/-- CONFIG-T of R6: `A = 4`, `NE = 1`, `N = 4`, `F_TIMER = 1,000,000`. -/
def Params.configT : Params := { axesPred := 3, extruders := 1, log2nPred := 1, fTimerPred := 999999 }

/-- The defaults of R6: as CONFIG-T, but `N = 16`. -/
def Params.defaults : Params := { axesPred := 3, extruders := 1, log2nPred := 3, fTimerPred := 999999 }

/-- What a byte of a slot that nothing has written since power-up reads (R30, U10): one free value per byte address. -/
opaque Config.drawnSlotByte : Nat → Byte

/-- The level of `estop_in` in a cycle the environment's list does not give (R12, U7), by cycle number. -/
opaque Config.drawnEstopIn : Nat → Bool

/-- The levels of `endstop_in` in a cycle the environment's list does not give (R12, U8), by cycle number. -/
opaque Config.drawnEndstopIn : Nat → AxisMask

end Sys2Proof
end

