-- ==== Sys2Proof/Syntax.lean ====
section
/-! DEFINITION. The instructions of the SPG-057 (the accesses and commands of R80), the bus request that carries one (R61, R81),
and the lines of a host program (R91). -/

namespace Sys2Proof

/-- The signals of one bus access, a cycle with `bus_valid = 1` (R61). -/
structure BusRequest where
  /-- `bus_write`: a write, else a read. -/
  write : Bool
  /-- `bus_size`: 0 byte, 1 halfword, 2 word, 3 reserved. -/
  size  : BitVec 2
  /-- `bus_addr`. -/
  addr  : Addr
  /-- `bus_wdata`. -/
  wdata : Word
deriving DecidableEq, Repr

/-- The rows of the opcode table. RD and WR are the legal accesses (R81). The other seven are the commands (R88), each carried by a
word write to CMD. -/
inductive Instr where
  /-- Word read of the register space (R161). -/
  | rd (addr : Addr)
  /-- Word write of the register space (R162); to CMD, the data is a command word. -/
  | wr (addr : Addr) (data : Word)
  /-- OP 0x00 (R173). -/
  | nop
  /-- OP 0x01 (R171). -/
  | push
  /-- OP 0x02, SLOT `[13:8]` (R172). -/
  | update (slot : BitVec 6)
  /-- OP 0x03 (R174). -/
  | estop
  /-- OP 0x04 (R175). -/
  | qstop
  /-- OP 0x05, AXIS `[11:8]`, BDIR `[12]` with true for forward (R176). -/
  | babystep (axis : BitVec 4) (forward : Bool)
  /-- OP 0x06 (R177). -/
  | clearHalt
deriving DecidableEq, Repr

/-- One line of a host program (R91). RD, WR and CMD lines, and illegal accesses, are each one `access`. -/
inductive HostLine where
  /-- One access, in one cycle. -/
  | access (request : BusRequest)
  /-- `POLL`: a word read of `addr` in each cycle, up to the first whose data satisfies `(rdata & mask) = value` (R92). -/
  | poll (addr : Addr) (mask value : Word)
  /-- `WAIT k`: no access for `k` cycles. -/
  | wait (cycles : Nat)
deriving DecidableEq, Repr

end Sys2Proof
end

