-- ==== Sys2Proof/WellFormed.lean ====
section
/-! DEFINITION. Which instructions are well formed: a legal access is word-aligned (R63), and a CMD write of a legal command word is
written as that command (R81, R88), so that every access has one instruction. -/

namespace Sys2Proof

/-- The byte address of CMD (R65). -/
def cmdAddr : Addr := 0x010#14

/-- R63: a word access is aligned when `addr[1:0] = 0`. -/
def alignedAddr (addr : Addr) : Bool := addr.extractLsb' 0 2 == 0#2

/-- The reserved-zero mask of each opcode (R88); an unknown opcode has none. -/
def reservedMask (op : Byte) : Word :=
  if op = 0x02#8 then 0xFFFFC000#32
  else if op = 0x05#8 then 0xFFFFE000#32
  else 0xFFFFFF00#32

/-- A command word that R88 gives a meaning: OP at most 6 and every reserved bit 0. -/
def legalCommandWord (v : Word) : Bool :=
  decide ((v.extractLsb' 0 8).toNat < 7) && (v &&& reservedMask (v.extractLsb' 0 8) == 0#32)

/-- Every RD is aligned; every WR is aligned and is not a command that has its own constructor. The fields of the commands are as
wide as their encodings, so a command is always well formed. -/
def Instr.wellFormed : Instr → Bool
  | .rd addr => alignedAddr addr
  | .wr addr data => alignedAddr addr && !(addr == cmdAddr && legalCommandWord data)
  | .nop => true
  | .push => true
  | .update _ => true
  | .estop => true
  | .qstop => true
  | .babystep _ _ => true
  | .clearHalt => true

end Sys2Proof
end

