-- ==== Sys2Proof/Decode.lean ====
section
/-! DEFINITION. The decoder from the signals of a bus access to an instruction (R63, R81, R87 to R89), total and rejecting by name, and
after it the encoder. -/

namespace Sys2Proof

/-- Why the signals of an access are no instruction of the table (R63). -/
inductive DecodeError where
  /-- `bus_size` is 0, 1 or 3. -/
  | badSize
  /-- `bus_addr[1:0]` is not 0. -/
  | misaligned
deriving DecidableEq, Repr

/-- Why a command word is rejected before its command runs (R89). -/
inductive CommandError where
  /-- OP 0x07 to 0xFF (R178). -/
  | unknown
  /-- A known OP with a nonzero reserved bit (R179). -/
  | reservedBits
deriving DecidableEq, Repr

/-- OP of a command word (R87). -/
def commandOp (v : Word) : Byte := v.extractLsb' 0 8

/-- The command a command word stands for (R87, R88), tested in the order of R164: the opcode first, then its reserved bits. -/
def decodeCommand (v : Word) : Except CommandError Instr :=
  if 7 ≤ (commandOp v).toNat then .error .unknown
  else if v &&& reservedMask (commandOp v) ≠ 0#32 then .error .reservedBits
  else match (commandOp v).toNat with
    | 0 => .ok .nop
    | 1 => .ok .push
    | 2 => .ok (.update (v.extractLsb' 8 6))
    | 3 => .ok .estop
    | 4 => .ok .qstop
    | 5 => .ok (.babystep (v.extractLsb' 8 4) (v.getLsbD 12))
    | _ => .ok .clearHalt

/-- The instruction a bus access carries. A legal write to CMD whose word is no command stays a WR, which rejects the word in CMDRES
(R89). -/
def decode (r : BusRequest) : Except DecodeError Instr :=
  if r.size ≠ 2#2 then .error .badSize
  else if alignedAddr r.addr = false then .error .misaligned
  else if r.write = false then .ok (.rd r.addr)
  else if r.addr = cmdAddr then
    match decodeCommand r.wdata with
    | .ok i => .ok i
    | .error _ => .ok (.wr r.addr r.wdata)
  else .ok (.wr r.addr r.wdata)

/-- The 17-bit request word `{W, SZ, ADDR}` of R81, as the signals of an access with data `wdata`. -/
def requestOfWord (w : BitVec 17) (wdata : Word) : BusRequest :=
  { write := w.getLsbD 16, size := w.extractLsb' 14 2, addr := w.extractLsb' 0 14, wdata := wdata }

/-- The request word of an access (R81). -/
def BusRequest.word (r : BusRequest) : BitVec 17 := BitVec.ofBool r.write ++ (r.size ++ r.addr)

/-- A word write of `v` to CMD: request word 0x18010 (R91). -/
def commandRequest (v : Word) : BusRequest := requestOfWord 0x18010#17 v

/-- The access that carries an instruction: `W`, `SZ = 2` and the address for RD and WR (R81), and for a command a CMD write of its word
(R88): OP in `[7:0]`, SLOT in `[13:8]`, AXIS in `[11:8]`, BDIR in `[12]`, reserved bits 0. RD carries no data; its data lines are 0
here. -/
def encode (i : Instr) : BusRequest :=
  match i with
  | .rd addr => { write := false, size := 2#2, addr := addr, wdata := 0#32 }
  | .wr addr data => { write := true, size := 2#2, addr := addr, wdata := data }
  | .nop => commandRequest 0x00000000#32
  | .push => commandRequest 0x00000001#32
  | .update slot => commandRequest (0#18 ++ slot ++ 0x02#8)
  | .estop => commandRequest 0x00000003#32
  | .qstop => commandRequest 0x00000004#32
  | .babystep axis forward => commandRequest (0#19 ++ BitVec.ofBool forward ++ axis ++ 0x05#8)
  | .clearHalt => commandRequest 0x00000006#32

/-- The access that a row of the opcode table's words stands for. The table numbers a request word (17 bits, so at most 24 with whole
bytes) and a command word (32 bits) from bit 0. A wider image whose value is a legal word request is read as that request: no legal
command word has bit 15 set. A WR row gives its data no bits, so the data is 0. -/
def tableRequest (nbits w : Nat) : BusRequest :=
  if nbits ≤ 24 ∨ (w < 2 ^ 17 ∧ w / 2 ^ 14 % 4 = 2) then requestOfWord (BitVec.ofNat 17 w) 0#32
  else commandRequest (BitVec.ofNat 32 w)

/-- The instruction the decoder reads from an opcode-table image of `nbits` bits with value `w`; none where
the value is wider than either format. -/
def decodeTableWord (nbits w : Nat) : Option Instr :=
  if 2 ^ 32 ≤ w ∨ (nbits ≤ 24 ∧ 2 ^ 17 ≤ w) then none
  else match decode (tableRequest nbits w) with
    | .ok i => some i
    | .error _ => none

end Sys2Proof
end

