-- ==== Sys2Proof/Machine/Implementation.lean ====
section
/-! DEFINITION. The parameters `State.reset` is built with. Every definition of the model takes the parameters from the state, so this
choice touches nothing else. -/

namespace Sys2Proof.Machine

/-- DESIGN CHOICE (unsafe, log entry 1): CONFIG-T of R6, "the configuration every example and test vector uses"; R6 names `N = 16` as the
default and leaves all four parameters to the model's user. -/
def implementation : Params := Params.configT

end Sys2Proof.Machine
end

