-- ==== Sys2Proof/Machine/State.lean ====
section
/-! DEFINITION. The state of the SPG-057: every element of 10_state.md, the levels of its inputs in the coming cycles, and the host's
remaining program. Plain data. -/

namespace Sys2Proof.Machine

/-- The engine state (R22). -/
inductive Eng where
  /-- No busy block; a load is attempted in every cycle. -/
  | idle
  /-- The head block is being executed. -/
  | run
  /-- Motion halted by a fault or an emergency stop, until CLEAR_HALT. -/
  | halted
deriving DecidableEq, Repr

/-- The motion phase (R23). -/
inductive Phase where
  | accel
  | cruise
  | decel
  /-- The value while the engine is not RUN. -/
  | none
deriving DecidableEq, Repr

/-- The fault causes (R230). Codes 5 to 15 are never written, and have no constructor. -/
inductive Cause where
  /-- No fault since reset or CLEAR_HALT. -/
  | none
  | estopPin
  | estopCmd
  | endstop
  | badBlock
deriving DecidableEq, Repr

/-- The FAULT record (R28). -/
structure FaultRecord where
  cause : Cause
  /-- For BAD_BLOCK, the first failing check of R116. -/
  check : BitVec 4
  /-- For BAD_BLOCK and ENDSTOP, the slot of the block concerned. -/
  slot  : BitVec 6
  /-- For ENDSTOP, the axes whose endstop triggered. -/
  axes  : AxisMask
deriving DecidableEq, Repr

/-- CMDRES.RESULT with CMDRES.REASON (R29, R165): the ten reasons of R165, and no other code. -/
inductive CommandResult where
  /-- No command since reset. -/
  | none
  | accepted
  | full
  | halted
  | badArg
  | notQueued
  | busy
  | estopAsserted
  | notHalted
  | saturated
  | unknown
  | stopping
deriving DecidableEq, Repr

/-- CMDRES (R29). -/
structure CommandRecord where
  result : CommandResult
  opcode : Byte
deriving DecidableEq, Repr

/-- The babystep sequencer's record `bs` (R45). While `busy` is false the other fields mean nothing. -/
structure Babystep where
  busy : Bool
  axis : BitVec 4
  ch   : BitVec 5
  /-- True for forward. -/
  dir  : Bool
  flip : Bool
  len  : BitVec 18
  k    : BitVec 18
deriving DecidableEq, Repr

/-- The levels of the input pins of one cycle, apart from the bus (R52). -/
structure Pins where
  rst       : Bool
  estopIn   : Bool
  endstopIn : AxisMask
deriving DecidableEq, Repr

/-- No reset, no emergency stop, no endstop. -/
def Pins.quiet : Pins := { rst := false, estopIn := false, endstopIn := 0#16 }

/-- The register-space memory, STAGE and SLOT (R30, R31), as (byte address, byte) pairs with rising addresses; the canonical form and
the operations are in Machine/Ops.lean. -/
abbrev Memory := List Host.Cell

/-- The whole state of the machine, one field per element of 10_state.md, and four fields of the model's own at the end. -/
structure State where
  /-- The parameters (R6): constant. -/
  params : Params
  /-- R22. -/
  eng : Eng
  /-- R23. -/
  phase : Phase
  /-- R24. -/
  stopping : Bool
  /-- R26. -/
  head : QueueIndex
  /-- R26. -/
  tail : QueueIndex
  /-- FAULT, R28. -/
  fault : FaultRecord
  /-- CMDRES, R29. -/
  cmdres : CommandRecord
  /-- `slot[s][w]` (R30) and `stage[w]` (R31). -/
  mem : Memory
  /-- `step_index`, R32. -/
  stepIndex : Word
  /-- `err[a]`, R33. -/
  errTerm : PerAxis Word
  /-- R34. -/
  rate : Word
  /-- R34. -/
  rem : Word
  /-- R35. -/
  interval : Word
  /-- R36. -/
  cd : Word
  /-- R37. -/
  pt : BitVec 16
  /-- R37. -/
  pmask : ChannelMask
  /-- R38. -/
  settle : BitVec 16
  /-- `dir_lat`, R39: bit `p` is 1 for forward. -/
  dirLat : ChannelMask
  /-- `ext_sel`, R40. -/
  extSel : BitVec 3
  /-- R41. -/
  pos : PerAxis Word
  /-- R42. -/
  home : PerAxis Word
  /-- R43. -/
  homed : AxisMask
  /-- `bs_pending[a]`, R44, two's complement. -/
  bsPending : PerAxis (BitVec 16)
  /-- R45. -/
  bs : Babystep
  /-- `bs_count[a]`, R46. -/
  bsCount : PerAxis Word
  /-- IRQ_STATUS, R47. -/
  irqStatus : BitVec 5
  /-- IRQ_ENABLE, R48. -/
  irqEnable : BitVec 5
  /-- ERR, R49: bit 0 BUS, 1 LOCKED, 2 RO_WRITE. -/
  errFlags : BitVec 3
  /-- CFG_STEP_INV, R50. -/
  cfgStepInv : ChannelMask
  /-- CFG_DIR_INV, R50. -/
  cfgDirInv : ChannelMask
  /-- CFG_ES_EN, R50. -/
  cfgEsEn : AxisMask
  /-- CFG_ES_DIR, R50. -/
  cfgEsDir : AxisMask
  /-- CFG_ES_INV, R50. -/
  cfgEsInv : AxisMask
  /-- CFG_PULSE_WIDTH (`PW`), R51. -/
  cfgPulseWidth : BitVec 16
  /-- CFG_DIR_SETUP (`DS`), R51. -/
  cfgDirSetup : BitVec 16
  /-- CFG_MIN_INTERVAL, R51. -/
  cfgMinInterval : Word
  /-- CFG_MIN_RATE, R51. -/
  cfgMinRate : Word
  /-- Model's own (log entry 5): the level of `bus_rdata` in the cycle just executed (R53, R61). -/
  busRdata : Word
  /-- Model's own (log entry 3): the pin levels of the coming cycles, the next cycle's first. -/
  pins : List Pins
  /-- Model's own (log entry 4): the host program's remaining lines (R91), the current one first. -/
  host : List HostLine
  /-- Model's own (log entry 3): the number of cycles executed, which indexes the free draws. -/
  cycle : Nat
deriving DecidableEq, Repr

/-- The spec names no event at which the machine stops: its faults enter HALTED (R230) and its bus errors and rejections are recorded
(R232, R233), each a next state. So no step faults, and this type has no constructor. Safe: nothing is hidden by a stop. -/
inductive Fault where
deriving DecidableEq, Repr

/-- Why an instruction has no meaning in the model. -/
inductive Refusal where
  /-- Raised only by an arm of `exec` whose instruction has not been given its meaning yet; no arm raises it now. Safe: the model stops
  where the hardware goes on. -/
  | notModelled (mnemonic : String)
deriving DecidableEq, Repr

/-- R261 for parameters `p`: every field at the value the spec states. The spec leaves the slots unspecified, so no slot byte is listed.
The fields of `bs` beside `busy` are 0 by DESIGN CHOICE (unsafe, log entry 10); no pin levels and no host program are listed (log
entries 3 and 4). -/
def State.resetWith (p : Params) : State where
  params := p
  eng := .idle
  phase := .none
  stopping := false
  head := 0#7
  tail := 0#7
  fault := { cause := .none, check := 0#4, slot := 0#6, axes := 0#16 }
  cmdres := { result := .none, opcode := 0#8 }
  mem := []
  stepIndex := 0#32
  errTerm := Vector.replicate 16 0#32
  rate := 0#32
  rem := 0#32
  interval := 0#32
  cd := 0#32
  pt := 0#16
  pmask := 0#23
  settle := 0#16
  dirLat := 0#23
  extSel := 0#3
  pos := Vector.replicate 16 0#32
  home := Vector.replicate 16 0#32
  homed := 0#16
  bsPending := Vector.replicate 16 0#16
  bs := { busy := false, axis := 0#4, ch := 0#5, dir := false, flip := false, len := 0#18, k := 0#18 }
  bsCount := Vector.replicate 16 0#32
  irqStatus := 0#5
  irqEnable := 0#5
  errFlags := 0#3
  cfgStepInv := 0#23
  cfgDirInv := 0#23
  cfgEsEn := 0#16
  cfgEsDir := 0#16
  cfgEsInv := 0#16
  cfgPulseWidth := 1#16
  cfgDirSetup := 0#16
  cfgMinInterval := 0#32
  cfgMinRate := 1#32
  busRdata := 0#32
  pins := []
  host := []
  cycle := 0

/-- The machine right after reset (R261), with the parameters of Machine/Implementation.lean. -/
def State.reset : State := State.resetWith implementation

end Sys2Proof.Machine
end

