-- ==== Sys2Proof/Machine/Ops.lean ====
section
/-! DEFINITION. The named operations over the memory, the segment buffer and the engine's control state: reads and writes of STAGE and
SLOT, the queue indices, the predicates of R54, the halt (taking an exception, R200) and CLEAR_HALT (the return, R177), retire, the finish
of a controlled stop, and the reset cycle. -/

namespace Sys2Proof.Machine

/-! ## Memory -/

/-- The register-space address of STAGE[w] (R65). -/
def stageAddr (w : Nat) : Nat := 0x800 + 4 * w

/-- The register-space address of SLOT[s][w] (R30, R65). -/
def slotAddr (s w : Nat) : Nat := 0x1000 + 0x80 * s + 4 * w

/-- The value that stands for an address no entry lists: a STAGE byte is 0 (R31's reset value); a SLOT byte has no value that anything
has written (R30), and no other address is memory. -/
def Memory.unlisted (a : Nat) : Option Byte := if 0x800 ≤ a ∧ a < 0x880 then some 0#8 else none

/-- The byte the first entry of `m` at `a` gives. -/
def Memory.listed : Memory → Nat → Option Byte
  | [], _ => none
  | (b, v) :: m, a => if a = b then some v else Memory.listed m a

/-- The value stored at `a`, if anything has given it one. -/
def Memory.stored (m : Memory) (a : Nat) : Option Byte := (Memory.listed m a).or (Memory.unlisted a)

/-- The byte read at `a`: what is stored there, and for a slot byte never written since power-up a free value (R30, U10, log entry 2). -/
def Memory.byteAt (m : Memory) (a : Nat) : Byte := (Memory.stored m a).getD (Config.drawnSlotByte a)

/-- `m` with the entry `(a, v)`, in its place by address. -/
def Memory.insert : Memory → Nat → Byte → Memory
  | [], a, v => [(a, v)]
  | (b, w) :: m, a, v =>
    if a < b then (a, v) :: (b, w) :: m
    else if a = b then (a, v) :: m
    else (b, w) :: Memory.insert m a v

/-- `m` without an entry at `a`. -/
def Memory.erase (m : Memory) (a : Nat) : Memory := m.filter (fun c => c.1 != a)

/-- `m` with the byte `v` stored at `a`; an entry equal to what `a` reads unlisted is left out. -/
def Memory.writeByte (m : Memory) (a : Nat) (v : Byte) : Memory :=
  if Memory.unlisted a = some v then Memory.erase m a else Memory.insert m a v

/-- The word at byte address `a`, little-endian (R64). -/
def Memory.readWord (m : Memory) (a : Nat) : Word :=
  Memory.byteAt m (a + 3) ++ Memory.byteAt m (a + 2) ++ Memory.byteAt m (a + 1) ++ Memory.byteAt m a

/-- `m` with the word `v` stored at byte address `a`, little-endian (R64). -/
def Memory.writeWord (m : Memory) (a : Nat) (v : Word) : Memory :=
  Memory.writeByte (Memory.writeByte (Memory.writeByte (Memory.writeByte m
    a (v.extractLsb' 0 8)) (a + 1) (v.extractLsb' 8 8)) (a + 2) (v.extractLsb' 16 8)) (a + 3) (v.extractLsb' 24 8)

/-- `m` with the words stored one after another from byte address `a`. -/
def Memory.writeWords (m : Memory) (a : Nat) : List Word → Memory
  | [] => m
  | v :: vs => Memory.writeWords (Memory.writeWord m a v) (a + 4) vs

/-- The canonical form: addresses strictly rise, and no entry equals what its address reads unlisted. -/
abbrev Memory.wf (m : Memory) : Prop :=
  m.Pairwise (fun c d => c.1 < d.1) ∧ ∀ c ∈ m, Memory.unlisted c.1 ≠ some c.2

/-- `stage[w]` (R31). -/
def Memory.stage (m : Memory) (w : Nat) : Word := Memory.readWord m (stageAddr w)

/-- `slot[s][w]` (R30). -/
def Memory.slot (m : Memory) (s w : Nat) : Word := Memory.readWord m (slotAddr s w)

/-- `m` with every STAGE byte at its reset value; the slots are kept (R261). -/
def Memory.clearStage (m : Memory) : Memory := m.filter (fun c => (Memory.unlisted c.1).isNone)

/-! ## The segment buffer indices (R26) -/

/-- `depth(h, t) = (t - h) mod 2N`. The counters have 7 bits and `2N` divides 128, so their difference modulo 128 loses nothing. -/
def depth (p : Params) (h t : QueueIndex) : Nat := (t - h).toNat % (2 * p.N)

/-- The counter after `i`, modulo `2N`. -/
def nextIndex (p : Params) (i : QueueIndex) : QueueIndex := BitVec.ofNat 7 ((i.toNat + 1) % (2 * p.N))

/-- The slot a counter names: `i mod N`. -/
def slotOf (p : Params) (i : QueueIndex) : Nat := i.toNat % p.N

/-- How far slot `sl` stands behind the head slot: `(sl - h) mod N`. -/
def slotOffset (p : Params) (sl : Nat) (h : QueueIndex) : Nat := (BitVec.ofNat 7 sl - h).toNat % p.N

/-- The number of queued blocks of a state, `buffer_depth()` (R26). -/
def State.depth (s : State) : Nat := Machine.depth s.params s.head s.tail

/-- The slot the busy or next block stands in. -/
def State.headSlot (s : State) : Nat := slotOf s.params s.head

/-- `queued(X, s)` (R26): slot `sl` holds a queued block. -/
def State.queued (s : State) (sl : Nat) : Bool := decide (slotOffset s.params sl s.head < s.depth)

/-- `busy(X, s)` (R30). -/
def State.busySlot (s : State) (sl : Nat) : Bool := decide (s.eng = .run) && decide (sl = s.headSlot)

/-! ## The axes of the part, and the predicates of R54 -/

/-- The logical axes `0..A-1`. -/
def axes (p : Params) : List Axis :=
  [(0 : Axis), 1, 2, 3, 4, 5, 6, 7, 8, 9, 10, 11, 12, 13, 14, 15].filter (fun a => decide (a.val < p.A))

/-- `v` with the value `f a` for every axis `a` of the part. -/
def PerAxis.update {α : Type} (p : Params) (v : PerAxis α) (f : Axis → α) : PerAxis α :=
  Vector.ofFn fun a => if a.val < p.A then f a else v[a]

/-- No babystep is pending on any axis. -/
def State.noBabystepPending (s : State) : Bool := (axes s.params).all fun a => decide (s.bsPending[a] = 0#16)

/-- `quiet(X)`. -/
def State.quiet (s : State) : Bool :=
  decide (s.depth = 0) && decide (s.pt = 0#16) && !s.bs.busy && s.noBabystepPending

/-- `is_idle(X)`. -/
def State.isIdle (s : State) : Bool := decide (s.eng = .idle) && s.quiet

/-- `unlocked(X)`. -/
def State.unlocked (s : State) : Bool := (decide (s.eng = .idle) || decide (s.eng = .halted)) && s.quiet

/-! ## The inputs of a cycle -/

/-- The pin levels sampled in this cycle (R52): the environment's next listed ones, and beyond its list no reset and free draws of
`estop_in` and `endstop_in` (R12, log entry 3). -/
def State.sample (s : State) : Pins :=
  match s.pins with
  | p :: _ => p
  | [] => { rst := false, estopIn := Config.drawnEstopIn s.cycle, endstopIn := Config.drawnEndstopIn s.cycle }

/-- The state handed to the first stage of a cycle (`n <- S`, R100), with the pins' cycle used up and `bus_rdata` at the 0 of a cycle
that reads nothing (R61). -/
def State.begin (s : State) : State := { s with busRdata := 0#32, pins := s.pins.tail, cycle := s.cycle + 1 }

/-- A reset cycle (R260, R261): every field at its reset value, but for the parameters, the slots, which reset does not clear (R30), and
the environment and the host, which are not the machine's (log entry 9). -/
def resetCycle (S : State) : State :=
  { State.resetWith S.params with
    mem := Memory.clearStage S.mem, pins := S.pins.tail, host := S.host, cycle := S.cycle + 1 }

/-! ## The working state of a cycle, and its interrupt events -/

/-- The next state `n` as the stages so far have made it, with the events `EV` of this cycle as IRQ_STATUS bits (R9, R100, R104). -/
structure Work where
  st : State
  ev : BitVec 5
deriving DecidableEq, Repr

/-- IRQ_STATUS bit HALT (R47). -/
def evHalt : BitVec 5 := 0b00001#5
/-- IRQ_STATUS bit BLOCK_DONE. -/
def evBlockDone : BitVec 5 := 0b00010#5
/-- IRQ_STATUS bit IDLE. -/
def evIdle : BitVec 5 := 0b00100#5
/-- IRQ_STATUS bit HOMING_HIT. -/
def evHomingHit : BitVec 5 := 0b01000#5
/-- IRQ_STATUS bit QSTOP_DONE. -/
def evQstopDone : BitVec 5 := 0b10000#5

/-! ## Halt and return -/

/-- A babystep whose turned direction is out but whose pulse has not begun: the sequence a halt aborts (R200, R219). -/
def State.babystepNotPulsed (s : State) : Bool :=
  s.bs.busy && s.bs.flip && decide (s.bs.k.toNat ≤ s.cfgDirSetup.toNat)

/-- Taking an exception: the halt procedure of R200. The fault is latched and HALT raised only from a state not HALTED (R231); the rest is
re-applied every time. Kept, as R200 says: positions, step index, error terms, direction latches, the pulse, the slots. An aborted flip
sequence gives its direction output back at once (R219) and leaves no settle count, so a block claimed soon after CLEAR_HALT may step before
the times R155 and R269 promise (DEDUCED, log entry 22). -/
def halt (S : State) (cause : Cause) (check slot : Nat) (axes : AxisMask) (w : Work) : Work :=
  { st := { w.st with
      fault := if S.eng = .halted then w.st.fault
        else { cause := cause, check := BitVec.ofNat 4 check, slot := BitVec.ofNat 6 slot, axes := axes }
      eng := .halted
      head := S.tail
      cd := 0#32
      rate := 0#32
      rem := 0#32
      interval := 0#32
      stopping := false
      phase := .none
      bsPending := PerAxis.update S.params w.st.bsPending (fun _ => 0#16)
      homed := 0#16
      bs := if S.babystepNotPulsed then { w.st.bs with busy := false } else w.st.bs }
    ev := if S.eng = .halted then w.ev else w.ev ||| evHalt }

/-- The return from a halt (R177, R238): IDLE, and no fault recorded; nothing else is restored. -/
def leaveHalt (w : Work) : Work :=
  { w with st := { w.st with
      eng := .idle
      fault := { cause := .none, check := 0#4, slot := 0#6, axes := 0#16 } } }

/-! ## Retire, and the finish of a controlled stop -/

/-- R144: the head block's slot is freed. -/
def retire (S : State) (w : Work) : Work :=
  { st := { w.st with head := nextIndex S.params S.head, eng := .idle, phase := .none, cd := 0#32 }
    ev := w.ev ||| evBlockDone }

/-- R205: the rest of the block and the whole queue are discarded, and the engine is IDLE. -/
def finishStop (S : State) (w : Work) : Work :=
  { st := { w.st with
      head := S.tail, eng := .idle, stopping := false, phase := .none, cd := 0#32, rate := 0#32, rem := 0#32 }
    ev := w.ev ||| evQstopDone }

end Sys2Proof.Machine
end

