-- ==== Sys2Proof/Machine/Operands.lean ====
section
/-! DEFINITION. How each operation gets its operands: the channel map (R7), the masks over axes and channels (R8), the block a descriptor
stands for (R86), and the register map from an address to a register (R65, R67). -/

namespace Sys2Proof.Machine

/-! ## Channels and masks -/

/-- `P`, the number of physical channels (R7). -/
def channels (p : Params) : Nat := if 1 ≤ p.NE then p.A - 1 + p.NE else p.A

/-- `ch(a, e)` (R7): the physical channel of axis `a` under active extruder `e`. -/
def channelOf (p : Params) (a e : Nat) : Nat := if 1 ≤ p.NE ∧ a = p.A - 1 then p.A - 1 + e else a

/-- The bits `[P-1:0]`. -/
def channelBits (p : Params) : ChannelMask := BitVec.ofNat 23 (2 ^ channels p - 1)

/-- The bits `[A-1:0]`. -/
def axisBits (p : Params) : AxisMask := BitVec.ofNat 16 (2 ^ p.A - 1)

/-- The mask with bit `a` set for each axis `a` of the part with `f a`. -/
def axisMask (p : Params) (f : Axis → Bool) : AxisMask :=
  (axes p).foldl (fun m a => if f a then m ||| (1#16 <<< a.val) else m) 0#16

/-- The mask with bit `ch(a, e)` set for each axis `a` of the part with `f a`. -/
def channelMask (p : Params) (e : Nat) (f : Axis → Bool) : ChannelMask :=
  (axes p).foldl (fun m a => if f a then m ||| (1#23 <<< channelOf p a.val e) else m) 0#23

/-! ## Descriptors -/

/-- The block record the engine reads from a slot's words (R86). -/
structure Block where
  /-- Bit `a` is axis `a`'s direction, 1 forward (R83). -/
  dir     : AxisMask
  dom     : Nat
  ext     : Nat
  homing  : Bool
  initial : Nat
  nominal : Nat
  final   : Nat
  acc     : Nat
  au      : Nat
  da      : Nat
  /-- `step[a]`, 31 bits. -/
  steps   : PerAxis Nat
deriving DecidableEq, Repr

/-- `decode(w)` of R86 for the words of slot `sl`. -/
def decodeBlock (p : Params) (m : Memory) (sl : Nat) : Block :=
  let flags := Memory.slot m sl 0
  { dir     := flags.extractLsb' 0 16
    dom     := (flags.extractLsb' 16 4).toNat
    ext     := if 1 ≤ p.NE then (flags.extractLsb' 20 3).toNat else 0
    homing  := flags.getLsbD 27
    initial := (Memory.slot m sl 1).toNat
    nominal := (Memory.slot m sl 2).toNat
    final   := (Memory.slot m sl 3).toNat
    acc     := (Memory.slot m sl 4).toNat
    au      := (Memory.slot m sl 5).toNat
    da      := (Memory.slot m sl 6).toNat
    steps   := Vector.ofFn fun a => ((Memory.slot m sl (16 + a.val)).extractLsb' 0 31).toNat }

/-- `D`, the dominant step count (R86): 0 where DOM names no axis of the part. -/
def Block.dominant (p : Params) (b : Block) : Nat :=
  if h : b.dom < 16 then (if b.dom < p.A then b.steps[b.dom] else 0) else 0

/-- Axis `a` moves in the block (R86). -/
def Block.moves (b : Block) (a : Axis) : Bool := decide (0 < b.steps[a])

/-- Axis `a`'s direction, true for forward. -/
def Block.forward (b : Block) (a : Axis) : Bool := b.dir.getLsbD a.val

/-- KEEP of R171: the bits of FLAGS a slot stores, which leave out BUSY and the reserved bits. -/
def keepMask (p : Params) : Word :=
  (axisBits p).setWidth 32 ||| 0x000F0000#32 ||| 0x00700000#32 ||| 0x01000000#32 ||| 0x02000000#32 ||| 0x08000000#32

/-- The word PUSH stores as `slot[s][w]` (R171, R85). -/
def pushWord (p : Params) (m : Memory) (w : Nat) : Word :=
  if w = 0 then Memory.stage m 0 &&& keepMask p
  else if w < 10 then Memory.stage m w
  else if w < 16 then 0#32
  else if w - 16 < p.A then Memory.stage m w &&& 0x7FFFFFFF#32
  else 0#32

/-- The descriptor PUSH stores. -/
def pushImage (p : Params) (m : Memory) : List Word := (List.range 32).map (pushWord p m)

/-- The FLAGS word UPDATE leaves in a slot (R172): `old` with bits `[25:24]`, RCP and NLR, taken from STAGE[0]. -/
def updateFlags (old stage0 : Word) : Word := (old &&& 0xFCFFFFFF#32) ||| (stage0 &&& 0x03000000#32)

/-- The memory after UPDATE rewrites slot `sl` (R172): words 1, 3, 5, 6, 7 and the two flags, from STAGE as it was before the cycle. -/
def updateSlot (S : State) (sl : Nat) (m : Memory) : Memory :=
  let copy (m : Memory) (w : Nat) : Memory := Memory.writeWord m (slotAddr sl w) (Memory.stage S.mem w)
  Memory.writeWord (copy (copy (copy (copy (copy m 1) 3) 5) 6) 7) (slotAddr sl 0)
    (updateFlags (Memory.slot m sl 0) (Memory.stage S.mem 0))

/-! ## The register map -/

/-- The registers of R65. -/
inductive Reg where
  | id | params | status | fault | cmd | cmdres | head | tail
  | irqStatus | irqEnable | err | homed
  | cfgStepInv | cfgDirInv | cfgEsEn | cfgEsDir | cfgEsInv
  | cfgPulseWidth | cfgDirSetup | cfgMinInterval | cfgMinRate
  | runPulseTimer | runPulseMask | runSettle | runStepIndex | runRate | runRateRem | runInterval
  | runCountdown | runDirLat | runExtSel
  | pos (a : Axis) | homeOffset (a : Axis) | bsPending (a : Axis) | bsCount (a : Axis) | errTerm (a : Axis)
  | bsState | bsK | bsLen
  | stage (w : Fin 32)
  | slot (s : Fin 64) (w : Fin 32)
deriving DecidableEq, Repr

/-- The access classes of R67. -/
inductive AccessClass where
  | ro | wo | w1c | rw | rwLocked
deriving DecidableEq, Repr

/-- The registers at fixed addresses (R65). -/
def fixedRegs : List (Nat × Reg) :=
  [(0x000, .id), (0x004, .params), (0x008, .status), (0x00C, .fault), (0x010, .cmd), (0x014, .cmdres), (0x018, .head),
   (0x01C, .tail), (0x020, .irqStatus), (0x024, .irqEnable), (0x028, .err), (0x02C, .homed), (0x030, .cfgStepInv),
   (0x034, .cfgDirInv), (0x038, .cfgEsEn), (0x03C, .cfgEsDir), (0x040, .cfgEsInv), (0x044, .cfgPulseWidth),
   (0x048, .cfgDirSetup), (0x04C, .cfgMinInterval), (0x050, .cfgMinRate), (0x054, .runPulseTimer), (0x058, .runPulseMask),
   (0x05C, .runSettle), (0x060, .runStepIndex), (0x064, .runRate), (0x068, .runRateRem), (0x06C, .runInterval),
   (0x070, .runCountdown), (0x074, .runDirLat), (0x078, .runExtSel), (0x1C0, .bsState), (0x1C4, .bsK), (0x1C8, .bsLen)]

/-- The register of an axis-indexed range at `base`, for the axes below `A` (R65). -/
def axisReg (p : Params) (base a : Nat) (mk : Axis → Reg) : Option Reg :=
  if (a - base) / 4 < p.A then some (mk (Fin.ofNat 16 ((a - base) / 4))) else none

/-- The register mapped at a word address (R65), none for a hole (R76) and for an address that is not a word's. -/
def regAt (p : Params) (addr : Addr) : Option Reg :=
  let a := addr.toNat
  if a % 4 ≠ 0 then none
  else if a < 0x080 then fixedRegs.lookup a
  else if a < 0x0C0 then axisReg p 0x080 a .pos
  else if a < 0x100 then axisReg p 0x0C0 a .homeOffset
  else if a < 0x140 then axisReg p 0x100 a .bsPending
  else if a < 0x180 then axisReg p 0x140 a .bsCount
  else if a < 0x1C0 then axisReg p 0x180 a .errTerm
  else if a < 0x800 then fixedRegs.lookup a
  else if a < 0x880 then some (.stage (Fin.ofNat 32 ((a - 0x800) / 4)))
  else if a < 0x1000 then none
  else if (a - 0x1000) / 0x80 < p.N then
    some (.slot (Fin.ofNat 64 ((a - 0x1000) / 0x80)) (Fin.ofNat 32 ((a - 0x1000) % 0x80 / 4)))
  else none

/-- The access class of each register (R67). -/
def Reg.accessClass : Reg → AccessClass
  | .cmd => .wo
  | .irqStatus | .err => .w1c
  | .irqEnable | .stage _ => .rw
  | .cfgStepInv | .cfgDirInv | .cfgEsEn | .cfgEsDir | .cfgEsInv => .rwLocked
  | .cfgPulseWidth | .cfgDirSetup | .cfgMinInterval | .cfgMinRate => .rwLocked
  | .pos _ | .homeOffset _ => .rwLocked
  | .id | .params | .status | .fault | .cmdres | .head | .tail | .homed => .ro
  | .runPulseTimer | .runPulseMask | .runSettle | .runStepIndex | .runRate | .runRateRem | .runInterval => .ro
  | .runCountdown | .runDirLat | .runExtSel => .ro
  | .bsPending _ | .bsCount _ | .errTerm _ | .bsState | .bsK | .bsLen | .slot _ _ => .ro

end Sys2Proof.Machine
end

