-- ==== Sys2Proof/Machine/Flags.lean ====
section
/-! DEFINITION. The status, result and interrupt bits: the codes of the enumerated fields, the words STATUS, FAULT, CMDRES, PARAMS and
BS_STATE (R21, R27 to R29, R45), accepting and rejecting a command (R165), the ERR bits (R160), and the interrupt stage (R104). -/

namespace Sys2Proof.Machine

/-! ## Codes -/

/-- STATUS.ENG (R22). -/
def Eng.code : Eng → BitVec 2
  | .idle => 0#2
  | .run => 1#2
  | .halted => 2#2

/-- STATUS.PHASE (R23). -/
def Phase.code : Phase → BitVec 2
  | .accel => 0#2
  | .cruise => 1#2
  | .decel => 2#2
  | .none => 3#2

/-- FAULT.CAUSE (R28, R230). -/
def Cause.code : Cause → BitVec 4
  | .none => 0#4
  | .estopPin => 1#4
  | .estopCmd => 2#4
  | .endstop => 3#4
  | .badBlock => 4#4

/-- CMDRES.RESULT (R29): 0 no command, 1 accepted, 2 rejected. -/
def CommandResult.resultCode : CommandResult → BitVec 2
  | .none => 0#2
  | .accepted => 1#2
  | .full | .halted | .badArg | .notQueued | .busy => 2#2
  | .estopAsserted | .notHalted | .saturated | .unknown | .stopping => 2#2

/-- CMDRES.REASON (R165). -/
def CommandResult.reasonCode : CommandResult → BitVec 4
  | .none => 0#4
  | .accepted => 0#4
  | .full => 1#4
  | .halted => 2#4
  | .badArg => 3#4
  | .notQueued => 4#4
  | .busy => 5#4
  | .estopAsserted => 6#4
  | .notHalted => 7#4
  | .saturated => 8#4
  | .unknown => 9#4
  | .stopping => 10#4

/-! ## Words -/

/-- PARAMS (R21). -/
def paramsWord (p : Params) : Word :=
  0#16 ++ BitVec.ofNat 4 p.log2N ++ BitVec.ofNat 4 p.NE ++ 0#3 ++ BitVec.ofNat 5 p.A

/-- STATUS (R27) of a state, in a cycle with `estop_in` as given. -/
def statusWord (s : State) (estopIn : Bool) : Word :=
  0#9 ++ BitVec.ofNat 7 s.depth ++ 0#3
    ++ BitVec.ofBool s.unlocked
    ++ BitVec.ofBool (decide (s.eng = .idle) && decide (0 < s.depth))
    ++ BitVec.ofBool estopIn
    ++ BitVec.ofBool s.bs.busy
    ++ BitVec.ofBool (decide (0 < s.pt.toNat))
    ++ BitVec.ofBool s.isIdle
    ++ BitVec.ofBool (decide (s.depth = s.params.N))
    ++ BitVec.ofBool (decide (s.depth = 0))
    ++ BitVec.ofBool s.stopping
    ++ s.phase.code ++ s.eng.code

/-- FAULT (R28). -/
def FaultRecord.word (f : FaultRecord) : Word := f.axes ++ 0#2 ++ f.slot ++ f.check ++ f.cause.code

/-- CMDRES (R29). -/
def CommandRecord.word (c : CommandRecord) : Word :=
  0#16 ++ c.opcode ++ c.result.reasonCode ++ 0#2 ++ c.result.resultCode

/-- BS_STATE (R45): 0 while no sequence runs. -/
def Babystep.word (b : Babystep) : Word :=
  if b.busy then
    0#19 ++ b.ch ++ 0#1 ++ BitVec.ofBool b.flip ++ BitVec.ofBool b.dir ++ b.axis ++ 1#1
  else 0#32

/-! ## Results of commands and accesses -/

/-- The command of opcode `op` ends with `result` in CMDRES: `accept(op)` and `reject(op, r)` of R165. -/
def answer (op : Byte) (result : CommandResult) (w : Work) : Work :=
  { w with st := { w.st with cmdres := { result := result, opcode := op } } }

/-- ERR.BUS (R49). -/
def errBus : BitVec 3 := 0b001#3
/-- ERR.LOCKED. -/
def errLocked : BitVec 3 := 0b010#3
/-- ERR.RO_WRITE. -/
def errRoWrite : BitVec 3 := 0b100#3

/-- An access that sets one ERR bit and has no other effect (R232). -/
def flagError (bit : BitVec 3) (w : Work) : Work :=
  { w with st := { w.st with errFlags := w.st.errFlags ||| bit } }

/-! ## The interrupt stage -/

/-- `irq_update` (R104): the events of the cycle, and IDLE where the machine has become idle, are set over what the host clears. -/
def irqUpdate (S : State) (clear : BitVec 5) (w : Work) : State :=
  let ev := if w.st.isIdle && !S.isIdle then w.ev ||| evIdle else w.ev
  { w.st with irqStatus := (S.irqStatus &&& ~~~clear) ||| ev }

end Sys2Proof.Machine
end

