-- ==== Sys2Proof/Machine/Registers.lean ====
section
/-! DEFINITION. Reading and writing a register: the value of each register in the pre-cycle state (R66, R161), and the write of each
writable register (R163, R167 to R170). -/

namespace Sys2Proof.Machine

/-- The value of a slot word as the host reads it (R30): bit 26 of word 0 is the derived busy flag. -/
def slotReadback (S : State) (sl w : Nat) : Word :=
  if w = 0 then
    (Memory.slot S.mem sl 0 &&& 0xFBFFFFFF#32) ||| (if S.busySlot sl then 0x04000000#32 else 0#32)
  else Memory.slot S.mem sl w

/-- `read_value` (R161): the register's value in `S`, in a cycle with `estop_in` as given (R27, R66). -/
def readReg (S : State) (estopIn : Bool) : Reg → Word
  | .id => 0x53504731#32
  | .params => paramsWord S.params
  | .status => statusWord S estopIn
  | .fault => S.fault.word
  | .cmd => 0#32
  | .cmdres => S.cmdres.word
  | .head => S.head.setWidth 32
  | .tail => S.tail.setWidth 32
  | .irqStatus => S.irqStatus.setWidth 32
  | .irqEnable => S.irqEnable.setWidth 32
  | .err => S.errFlags.setWidth 32
  | .homed => S.homed.setWidth 32
  | .cfgStepInv => S.cfgStepInv.setWidth 32
  | .cfgDirInv => S.cfgDirInv.setWidth 32
  | .cfgEsEn => S.cfgEsEn.setWidth 32
  | .cfgEsDir => S.cfgEsDir.setWidth 32
  | .cfgEsInv => S.cfgEsInv.setWidth 32
  | .cfgPulseWidth => S.cfgPulseWidth.setWidth 32
  | .cfgDirSetup => S.cfgDirSetup.setWidth 32
  | .cfgMinInterval => S.cfgMinInterval
  | .cfgMinRate => S.cfgMinRate
  | .runPulseTimer => S.pt.setWidth 32
  | .runPulseMask => S.pmask.setWidth 32
  | .runSettle => S.settle.setWidth 32
  | .runStepIndex => S.stepIndex
  | .runRate => S.rate
  | .runRateRem => S.rem
  | .runInterval => S.interval
  | .runCountdown => S.cd
  | .runDirLat => S.dirLat.setWidth 32
  | .runExtSel => S.extSel.setWidth 32
  | .pos a => S.pos[a]
  | .homeOffset a => S.home[a]
  | .bsPending a => S.bsPending[a].signExtend 32
  | .bsCount a => S.bsCount[a]
  | .errTerm a => S.errTerm[a]
  | .bsState => S.bs.word
  | .bsK => if S.bs.busy then S.bs.k.setWidth 32 else 0#32
  | .bsLen => if S.bs.busy then S.bs.len.setWidth 32 else 0#32
  | .stage w => Memory.stage S.mem w.val
  | .slot s w => slotReadback S s.val w.val

/-- `store_locked` (R169, R170): the stored value of each configuration, position and home-offset register; no other register is
stored this way. -/
def storeLocked (v : Word) (n : State) : Reg → State
  | .cfgStepInv => { n with cfgStepInv := v.setWidth 23 &&& channelBits n.params }
  | .cfgDirInv => { n with cfgDirInv := v.setWidth 23 &&& channelBits n.params }
  | .cfgEsEn => { n with cfgEsEn := v.setWidth 16 &&& axisBits n.params }
  | .cfgEsDir => { n with cfgEsDir := v.setWidth 16 &&& axisBits n.params }
  | .cfgEsInv => { n with cfgEsInv := v.setWidth 16 &&& axisBits n.params }
  | .cfgPulseWidth => { n with cfgPulseWidth := if v.setWidth 16 = 0#16 then 1#16 else v.setWidth 16 }
  | .cfgDirSetup => { n with cfgDirSetup := v.setWidth 16 }
  | .cfgMinInterval => { n with cfgMinInterval := v }
  | .cfgMinRate => { n with cfgMinRate := if v = 0#32 then 1#32 else v }
  | .pos a => { n with pos := n.pos.set a v }
  | .homeOffset a => { n with home := n.home.set a v }
  | _ => n

/-- The write of a register that is neither RO nor CMD (R162). W1C of IRQ_STATUS is applied by the interrupt stage (R166). -/
def storeReg (S : State) (v : Word) (r : Reg) (w : Work) : Work :=
  match r with
  | .irqEnable => { w with st := { w.st with irqEnable := v.setWidth 5 } }
  | .err => { w with st := { w.st with errFlags := w.st.errFlags &&& ~~~(v.setWidth 3) } }
  | .stage i => { w with st := { w.st with mem := Memory.writeWord w.st.mem (stageAddr i.val) v } }
  | r => if r.accessClass = .rwLocked then
      if S.unlocked then { w with st := storeLocked v w.st r } else flagError errLocked w
    else w

/-- The IRQ_STATUS bits a legal write of `v` to `addr` clears (R104, R166). -/
def irqClear (p : Params) (addr : Addr) (v : Word) : BitVec 5 :=
  if regAt p addr = some .irqStatus then v.setWidth 5 else 0#5

end Sys2Proof.Machine
end

