-- ==== Sys2Proof/Machine/Engine.lean ====
section
/-! DEFINITION. The engine: the counting stage, the interval function, validation and claim of a block (40_engine_cycle.md), and the step
event with its endstop sample, Bresenham step, completion and rate update (41_step_event.md). Arithmetic is exact on naturals; a result
is narrowed where it is stored (R9). -/

namespace Sys2Proof.Machine

/-! ## The counting stage -/

/-- `bs_advance` (R218): the sequence completes and is counted, or moves on. -/
def bsAdvance (S : State) (n : State) : State :=
  if S.bs.k = S.bs.len then
    { n with
      bs := { n.bs with busy := false }
      bsCount := PerAxis.update S.params n.bsCount fun a =>
        if a.val = S.bs.axis.toNat then S.bsCount[a] + (if S.bs.dir then 1#32 else -1#32) else n.bsCount[a] }
  else { n with bs := { n.bs with k := S.bs.k + 1#18 } }

/-- `counting` (R101), which begins the next state from `S`. -/
def counting (S : State) : State :=
  let pt := S.pt.toNat - 1
  let n : State := { S.begin with
    pt := BitVec.ofNat 16 pt
    pmask := if pt = 0 then 0#23 else S.pmask
    settle := BitVec.ofNat 16 (S.settle.toNat - 1) }
  if S.bs.busy then bsAdvance S n else n

/-! ## Phase, interval and validation -/

/-- `phase_of(i, b)` (R106). -/
def phaseOf (i : Nat) (b : Block) : Phase :=
  if i < b.au then .accel else if i < b.da then .cruise else .decel

/-- `ivl(r)` (R112), with the configuration of `S`. -/
def ivl (S : State) (r : Nat) : Nat :=
  min (max (max (S.params.fTimer / max r S.cfgMinRate.toNat) S.cfgMinInterval.toNat) (S.cfgPulseWidth.toNat + 1)) (2 ^ 32 - 1)

/-- `validate(b)` (R116): the number of the first check that fails, or 0. -/
def validate (p : Params) (b : Block) : Nat :=
  if p.A ≤ b.dom then 1
  else if b.dominant p < 1 then 2
  else if (axes p).any (fun a => decide (b.dominant p < b.steps[a])) then 3
  else if b.da < b.au then 4
  else if b.dominant p < b.da then 5
  else if 1 ≤ p.NE ∧ p.NE ≤ b.ext then 6
  else 0

/-! ## Claim -/

/-- Some moving axis's direction latch differs from the block's direction: `chg != {}` of R110. -/
def changesDirection (p : Params) (b : Block) (dirLat : ChannelMask) : Bool :=
  (axes p).any fun a => b.moves a && (dirLat.getLsbD (channelOf p a.val b.ext) != b.forward a)

/-- The direction latches after a claim (R120): the channels of the moving axes take the block's directions. -/
def latchDirections (p : Params) (b : Block) (dirLat : ChannelMask) : ChannelMask :=
  (dirLat &&& ~~~channelMask p b.ext b.moves) ||| channelMask p b.ext (fun a => b.moves a && b.forward a)

/-- `claim(b, chg)` (R118): the head block becomes busy. The direction setup is added to the first wait of the claim that changes a latch
and of no later one, as R118 and R119 say, although R155 and R269 promise it before any step after a change (DEDUCED, log entry 20). -/
def claim (S : State) (b : Block) (chg : Bool) (w : Work) : Work :=
  let D := b.dominant S.params
  let first := ivl S b.initial
  { w with st := { w.st with
      eng := .run
      stepIndex := 0#32
      errTerm := PerAxis.update S.params w.st.errTerm (fun _ => BitVec.ofNat 32 (D - D / 2))
      rate := BitVec.ofNat 32 b.initial
      rem := 0#32
      phase := phaseOf 0 b
      interval := BitVec.ofNat 32 first
      cd := BitVec.ofNat 32 (max first (if chg then S.cfgDirSetup.toNat else 0))
      dirLat := latchDirections S.params b w.st.dirLat
      extSel := if 1 ≤ S.params.NE then BitVec.ofNat 3 b.ext else w.st.extSel
      settle := if chg then S.cfgDirSetup else w.st.settle } }

/-- `load_attempt(h)` (R110, R111): wait, halt on a bad block, or claim the block at `h`. -/
def loadAttempt (S : State) (h : QueueIndex) (w : Work) : Work :=
  if S.bs.busy then w
  else if depth S.params h S.tail = 0 then w
  else
    let sl := slotOf S.params h
    let b := decodeBlock S.params S.mem sl
    let c := validate S.params b
    if c ≠ 0 then halt S .badBlock c sl 0#16 w
    else
      let chg := changesDirection S.params b w.st.dirLat
      if chg && (decide (S.pt ≠ 0#16) || decide (w.st.pt ≠ 0#16)) then w
      else claim S b chg w

/-! ## The step event -/

/-- `endstop_sample(b)` (R132): the axes whose enabled endstop, in the direction the block moves them, is active. -/
def endstopSample (S : State) (endstopIn : AxisMask) (b : Block) : AxisMask :=
  axisMask S.params fun a =>
    b.moves a && S.cfgEsEn.getLsbD a.val && (b.forward a == S.cfgEsDir.getLsbD a.val)
      && (endstopIn.getLsbD a.val ^^ S.cfgEsInv.getLsbD a.val)

/-- `homing_abort(b, trig)` (R133): the triggered axes take their home offsets and the block retires; a stop in progress finishes,
otherwise the next block is loaded. -/
def homingAbort (S : State) (trig : AxisMask) (w : Work) : Work :=
  let w1 : Work :=
    { st := { w.st with
        pos := PerAxis.update S.params w.st.pos (fun a => if trig.getLsbD a.val then S.home[a] else w.st.pos[a])
        homed := S.homed ||| trig }
      ev := w.ev ||| evHomingHit }
  let w2 := retire S w1
  if S.stopping then finishStop S w2 else loadAttempt S w2.st.head w2

/-- `S.err[a] + b.step[a]` (R135). -/
def bresenhamSum (S : State) (b : Block) (a : Axis) : Nat := S.errTerm[a].toNat + b.steps[a]

/-- Axis `a` pulses in this event (R135): the sum exceeds `D`. -/
def pulses (S : State) (b : Block) (a : Axis) : Bool := decide (b.dominant S.params < bresenhamSum S b a)

/-- `bresenham` with `step_position` and the start of the pulse (R135 to R138). -/
def emitStep (S : State) (b : Block) (w : Work) : Work :=
  { w with st := { w.st with
      errTerm := PerAxis.update S.params w.st.errTerm fun a =>
        if pulses S b a then BitVec.ofNat 32 (bresenhamSum S b a - b.dominant S.params)
        else BitVec.ofNat 32 (bresenhamSum S b a)
      pos := PerAxis.update S.params w.st.pos fun a =>
        if pulses S b a then S.pos[a] + (if b.forward a then 1#32 else -1#32) else w.st.pos[a]
      pmask := channelMask S.params b.ext (pulses S b)
      pt := S.cfgPulseWidth
      stepIndex := S.stepIndex + 1#32 } }

/-- `complete` (R139, R148): the block retires; a stop in progress finishes, otherwise the next block is loaded in the same cycle. -/
def complete (S : State) (w : Work) : Work :=
  let w1 := retire S w
  if S.stopping then finishStop S w1 else loadAttempt S w1.st.head w1

/-- `acceleration × dt` with the carried remainder, in units of 1/F_TIMER steps/s (R140, R142). -/
def rateChange (S : State) (b : Block) : Nat := b.acc * S.interval.toNat + S.rem.toNat

/-- The ACCEL update (R140). -/
def accelUpdate (S : State) (b : Block) : Nat × Nat :=
  let t := rateChange S b
  let r := S.rate.toNat + t / S.params.fTimer
  if b.nominal ≤ r then (b.nominal, 0) else (r, t % S.params.fTimer)

/-- The CRUISE update (R141). -/
def cruiseUpdate (S : State) : Nat × Nat := (S.rate.toNat, S.rem.toNat)

/-- The DECEL update (R142) with the given floor. `rate - dd <= lo` on exact integers is `rate <= lo + dd`. -/
def decelUpdate (S : State) (b : Block) (floor : Nat) : Nat × Nat :=
  let t := rateChange S b
  let dd := t / S.params.fTimer
  let lo := min S.rate.toNat floor
  if S.rate.toNat ≤ lo + dd then (lo, 0) else (S.rate.toNat - dd, t % S.params.fTimer)

/-- `rate_update(ph, floor)` (R140 to R142). A phase NONE cannot occur while RUN (R55); the rate is then held (log entry 8). -/
def rateUpdate (S : State) (b : Block) (floor : Nat) : Nat × Nat :=
  match S.phase with
  | .accel => accelUpdate S b
  | .cruise => cruiseUpdate S
  | .decel => decelUpdate S b floor
  | .none => cruiseUpdate S

/-- The rate and remainder after this event (R145): the stop's floor is 0, and the remainder is dropped at a phase change. -/
def nextRate (S : State) (b : Block) (ph : Phase) : Nat × Nat :=
  let u := rateUpdate S b (if S.stopping then 0 else b.final)
  (u.1, if ph = S.phase then u.2 else 0)

/-- The phase of the step with index `i1` (R145): DECEL throughout a controlled stop. -/
def nextPhase (S : State) (b : Block) (i1 : Nat) : Phase := if S.stopping then .decel else phaseOf i1 b

/-- `next_interval(b, i1)`, `set_interval(r)` and `stop_check(r)` (R145 to R147). -/
def nextInterval (S : State) (b : Block) (i1 : Nat) (w : Work) : Work :=
  let ph := nextPhase S b i1
  let u := nextRate S b ph
  let w1 : Work := { w with st := { w.st with
    phase := ph
    rate := BitVec.ofNat 32 u.1
    rem := BitVec.ofNat 32 u.2
    interval := BitVec.ofNat 32 (ivl S u.1)
    cd := BitVec.ofNat 32 (ivl S u.1) } }
  if S.stopping && decide (u.1 ≤ S.cfgMinRate.toNat) then finishStop S w1 else w1

/-- `step_event` (R131). -/
def stepEvent (S : State) (endstopIn : AxisMask) (w : Work) : Work :=
  let sl := S.headSlot
  let b := decodeBlock S.params S.mem sl
  let trig := endstopSample S endstopIn b
  if trig ≠ 0#16 then
    if b.homing then homingAbort S trig w else halt S .endstop 0 sl trig w
  else
    let w1 := emitStep S b w
    let i1 := S.stepIndex.toNat + 1
    if i1 = b.dominant S.params then complete S w1 else nextInterval S b i1 w1

/-- The engine stage (R103). -/
def engine (S : State) (endstopIn : AxisMask) (w : Work) : Work :=
  match S.eng with
  | .run =>
    if S.cd = 1#32 then stepEvent S endstopIn w
    else { w with st := { w.st with cd := S.cd - 1#32 } }
  | .idle => loadAttempt S S.head w
  | .halted => w

end Sys2Proof.Machine
end

