-- ==== Sys2Proof/Machine/Sequencer.lean ====
section
/-! DEFINITION. The babystep sequencer's start (R216); its advance is in the counting stage (Engine.lean, R218). -/

namespace Sys2Proof.Machine

/-- The least axis with a babystep pending, and none if there is none (R216). -/
def pendingAxis (S : State) : Option Axis := (axes S.params).find? fun a => decide (S.bsPending[a] ≠ 0#16)

/-- The pending babystep of axis `a` is forward (R44, R216). -/
def babystepForward (S : State) (a : Axis) : Bool := decide (0 < S.bsPending[a].toInt)

/-- `L` (R216). -/
def babystepLength (S : State) (flip : Bool) : Nat :=
  if flip then 2 * S.cfgDirSetup.toNat + S.cfgPulseWidth.toNat else S.cfgPulseWidth.toNat

/-- The start tests of R216 that do not depend on the axis. With CFG_DIR_SETUP = 0 a claim that changes a direction leaves `settle` at 0 and
holds nothing up, as R216's own text has it; R236 item 8 says flatly that none starts then (DEDUCED, log entry 19). -/
def babystepMayStart (S : State) (estopNow : Bool) (n : State) : Bool :=
  !(decide (n.eng = .halted) || estopNow || S.bs.busy)
    && (decide (S.pt = 0#16) && decide (n.pt = 0#16) && decide (n.settle = 0#16))

/-- The sequence fits (R216): before the next step event while RUN, and else only with no block queued. -/
def babystepFits (S : State) (n : State) (len : Nat) : Bool :=
  if n.eng = .run then decide (len + 1 ≤ n.cd.toNat) else decide (depth S.params n.head S.tail = 0)

/-- `babystep_start` (R216). -/
def babystepStart (S : State) (estopNow : Bool) (n : State) : State :=
  if babystepMayStart S estopNow n then
    match pendingAxis S with
    | none => n
    | some a =>
      let d := babystepForward S a
      let c := channelOf S.params a.val n.extSel.toNat
      let flip := n.dirLat.getLsbD c != d
      let len := babystepLength S flip
      if babystepFits S n len then
        { n with
          bs := { busy := true, axis := BitVec.ofNat 4 a.val, ch := BitVec.ofNat 5 c, dir := d, flip := flip,
                  len := BitVec.ofNat 18 len, k := 1#18 }
          bsPending := n.bsPending.set a (S.bsPending[a] - (if d then 1#16 else -1#16)) }
      else n
  else n

end Sys2Proof.Machine
end

