-- ==== Sys2Proof/Machine/Cycle.lean ====
section
/-! DEFINITION. The cycle function (R100): the stages before the bus, the cycle around a bus stage, and the cycles that carry no
instruction. -/

namespace Sys2Proof.Machine

/-- The emergency stop of R102, which replaces the engine stage: by the pin, or by the ESTOP command of this cycle. -/
def estopHalt (S : State) (w : Work) : Work :=
  halt S (if S.sample.estopIn then .estopPin else .estopCmd) 0 0 0#16 w

/-- The stages before the bus (R100): counting, the emergency stop or the engine, the babystep start. `estopCmd` is R102's
`estop_cmd(in)`. -/
def beforeBus (S : State) (estopCmd : Bool) : Work :=
  let w0 : Work := { st := counting S, ev := 0#5 }
  let estopNow := S.sample.estopIn || estopCmd
  let w1 := if estopNow then estopHalt S w0 else engine S S.sample.endstopIn w0
  { w1 with st := babystepStart S estopNow w1.st }

/-- One cycle of `S` (R100) with the bus stage `bus`, in which the host clears the IRQ_STATUS bits `clear`. A reset cycle runs no
stage. -/
def cycleWith (S : State) (estopCmd : Bool) (clear : BitVec 5) (bus : Work → Work) : State :=
  if S.sample.rst then resetCycle S else irqUpdate S clear (bus (beforeBus S estopCmd))

/-- A cycle with `bus_valid = 0` (R61). -/
def idleCycle (S : State) : State := cycleWith S false 0#5 id

/-- A cycle with an access that is not an aligned word access (R63, R160): ERR.BUS, data 0, a write dropped. -/
def illegalAccessCycle (S : State) : State := cycleWith S false 0#5 (flagError errBus)

end Sys2Proof.Machine
end

