-- ==== Sys2Proof/Machine/Commands.lean ====
section
/-! DEFINITION. The commands of 43_host_commands.md section 4: the effect of each on the working state of its cycle, the command parse
(R164), and the meaning of each command instruction, which is the cycle in which the host writes it to CMD. -/

namespace Sys2Proof.Machine

/-- R173. -/
def commandNop (w : Work) : Work := answer 0x00#8 .accepted w

/-- R171: STAGE and the depth test are those of `S`, the engine state and the stop those after the engine. -/
def commandPush (S : State) (w : Work) : Work :=
  if w.st.eng = .halted then answer 0x01#8 .halted w
  else if w.st.stopping then answer 0x01#8 .stopping w
  else if depth S.params S.head S.tail = S.params.N then answer 0x01#8 .full w
  else answer 0x01#8 .accepted { w with st := { w.st with
    mem := Memory.writeWords w.st.mem (slotAddr (slotOf S.params S.tail) 0) (pushImage S.params S.mem)
    tail := nextIndex S.params S.tail } }

/-- R172: the queued and busy tests are made against `S` and against the state after the engine. -/
def commandUpdate (S : State) (slot : BitVec 6) (w : Work) : Work :=
  let sl := slot.toNat
  let before := slotOffset S.params sl S.head
  let after := slotOffset S.params sl w.st.head
  if S.params.N ≤ sl then answer 0x02#8 .badArg w
  else if w.st.eng = .halted then answer 0x02#8 .halted w
  else if depth S.params S.head S.tail ≤ before ∨ depth S.params w.st.head S.tail ≤ after then answer 0x02#8 .notQueued w
  else if (S.eng = .run ∧ before = 0) ∨ (w.st.eng = .run ∧ after = 0) then answer 0x02#8 .busy w
  else answer 0x02#8 .accepted { w with st := { w.st with mem := updateSlot S sl w.st.mem } }

/-- R174: the halt itself was applied before the bus stage, by `estopHalt`. -/
def commandEstop (w : Work) : Work := answer 0x03#8 .accepted w

/-- The controlled stop begins (R175): stopping, in DECEL, with the remainder dropped where the phase changes. -/
def beginStop (w : Work) : Work :=
  { w with st := { w.st with
      stopping := true
      phase := .decel
      rem := if w.st.phase = .decel then w.st.rem else 0#32 } }

/-- R175. -/
def commandQstop (S : State) (w : Work) : Work :=
  match w.st.eng with
  | .halted => answer 0x04#8 .halted w
  | .idle => answer 0x04#8 .accepted { st := { w.st with head := S.tail }, ev := w.ev ||| evQstopDone }
  | .run =>
    if w.st.rate.toNat ≤ S.cfgMinRate.toNat then answer 0x04#8 .accepted (finishStop S w)
    else answer 0x04#8 .accepted (beginStop w)

/-- R176: the request is counted, or rejected where the count would leave 16 bits. -/
def commandBabystep (S : State) (axis : BitVec 4) (forward : Bool) (w : Work) : Work :=
  let a : Axis := axis.toFin
  let x : Int := w.st.bsPending[a].toInt + (if forward then 1 else -1)
  if S.params.A ≤ axis.toNat then answer 0x05#8 .badArg w
  else if w.st.eng = .halted then answer 0x05#8 .halted w
  else if x < -32768 ∨ 32767 < x then answer 0x05#8 .saturated w
  else answer 0x05#8 .accepted { w with st := { w.st with bsPending := w.st.bsPending.set a (BitVec.ofInt 16 x) } }

/-- R177, with `estop_in` of this cycle. -/
def commandClearHalt (S : State) (w : Work) : Work :=
  if S.sample.estopIn then answer 0x06#8 .estopAsserted w
  else if S.eng ≠ .halted then answer 0x06#8 .notHalted w
  else answer 0x06#8 .accepted (leaveHalt w)

/-- `command(v)` (R164): an unknown opcode is rejected UNKNOWN (R178), a reserved bit BAD_ARG (R179), and else the command runs. The
decoder of a command word answers no RD or WR; those have no effect here. -/
def command (S : State) (v : Word) (w : Work) : Work :=
  match decodeCommand v with
  | .error .unknown => answer (commandOp v) .unknown w
  | .error .reservedBits => answer (commandOp v) .badArg w
  | .ok .nop => commandNop w
  | .ok .push => commandPush S w
  | .ok (.update slot) => commandUpdate S slot w
  | .ok .estop => commandEstop w
  | .ok .qstop => commandQstop S w
  | .ok (.babystep axis forward) => commandBabystep S axis forward w
  | .ok .clearHalt => commandClearHalt S w
  | .ok (.rd _) => w
  | .ok (.wr _ _) => w

/-! ## The meanings -/

/-- NOP (R173). -/
def execNop (s : State) : Host.Outcome State Fault Refusal := .next (cycleWith s false 0#5 commandNop)

/-- PUSH (R171). -/
def execPush (s : State) : Host.Outcome State Fault Refusal := .next (cycleWith s false 0#5 (commandPush s))

/-- UPDATE (R172). -/
def execUpdate (slot : BitVec 6) (s : State) : Host.Outcome State Fault Refusal :=
  .next (cycleWith s false 0#5 (commandUpdate s slot))

/-- ESTOP (R174): the emergency stop replaces the engine stage of its cycle (R102). -/
def execEstop (s : State) : Host.Outcome State Fault Refusal := .next (cycleWith s true 0#5 commandEstop)

/-- QSTOP (R175). -/
def execQstop (s : State) : Host.Outcome State Fault Refusal := .next (cycleWith s false 0#5 (commandQstop s))

/-- BABYSTEP (R176). -/
def execBabystep (axis : BitVec 4) (forward : Bool) (s : State) : Host.Outcome State Fault Refusal :=
  .next (cycleWith s false 0#5 (commandBabystep s axis forward))

/-- CLEAR_HALT (R177). -/
def execClearHalt (s : State) : Host.Outcome State Fault Refusal := .next (cycleWith s false 0#5 (commandClearHalt s))

end Sys2Proof.Machine
end

