-- ==== Sys2Proof/Machine/Access.lean ====
section
/-! DEFINITION. The accesses RD and WR (R160 to R163): the effect of each on the working state of its cycle, and their meanings. -/

namespace Sys2Proof.Machine

/-- R161: the addressed register's value in `S` is the read data; an address that maps no register is a bus error with data 0 (R160). -/
def busRead (S : State) (addr : Addr) (w : Work) : Work :=
  match regAt S.params addr with
  | none => flagError errBus w
  | some r => { w with st := { w.st with busRdata := readReg S S.sample.estopIn r } }

/-- R162: the effect the access class of R67 gives; an address that maps no register is a bus error (R160). -/
def busWrite (S : State) (addr : Addr) (v : Word) (w : Work) : Work :=
  match regAt S.params addr with
  | none => flagError errBus w
  | some r =>
    match r.accessClass with
    | .ro => flagError errRoWrite w
    | .wo => command S v w
    | .w1c => storeReg S v r w
    | .rw => storeReg S v r w
    | .rwLocked => storeReg S v r w

/-- `estop_cmd` (R102) of a word write. -/
def isEstopWrite (addr : Addr) (v : Word) : Bool := decide (addr = cmdAddr) && decide (v = 0x00000003#32)

/-- RD (R161). -/
def execRd (addr : Addr) (s : State) : Host.Outcome State Fault Refusal :=
  .next (cycleWith s false 0#5 (busRead s addr))

/-- WR (R162). -/
def execWr (addr : Addr) (data : Word) (s : State) : Host.Outcome State Fault Refusal :=
  .next (cycleWith s (isEstopWrite addr data) (irqClear s.params addr data) (busWrite s addr data))

end Sys2Proof.Machine
end

