-- ==== Sys2Proof/Machine/Dispatch.lean ====
section
/-! DEFINITION. The meaning of each instruction, one arm per constructor: the cycle in which the host makes that access. -/

namespace Sys2Proof.Machine

def exec (i : Instr) (s : State) : Host.Outcome State Fault Refusal :=
  match i with
  | .rd addr => Sys2Proof.Machine.execRd addr s
  | .wr addr data => Sys2Proof.Machine.execWr addr data s
  | .nop => Sys2Proof.Machine.execNop s
  | .push => Sys2Proof.Machine.execPush s
  | .update slot => Sys2Proof.Machine.execUpdate slot s
  | .estop => Sys2Proof.Machine.execEstop s
  | .qstop => Sys2Proof.Machine.execQstop s
  | .babystep axis forward => Sys2Proof.Machine.execBabystep axis forward s
  | .clearHalt => Sys2Proof.Machine.execClearHalt s

end Sys2Proof.Machine
end

