-- ==== Sys2Proof/Machine/HostProgram.lean ====
section
/-! DEFINITION. The host as an agent: the access its program makes in a cycle, and the program after the cycle (R91, R92). -/

namespace Sys2Proof.Machine

/-- The access the host makes in this cycle. A `WAIT 0` takes no cycle; in a `WAIT`'s cycles, and after the program's last line, there is
none. -/
def hostRequest : List HostLine → Option BusRequest
  | [] => none
  | .access r :: _ => some r
  | .poll addr _ _ :: _ => some { write := false, size := 2#2, addr := addr, wdata := 0#32 }
  | .wait 0 :: rest => hostRequest rest
  | .wait (_ + 1) :: _ => none

/-- The program after a cycle that put `rdata` on `bus_rdata`: a POLL stays until its data matches. -/
def hostAdvance (rdata : Word) : List HostLine → List HostLine
  | [] => []
  | .access _ :: rest => rest
  | .poll addr mask value :: rest => if rdata &&& mask = value then rest else .poll addr mask value :: rest
  | .wait 0 :: rest => hostAdvance rdata rest
  | .wait (k + 1) :: rest => .wait k :: rest

/-- `t`, the state after a cycle, with the host program moved on by what the cycle read. -/
def advanceHost (t : State) : State := { t with host := hostAdvance t.busRdata t.host }

/-- The line that makes the access of an instruction. -/
def HostLine.ofInstr (i : Instr) : HostLine := .access (encode i)

/-- No line of the program makes an access any more (R14). -/
def noAccessLeft : List HostLine → Bool
  | [] => true
  | .wait _ :: rest => noAccessLeft rest
  | .access _ :: _ => false
  | .poll _ _ _ :: _ => false

/-- `s` with one more cycle before its next: the host makes the access `r` in it, and the pins are quiet. -/
def withAccess (s : State) (r : BusRequest) : State :=
  { s with host := .access r :: s.host, pins := Pins.quiet :: s.pins }

end Sys2Proof.Machine
end

