-- ==== Sys2Proof/Machine/Outputs.lean ====
section
/-! DEFINITION. The output ports as functions of the state (42_pulse_output.md, R53). `bus_rdata` is the field `busRdata`. -/

namespace Sys2Proof.Machine

/-- `bs_pulse(p)` (R151): the babystep pulse window of channel `p`. -/
def babystepPulse (s : State) (p : Nat) : Bool :=
  let p0 := if s.bs.flip then s.cfgDirSetup.toNat + 1 else 1
  s.bs.busy && decide (s.bs.ch.toNat = p) && decide (p0 ≤ s.bs.k.toNat)
    && decide (s.bs.k.toNat ≤ p0 + s.cfgPulseWidth.toNat - 1)

/-- A pulse is on channel `p`, in active polarity (R150, R157). -/
def pulseActive (s : State) (p : Nat) : Bool := (decide (0 < s.pt.toNat) && s.pmask.getLsbD p) || babystepPulse s p

/-- `step_out[p]` (R150). -/
def stepOut (s : State) (p : Nat) : Bool := pulseActive s p ^^ s.cfgStepInv.getLsbD p

/-- `bs_dir_override(p)` (R152). -/
def directionOverride (s : State) (p : Nat) : Bool :=
  s.bs.busy && decide (s.bs.ch.toNat = p) && s.bs.flip
    && decide (s.bs.k.toNat ≤ s.cfgDirSetup.toNat + s.cfgPulseWidth.toNat)

/-- `dir_out[p]` (R152). -/
def dirOut (s : State) (p : Nat) : Bool :=
  (if directionOverride s p then s.bs.dir else s.dirLat.getLsbD p) ^^ s.cfgDirInv.getLsbD p

/-- `irq_out` (R153). -/
def irqOut (s : State) : Bool := decide (s.irqStatus &&& s.irqEnable ≠ 0#5)

/-- The levels of a port over the channels `0..P-1`, channel 0 first. -/
def portLevels (s : State) (port : State → Nat → Bool) : List Bool := (List.range (channels s.params)).map (port s)

end Sys2Proof.Machine
end

