-- ==== Sys2Proof/Machine/Step.lean ====
section
/-! DEFINITION. One step is one clock cycle (R11, R100): the host program's access of the cycle is decoded and its instruction run; with no
access, or an illegal one, the cycle runs without an instruction. -/

namespace Sys2Proof.Machine

/-- One clock cycle. -/
def step (s : State) : Host.Outcome State Fault Refusal :=
  match hostRequest s.host with
  | none => .next (advanceHost (idleCycle s))
  | some r =>
    match decode r with
    | .error _ => .next (advanceHost (illegalAccessCycle s))
    | .ok i =>
      match exec i s with
      | .next t => .next (advanceHost t)
      | .fault f => .fault f
      | .refused e => .refused e

/-- `s` with the access of an opcode-table image next on the bus, in a cycle with quiet pins (log entry 13). -/
def State.withFetchWord (s : State) (nbits w : Nat) : State := withAccess s (tableRequest nbits w)

end Sys2Proof.Machine
end

