-- ==== Sys2Proof/Machine/Run.lean ====
section
/-! DEFINITION. A run under fuel (R14): from a state to the first cycle boundary at which the host program has issued its last access and
the machine is idle or HALTED, and the observation of the run. -/

namespace Sys2Proof.Machine

/-- The end of a run (R14): the host program has issued its last access, and the machine is idle or HALTED. -/
def runEnded (s : State) : Bool := noAccessLeft s.host && (s.isIdle || decide (s.eng = .halted))

/-- The output ports in one cycle (R53), channel 0 first. -/
structure OutputLevels where
  stepOut : List Bool
  dirOut  : List Bool
  irqOut  : Bool
deriving DecidableEq, Repr

/-- The outputs in the cycle that starts in `s`: they are functions of the state before it (R53, R260). -/
def outputsOf (s : State) : OutputLevels :=
  { stepOut := portLevels s stepOut, dirOut := portLevels s dirOut, irqOut := irqOut s }

/-- What the host receives in the cycle from `s` to `t`: the read data, where its access is a read (R61, R66). -/
def readReceived (s t : State) : List Word :=
  match hostRequest s.host with
  | none => []
  | some r => if r.write then [] else [t.busRdata]

/-- The observation of a run (R14), or of the part of it that the fuel reached. -/
structure Observation where
  /-- The run ended within the fuel. -/
  ended : Bool
  /-- The state at the end. -/
  final : State
  /-- The outputs of each cycle of the run, the first cycle's first. -/
  trace : List OutputLevels
  /-- The read data the host received, the first first. -/
  reads : List Word
deriving DecidableEq, Repr

/-- The observation of a run that goes through the cycle from `s` to `t` and on with `o`. -/
def Observation.after (s t : State) (o : Observation) : Observation :=
  { o with trace := outputsOf s :: o.trace, reads := readReceived s t ++ o.reads }

/-- The run from `s` (R14), for at most `fuel` cycles. No step stops the machine, so only the fuel can cut a run short. -/
def runUnder : Nat → State → Observation
  | 0, s => { ended := runEnded s, final := s, trace := [], reads := [] }
  | fuel + 1, s =>
    if runEnded s then { ended := true, final := s, trace := [], reads := [] }
    else match step s with
      | .next t => (runUnder fuel t).after s t
      | .fault _ => { ended := false, final := s, trace := [], reads := [] }
      | .refused _ => { ended := false, final := s, trace := [], reads := [] }

end Sys2Proof.Machine
end

