-- ==== Sys2Proof/Safety.lean ====
section
/-! DEFINITION. What a run of the SPG-057 is expected to keep: the clean entry of a run (R281), the invariants of R55, the
invariants behind the spec's derived guarantees on pulses, reserved bits and step counts, and what a claim and a halt leave. -/

namespace Sys2Proof.Machine

/-- `clean_entry(S)` (R281): the reset state for its own parameters, with the slot contents drawn. The pins, the host program and the
cycle count are the environment's and the host's. -/
def cleanEntry (s : State) : Prop :=
  s = { State.resetWith s.params with mem := s.mem, pins := s.pins, host := s.host, cycle := s.cycle }
    ∧ s.mem.wf ∧ ∀ w, w < 32 → Memory.stage s.mem w = 0#32

/-- The reset value of every element of R261's table, but for the constants, the slots and what is computed from the rest. -/
structure ResetValues (s : State) : Prop where
  eng : s.eng = .idle
  phase : s.phase = .none
  stopping : s.stopping = false
  indices : s.head = 0#7 ∧ s.tail = 0#7
  fault : s.fault.word = 0#32
  cmdres : s.cmdres.word = 0#32
  stage : ∀ w, w < 32 → Memory.stage s.mem w = 0#32
  stepIndex : s.stepIndex = 0#32
  rates : s.rate = 0#32 ∧ s.rem = 0#32 ∧ s.interval = 0#32 ∧ s.cd = 0#32
  pulse : s.pt = 0#16 ∧ s.pmask = 0#23 ∧ s.settle = 0#16
  outputs : s.dirLat = 0#23 ∧ s.extSel = 0#3
  homed : s.homed = 0#16
  axes : ∀ a : Axis, a.val < s.params.A → s.errTerm[a] = 0#32 ∧ s.pos[a] = 0#32 ∧ s.home[a] = 0#32 ∧ s.bsPending[a] = 0#16
    ∧ s.bsCount[a] = 0#32
  bs : s.bs.busy = false
  events : s.irqStatus = 0#5 ∧ s.irqEnable = 0#5 ∧ s.errFlags = 0#3
  masks : s.cfgStepInv = 0#23 ∧ s.cfgDirInv = 0#23 ∧ s.cfgEsEn = 0#16 ∧ s.cfgEsDir = 0#16 ∧ s.cfgEsInv = 0#16
  timing : s.cfgPulseWidth = 1#16 ∧ s.cfgDirSetup = 0#16 ∧ s.cfgMinInterval = 0#32 ∧ s.cfgMinRate = 1#32

/-- `quiet(X)` of R54 in the spec's own terms. -/
abbrev QuietState (s : State) : Prop :=
  s.depth = 0 ∧ s.pt = 0#16 ∧ s.bs.busy = false ∧ ∀ a : Axis, a.val < s.params.A → s.bsPending[a] = 0#16

/-- `is_idle(X)` of R54. -/
abbrev IdleState (s : State) : Prop := s.eng = .idle ∧ QuietState s

/-- `unlocked(X)` of R54. -/
abbrev UnlockedState (s : State) : Prop := (s.eng = .idle ∨ s.eng = .halted) ∧ QuietState s

/-- The block at the head, as the engine reads it. -/
def State.headBlock (s : State) : Block := decodeBlock s.params s.mem s.headSlot

/-- R55.2: what holds while a block is busy. -/
structure RunInv (s : State) : Prop where
  depth_pos    : 1 ≤ s.depth
  cd_pos       : 1 ≤ s.cd.toNat
  phase_some   : s.phase ≠ .none
  interval_min : s.cfgPulseWidth.toNat + 1 ≤ s.interval.toNat
  block_valid  : validate s.params s.headBlock = 0
  index_lt     : s.stepIndex.toNat < s.headBlock.dominant s.params
  err_range    : ∀ a : Axis, a.val < s.params.A →
    1 ≤ s.errTerm[a].toNat ∧ s.errTerm[a].toNat ≤ s.headBlock.dominant s.params

/-- The invariants of R55, with the two WARL bounds of R51 and the canonical form of the memory. -/
structure Inv (s : State) : Prop where
  mem_wf       : s.mem.wf
  width_pos    : 1 ≤ s.cfgPulseWidth.toNat
  rate_min_pos : 1 ≤ s.cfgMinRate.toNat
  depth_le     : s.depth ≤ s.params.N
  running      : s.eng = .run → RunInv s
  not_running  : s.eng ≠ .run → s.cd = 0#32 ∧ s.phase = .none
  halted_empty : s.eng = .halted → s.depth = 0
  stopping_run : s.stopping = true → s.eng = .run ∧ s.phase = .decel
  pulse_mask   : s.pt = 0#16 → s.pmask = 0#23
  sequence     : s.bs.busy = true → 1 ≤ s.bs.k.toNat ∧ s.bs.k.toNat ≤ s.bs.len.toNat
  rem_lt       : s.rem.toNat < s.params.fTimer
  one_busy     : ∀ i j, i < s.params.N → j < s.params.N → s.busySlot i = true → s.busySlot j = true → i = j

/-- What keeps pulses apart, from the guarantees the spec derives in R137, R150, R154, R203 and R219. -/
structure PulseInv (s : State) : Prop where
  /-- No pulse is longer than PW (R154). -/
  width_le   : s.pt.toNat ≤ s.cfgPulseWidth.toNat
  /-- The pulse of one step event ends before the next (R137). -/
  ends_first : s.eng = .run → s.pt.toNat < s.cd.toNat
  /-- An engine pulse and a babystep sequence never overlap (R150). -/
  apart      : s.bs.busy = true → s.pt = 0#16
  /-- `bs_len` is the `L` of R216. -/
  length     : s.bs.busy = true → s.bs.len.toNat = babystepLength s s.bs.flip
  /-- While RUN, a sequence ends before the next step event (R220). -/
  fits       : s.bs.busy = true → s.eng = .run → s.bs.len.toNat + 2 ≤ s.cd.toNat + s.bs.k.toNat
  /-- While HALTED, a flip sequence still running has begun its pulse (R219). -/
  begun      : s.eng = .halted → s.bs.busy = true → s.bs.flip = true → s.cfgDirSetup.toNat < s.bs.k.toNat

/-- No field holds a value outside its width or its legal range: reserved bits are 0 (R8, R26, R40, R43, R45, R50). -/
structure FieldInv (s : State) : Prop where
  head_lt    : s.head.toNat < 2 * s.params.N
  tail_lt    : s.tail.toNat < 2 * s.params.N
  pulse_bits : s.pmask &&& channelBits s.params = s.pmask
  dir_bits   : s.dirLat &&& channelBits s.params = s.dirLat
  step_inv   : s.cfgStepInv &&& channelBits s.params = s.cfgStepInv
  dir_inv    : s.cfgDirInv &&& channelBits s.params = s.cfgDirInv
  es_en      : s.cfgEsEn &&& axisBits s.params = s.cfgEsEn
  es_dir     : s.cfgEsDir &&& axisBits s.params = s.cfgEsDir
  es_inv     : s.cfgEsInv &&& axisBits s.params = s.cfgEsInv
  homed_bits : s.homed &&& axisBits s.params = s.homed
  ext_lt     : 1 ≤ s.params.NE → s.extSel.toNat < s.params.NE
  ext_zero   : s.params.NE = 0 → s.extSel = 0#3
  bs_axis_lt : s.bs.busy = true → s.bs.axis.toNat < s.params.A
  bs_ch_lt   : s.bs.busy = true → s.bs.ch.toNat < channels s.params

/-- The error term before event `k` of a block with dominant count `d`, for an axis of `c` steps: the start value plus `k * c`, brought
into `1..d` (R143). -/
def errorAt (d c k : Nat) : Nat := (d - d / 2 + k * c - 1) % d + 1

/-- The pulses an axis of `c` steps has had after `k` events of a block with dominant count `d` (R143): `ceil(x / d) - 1` of R143 is
`(x - 1) / d`. -/
def pulsesAfter (d c k : Nat) : Nat := (d - d / 2 + k * c - 1) / d

/-- R143's closed form: while a block is busy, every error term is the one its event number gives. -/
def BresenhamInv (s : State) : Prop :=
  s.eng = .run → ∀ a : Axis, a.val < s.params.A →
    s.errTerm[a].toNat = errorAt (s.headBlock.dominant s.params) s.headBlock.steps[a] s.stepIndex.toNat

/-- Position `p` moved by `k` steps, forward or backward, modulo 2^32 (R136). -/
def moved (p : Word) (forward : Bool) (k : Nat) : Word := if forward then p + BitVec.ofNat 32 k else p - BitVec.ofNat 32 k

/-! ## What a claim and a halt leave -/

/-- What the cycle from `s` to `t` leaves when it claims block `b` (R118 to R121): the engine's working registers loaded, the direction
latches of the moving axes alone taken from the block, and the settle count started where a latch changed. -/
structure ClaimedBy (s : State) (b : Block) (t : State) : Prop where
  eng        : t.eng = .run
  stepIndex  : t.stepIndex = 0#32
  rate       : t.rate.toNat = b.initial ∧ t.rem = 0#32
  phase      : t.phase = phaseOf 0 b
  errTerm    : ∀ a : Axis, a.val < s.params.A → t.errTerm[a].toNat = b.dominant s.params - b.dominant s.params / 2
  interval   : t.interval.toNat = ivl s b.initial
  first_wait : t.cd.toNat = max (ivl s b.initial) (if changesDirection s.params b s.dirLat then s.cfgDirSetup.toNat else 0)
  latched    : ∀ a : Axis, a.val < s.params.A → b.moves a = true → t.dirLat.getLsbD (channelOf s.params a.val b.ext) = b.forward a
  unlatched  : ∀ c, (∀ a : Axis, a.val < s.params.A → b.moves a = true → channelOf s.params a.val b.ext ≠ c) →
    t.dirLat.getLsbD c = s.dirLat.getLsbD c
  extSel     : if 1 ≤ s.params.NE then t.extSel.toNat = b.ext else t.extSel = s.extSel
  settle     : if changesDirection s.params b s.dirLat then t.settle = s.cfgDirSetup else t.settle.toNat = s.settle.toNat - 1

/-- What the cycle from `s`, a state not HALTED, to `t` leaves when it halts with the fault `f` (R200, R219). -/
structure HaltedBy (s : State) (f : FaultRecord) (t : State) : Prop where
  eng      : t.eng = .halted
  fault    : t.fault = f
  flushed  : t.head = s.tail ∧ t.tail = s.tail
  cleared  : t.cd = 0#32 ∧ t.rate = 0#32 ∧ t.rem = 0#32 ∧ t.interval = 0#32
  stopped  : t.stopping = false ∧ t.phase = .none
  homed    : t.homed = 0#16
  pending  : ∀ a : Axis, a.val < s.params.A → t.bsPending[a] = 0#16
  sequence : t.bs = if s.babystepNotPulsed then { (counting s).bs with busy := false } else (counting s).bs
  kept     : t.dirLat = s.dirLat ∧ t.extSel = s.extSel

/-- The cycle from `s` to `t` begins no pulse: one still out counts on, and its mask is dropped at its end (R101). -/
def pulseCountsOn (s t : State) : Prop :=
  t.pt.toNat = s.pt.toNat - 1 ∧ t.pmask = if s.pt.toNat ≤ 1 then 0#23 else s.pmask

/-! ## The cycle as the host sees it -/

/-- The instruction on the bus in the coming cycle: none without an access, or with an illegal one. -/
def State.onBus (s : State) : Option Instr :=
  match hostRequest s.host with
  | none => none
  | some r =>
    match decode r with
    | .ok i => some i
    | .error _ => none

/-- An emergency stop acts in the coming cycle: the pin, or the ESTOP command (R102). -/
def State.estopNow (s : State) : Bool := s.sample.estopIn || decide (s.onBus = some .estop)

/-- The events other than IDLE that a cycle without an access raises (R104). -/
def State.engineEvents (s : State) : BitVec 5 := (beforeBus s false).ev

/-- The IDLE event of a cycle from `s` to `t` (R104). -/
def idleEvent (s t : State) : BitVec 5 := if t.isIdle && !s.isIdle then evIdle else 0#5

end Sys2Proof.Machine
end

