-- ==== Sys2Proof/Certificates/Slice0/Obligations.lean ====
section
/-! DEFINITION. The statements for the provers. Where a statement is about one access, `n` is the state the same cycle reaches without the
access (`idleCycle s`): the engine, the babystep sequencer and the counters run in every cycle (R100), so an access's own effect and its
frame are what it changes in `n`. -/

open Sys2Proof Sys2Proof.Machine

/-! ## Reset -/

/-- R260: in a cycle with `rst = 1` every instruction, no access, and an illegal access alike end in the reset state. -/
def Obligations.ResetOverridesEverything : Prop :=
  ∀ s : State, s.sample.rst = true →
    (∀ i, exec i s = .next (resetCycle s)) ∧ step s = .next (advanceHost (resetCycle s))
      ∧ idleCycle s = resetCycle s ∧ illegalAccessCycle s = resetCycle s ∧ (resetCycle s).busRdata = 0#32

/-- R261: the reset values, after a reset cycle and in `State.resetWith p`; the slots are not cleared. -/
def Obligations.ResetLeavesResetValues : Prop :=
  (∀ s : State, ResetValues (resetCycle s) ∧ (resetCycle s).params = s.params
    ∧ ∀ x, (x < 0x800 ∨ 0x880 ≤ x) → Memory.byteAt (resetCycle s).mem x = Memory.byteAt s.mem x)
  ∧ ∀ s : State, ResetValues s →
      readReg s false .id = 0x53504731#32
      ∧ readReg s false .params = BitVec.ofNat 32 (s.params.A + 2 ^ 8 * s.params.NE + 2 ^ 12 * s.params.log2N)
      ∧ readReg s false .status = 0x000010AC#32 ∧ readReg s true .status = 0x000014AC#32
      ∧ (∀ sl, (readReg s false (.slot sl 0)).getLsbD 26 = false)
      ∧ (∀ p, stepOut s p = false ∧ dirOut s p = false) ∧ irqOut s = false

/-- R55 and the three further invariants of Safety hold in the reset state of every part. -/
def Obligations.ResetSatisfiesInvariants : Prop :=
  ∀ p : Params, ResetValues (State.resetWith p) ∧ Inv (State.resetWith p) ∧ PulseInv (State.resetWith p)
    ∧ FieldInv (State.resetWith p) ∧ BresenhamInv (State.resetWith p)

/-! ## The step -/

/-- One step runs the instruction the host's access decodes to; without a legal access it is the access-free or the illegal cycle. Around
the instruction it only moves the host program on. Which access a line makes, and what is left after it, is said line by line (R91, R92):
a `WAIT 0` is passed over, and the last two clauses are the empty program's. -/
def Obligations.StepRunsDecodedInstruction : Prop :=
  (∀ s r i t, hostRequest s.host = some r → decode r = .ok i → exec i s = .next t → step s = .next (advanceHost t))
  ∧ (∀ s, hostRequest s.host = none → step s = .next (advanceHost (idleCycle s)))
  ∧ (∀ s r e, hostRequest s.host = some r → decode r = .error e → step s = .next (advanceHost (illegalAccessCycle s)))
  ∧ (∀ t : State, advanceHost t = { t with host := (advanceHost t).host })
  ∧ (∀ t : State, ∀ r rest, t.host = .access r :: rest → (advanceHost t).host = rest)
  ∧ (∀ t : State, ∀ a m v rest, t.host = .poll a m v :: rest →
      (advanceHost t).host = if t.busRdata &&& m = v then rest else t.host)
  ∧ (∀ t : State, ∀ k rest, t.host = .wait (k + 1) :: rest → (advanceHost t).host = .wait k :: rest)
  ∧ (∀ t : State, ∀ rest, t.host = .wait 0 :: rest → (advanceHost t).host = (advanceHost { t with host := rest }).host)
  ∧ (∀ r rest, hostRequest (.access r :: rest) = some r)
  ∧ (∀ a m v rest, hostRequest (.poll a m v :: rest) = some { write := false, size := 2#2, addr := a, wdata := 0#32 })
  ∧ (∀ k rest, hostRequest (.wait (k + 1) :: rest) = none)
  ∧ (∀ rest, hostRequest (.wait 0 :: rest) = hostRequest rest)
  ∧ hostRequest [] = none
  ∧ (∀ t : State, t.host = [] → (advanceHost t).host = [])

/-! ## Encodings -/

/-- R81, R87, R88: decoding the access that encodes a well-formed instruction gives the instruction. -/
def Obligations.DecodeEncodeRoundTrip : Prop :=
  ∀ i : Instr, i.wellFormed = true → decode (encode i) = .ok i

/-- The other direction: a decoded access is the encoding of its instruction, but for a read's data lines. -/
def Obligations.EncodeOfDecodedAccess : Prop :=
  ∀ r i, decode r = .ok i → i.wellFormed = true ∧ encode i = { r with wdata := if r.write then r.wdata else 0#32 }

/-- Words written out from R81 and R88 decode to the instructions they stand for. -/
def Obligations.WordsDecode : Prop :=
  decodeTableWord 24 0x08008 = some (.rd 0x008#14) ∧ decodeTableWord 24 0x18840 = some (.wr 0x840#14 0#32)
  ∧ decodeTableWord 32 0x00000000 = some .nop ∧ decodeTableWord 32 0x00000001 = some .push
  ∧ decodeTableWord 32 0x00000102 = some (.update 1#6) ∧ decodeTableWord 32 0x00000003 = some .estop
  ∧ decodeTableWord 32 0x00000004 = some .qstop ∧ decodeTableWord 32 0x00001105 = some (.babystep 1#4 true)
  ∧ decodeTableWord 32 0x00000305 = some (.babystep 3#4 false) ∧ decodeTableWord 32 0x00000006 = some .clearHalt
  ∧ decodeTableWord 24 0x10800 = none

/-- R89, R178, R179: an unknown opcode is rejected UNKNOWN and a known one with a reserved bit BAD_ARG; nothing but CMDRES changes, against
the same cycle without the access. -/
def Obligations.ReservedCommandWordsOnlyRecord : Prop :=
  ∀ (s : State) (v : Word), s.sample.rst = false →
    (7 ≤ (v.extractLsb' 0 8).toNat →
      exec (.wr 0x010#14 v) s = .next { idleCycle s with cmdres := { result := .unknown, opcode := v.extractLsb' 0 8 } })
    ∧ ((v.extractLsb' 0 8).toNat < 7 →
        v &&& (if v.extractLsb' 0 8 = 2#8 then 0xFFFFC000#32 else if v.extractLsb' 0 8 = 5#8 then 0xFFFFE000#32 else 0xFFFFFF00#32) ≠ 0#32 →
        exec (.wr 0x010#14 v) s = .next { idleCycle s with cmdres := { result := .badArg, opcode := v.extractLsb' 0 8 } })

/-- R164: a word write of a legal command word to CMD is the command, with its fields taken from R87's bits. -/
def Obligations.CommandWriteRunsTheCommand : Prop :=
  ∀ s : State,
    exec (.wr 0x010#14 0x00000000#32) s = exec .nop s ∧ exec (.wr 0x010#14 0x00000001#32) s = exec .push s
    ∧ (∀ slot : BitVec 6, exec (.wr 0x010#14 (0#18 ++ slot ++ 0x02#8)) s = exec (.update slot) s)
    ∧ exec (.wr 0x010#14 0x00000003#32) s = exec .estop s ∧ exec (.wr 0x010#14 0x00000004#32) s = exec .qstop s
    ∧ (∀ axis dir, exec (.wr 0x010#14 (0#19 ++ BitVec.ofBool dir ++ axis ++ 0x05#8)) s = exec (.babystep axis dir) s)
    ∧ exec (.wr 0x010#14 0x00000006#32) s = exec .clearHalt s

/-! ## Memory and the register map -/

/-- R64: a stored word is read back, its byte `k` is its bits `[8k+7:8k]`, and no other byte changes. -/
def Obligations.WordsAreLittleEndian : Prop :=
  ∀ (m : Memory) (a : Nat) (v : Word),
    Memory.readWord (Memory.writeWord m a v) a = v
    ∧ (∀ k, k < 4 → Memory.byteAt (Memory.writeWord m a v) (a + k) = v.extractLsb' (8 * k) 8)
    ∧ ∀ x, (x < a ∨ a + 4 ≤ x) → Memory.byteAt (Memory.writeWord m a v) x = Memory.byteAt m x

/-- R65: the register at each address of the map's fixed and indexed rows, and the range of each index. -/
def Obligations.RegisterMap : Prop :=
  ∀ p : Params,
    (regAt p 0x000#14 = some .id ∧ regAt p 0x004#14 = some .params ∧ regAt p 0x008#14 = some .status ∧ regAt p 0x00C#14 = some .fault
      ∧ regAt p 0x010#14 = some .cmd ∧ regAt p 0x014#14 = some .cmdres ∧ regAt p 0x018#14 = some .head ∧ regAt p 0x01C#14 = some .tail
      ∧ regAt p 0x020#14 = some .irqStatus ∧ regAt p 0x024#14 = some .irqEnable ∧ regAt p 0x028#14 = some .err
      ∧ regAt p 0x02C#14 = some .homed ∧ regAt p 0x030#14 = some .cfgStepInv ∧ regAt p 0x034#14 = some .cfgDirInv
      ∧ regAt p 0x038#14 = some .cfgEsEn ∧ regAt p 0x03C#14 = some .cfgEsDir ∧ regAt p 0x040#14 = some .cfgEsInv
      ∧ regAt p 0x044#14 = some .cfgPulseWidth ∧ regAt p 0x048#14 = some .cfgDirSetup ∧ regAt p 0x04C#14 = some .cfgMinInterval
      ∧ regAt p 0x050#14 = some .cfgMinRate ∧ regAt p 0x054#14 = some .runPulseTimer ∧ regAt p 0x058#14 = some .runPulseMask
      ∧ regAt p 0x05C#14 = some .runSettle ∧ regAt p 0x060#14 = some .runStepIndex ∧ regAt p 0x064#14 = some .runRate
      ∧ regAt p 0x068#14 = some .runRateRem ∧ regAt p 0x06C#14 = some .runInterval ∧ regAt p 0x070#14 = some .runCountdown
      ∧ regAt p 0x074#14 = some .runDirLat ∧ regAt p 0x078#14 = some .runExtSel ∧ regAt p 0x1C0#14 = some .bsState
      ∧ regAt p 0x1C4#14 = some .bsK ∧ regAt p 0x1C8#14 = some .bsLen)
    ∧ (∀ a : Axis, a.val < p.A →
        regAt p (BitVec.ofNat 14 (0x080 + 4 * a.val)) = some (.pos a)
        ∧ regAt p (BitVec.ofNat 14 (0x0C0 + 4 * a.val)) = some (.homeOffset a)
        ∧ regAt p (BitVec.ofNat 14 (0x100 + 4 * a.val)) = some (.bsPending a)
        ∧ regAt p (BitVec.ofNat 14 (0x140 + 4 * a.val)) = some (.bsCount a)
        ∧ regAt p (BitVec.ofNat 14 (0x180 + 4 * a.val)) = some (.errTerm a))
    ∧ (∀ w : Fin 32, regAt p (BitVec.ofNat 14 (0x800 + 4 * w.val)) = some (.stage w))
    ∧ (∀ (sl : Fin 64) (w : Fin 32), sl.val < p.N → regAt p (BitVec.ofNat 14 (0x1000 + 0x80 * sl.val + 4 * w.val)) = some (.slot sl w))

/-- R76: the holes, and R67: the access class of every register. -/
def Obligations.HolesAndAccessClasses : Prop :=
  (∀ (p : Params) (x : Addr), (x.toNat % 4 ≠ 0 ∨ x.toNat = 0x07C ∨ (0x1CC ≤ x.toNat ∧ x.toNat < 0x800)
      ∨ (0x880 ≤ x.toNat ∧ x.toNat < 0x1000) ∨ 0x1000 + 0x80 * p.N ≤ x.toNat) → regAt p x = none)
  ∧ (∀ (p : Params) (a : Nat), p.A ≤ a → a < 16 →
      regAt p (BitVec.ofNat 14 (0x080 + 4 * a)) = none ∧ regAt p (BitVec.ofNat 14 (0x0C0 + 4 * a)) = none
      ∧ regAt p (BitVec.ofNat 14 (0x100 + 4 * a)) = none ∧ regAt p (BitVec.ofNat 14 (0x140 + 4 * a)) = none
      ∧ regAt p (BitVec.ofNat 14 (0x180 + 4 * a)) = none)
  ∧ (∀ r : Reg, r.accessClass = .wo ↔ r = .cmd)
  ∧ (∀ r : Reg, r.accessClass = .w1c ↔ (r = .irqStatus ∨ r = .err))
  ∧ (∀ r : Reg, r.accessClass = .rw ↔ (r = .irqEnable ∨ ∃ w, r = .stage w))
  ∧ (∀ r : Reg, r.accessClass = .rwLocked ↔ (r = .cfgStepInv ∨ r = .cfgDirInv ∨ r = .cfgEsEn ∨ r = .cfgEsDir ∨ r = .cfgEsInv
      ∨ r = .cfgPulseWidth ∨ r = .cfgDirSetup ∨ r = .cfgMinInterval ∨ r = .cfgMinRate ∨ (∃ a, r = .pos a) ∨ ∃ a, r = .homeOffset a))

/-- R63, R160, R232: an access of another size, misaligned, or to a hole sets ERR.BUS and has no other effect; a read answers 0. -/
def Obligations.BusErrorsOnlyRecord : Prop :=
  (∀ s : State, s.sample.rst = false → illegalAccessCycle s = { idleCycle s with errFlags := s.errFlags ||| 0b001#3 })
  ∧ (∀ (s : State) (x : Addr) (v : Word), s.sample.rst = false → regAt s.params x = none →
      exec (.rd x) s = .next { idleCycle s with errFlags := s.errFlags ||| 0b001#3 }
      ∧ exec (.wr x v) s = .next { idleCycle s with errFlags := s.errFlags ||| 0b001#3 })
  ∧ (∀ s : State, s.sample.rst = false → (idleCycle s).busRdata = 0#32)
  ∧ ∀ r : BusRequest, (r.size ≠ 2#2 ∨ r.addr.extractLsb' 0 2 ≠ 0#2) ↔ ∃ e, decode r = .error e

/-! ## Reads and register writes -/

/-- R161: a read puts the register's value in the pre-cycle state on `bus_rdata` and changes no state. -/
def Obligations.ReadReturnsRegister : Prop :=
  ∀ (s : State) (x : Addr) (r : Reg), s.sample.rst = false → regAt s.params x = some r →
    exec (.rd x) s = .next { idleCycle s with busRdata := readReg s s.sample.estopIn r }

/-- R27: every field of STATUS; IS_IDLE and CFG_UNLOCKED are R54's predicates, condition by condition. -/
def Obligations.StatusFields : Prop :=
  ∀ (s : State) (estopIn : Bool),
    let v := readReg s estopIn .status
    let quiet := s.depth = 0 ∧ s.pt = 0#16 ∧ s.bs.busy = false ∧ ∀ a : Axis, a.val < s.params.A → s.bsPending[a] = 0#16
    v.extractLsb' 0 2 = (match s.eng with | .idle => 0#2 | .run => 1#2 | .halted => 2#2)
    ∧ v.extractLsb' 2 2 = (match s.phase with | .accel => 0#2 | .cruise => 1#2 | .decel => 2#2 | .none => 3#2)
    ∧ v.getLsbD 4 = s.stopping
    ∧ v.getLsbD 5 = decide (s.depth = 0)
    ∧ v.getLsbD 6 = decide (s.depth = s.params.N)
    ∧ (v.getLsbD 7 = true ↔ s.eng = .idle ∧ quiet)
    ∧ v.getLsbD 8 = decide (0 < s.pt.toNat)
    ∧ v.getLsbD 9 = s.bs.busy
    ∧ v.getLsbD 10 = estopIn
    ∧ v.getLsbD 11 = (decide (s.eng = .idle) && decide (0 < s.depth))
    ∧ (v.getLsbD 12 = true ↔ (s.eng = .idle ∨ s.eng = .halted) ∧ quiet)
    ∧ v.extractLsb' 13 3 = 0#3
    ∧ (v.extractLsb' 16 7).toNat = s.depth
    ∧ v.extractLsb' 23 9 = 0#9
    ∧ (s.isIdle = true ↔ s.eng = .idle ∧ quiet)
    ∧ (s.unlocked = true ↔ (s.eng = .idle ∨ s.eng = .halted) ∧ quiet)

/-- R20 to R51, R65: what every register but STATUS reads: a word as stored, a shorter field zero-extended, the formats of FAULT, CMDRES, a
slot word, BS_PENDING and the sequencer's registers, and 0 for CMD. -/
def Obligations.RegisterFormats : Prop :=
  ∀ (s : State) (e : Bool),
    (let v := readReg s e .fault;
      v.extractLsb' 0 4 = (match s.fault.cause with | .none => 0#4 | .estopPin => 1#4 | .estopCmd => 2#4 | .endstop => 3#4 | .badBlock => 4#4)
      ∧ v.extractLsb' 4 4 = s.fault.check ∧ v.extractLsb' 8 6 = s.fault.slot ∧ v.extractLsb' 14 2 = 0#2 ∧ v.extractLsb' 16 16 = s.fault.axes)
    ∧ (let v := readReg s e .cmdres;
      v.extractLsb' 0 2 = (if s.cmdres.result = .none then 0#2 else if s.cmdres.result = .accepted then 1#2 else 2#2)
      ∧ v.extractLsb' 2 2 = 0#2
      ∧ v.extractLsb' 4 4 = (match s.cmdres.result with
          | .none => 0#4 | .accepted => 0#4 | .full => 1#4 | .halted => 2#4 | .badArg => 3#4 | .notQueued => 4#4 | .busy => 5#4
          | .estopAsserted => 6#4 | .notHalted => 7#4 | .saturated => 8#4 | .unknown => 9#4 | .stopping => 10#4)
      ∧ v.extractLsb' 8 8 = s.cmdres.opcode ∧ v.extractLsb' 16 16 = 0#16)
    ∧ (∀ (sl : Fin 64) (w : Fin 32) (i : Nat), i < 32 →
        (readReg s e (.slot sl w)).getLsbD i =
          if w = 0 ∧ i = 26 then decide (s.eng = .run) && decide (sl.val = slotOf s.params s.head)
          else (Memory.slot s.mem sl.val w.val).getLsbD i)
    ∧ (∀ a : Axis, (readReg s e (.bsPending a)).toInt = s.bsPending[a].toInt)
    ∧ (s.bs.busy = false → readReg s e .bsState = 0#32 ∧ readReg s e .bsK = 0#32 ∧ readReg s e .bsLen = 0#32)
    ∧ (s.bs.busy = true →
        (readReg s e .bsState).extractLsb' 0 8 = 0#1 ++ BitVec.ofBool s.bs.flip ++ BitVec.ofBool s.bs.dir ++ s.bs.axis ++ 1#1
        ∧ (readReg s e .bsState).extractLsb' 8 5 = s.bs.ch ∧ (readReg s e .bsState).extractLsb' 13 19 = 0#19
        ∧ (readReg s e .bsK).toNat = s.bs.k.toNat ∧ (readReg s e .bsLen).toNat = s.bs.len.toNat)
    ∧ (readReg s e .id = 0x53504731#32 ∧ readReg s e .cmd = 0#32
      ∧ readReg s e .params = BitVec.ofNat 32 (s.params.A + 2 ^ 8 * s.params.NE + 2 ^ 12 * s.params.log2N))
    ∧ ((readReg s e .head).toNat = s.head.toNat ∧ (readReg s e .tail).toNat = s.tail.toNat
      ∧ (readReg s e .irqStatus).toNat = s.irqStatus.toNat ∧ (readReg s e .irqEnable).toNat = s.irqEnable.toNat
      ∧ (readReg s e .err).toNat = s.errFlags.toNat ∧ (readReg s e .homed).toNat = s.homed.toNat)
    ∧ ((readReg s e .cfgStepInv).toNat = s.cfgStepInv.toNat ∧ (readReg s e .cfgDirInv).toNat = s.cfgDirInv.toNat
      ∧ (readReg s e .cfgEsEn).toNat = s.cfgEsEn.toNat ∧ (readReg s e .cfgEsDir).toNat = s.cfgEsDir.toNat
      ∧ (readReg s e .cfgEsInv).toNat = s.cfgEsInv.toNat ∧ (readReg s e .cfgPulseWidth).toNat = s.cfgPulseWidth.toNat
      ∧ (readReg s e .cfgDirSetup).toNat = s.cfgDirSetup.toNat ∧ readReg s e .cfgMinInterval = s.cfgMinInterval
      ∧ readReg s e .cfgMinRate = s.cfgMinRate)
    ∧ ((readReg s e .runPulseTimer).toNat = s.pt.toNat ∧ (readReg s e .runPulseMask).toNat = s.pmask.toNat
      ∧ (readReg s e .runSettle).toNat = s.settle.toNat ∧ readReg s e .runStepIndex = s.stepIndex ∧ readReg s e .runRate = s.rate
      ∧ readReg s e .runRateRem = s.rem ∧ readReg s e .runInterval = s.interval ∧ readReg s e .runCountdown = s.cd
      ∧ (readReg s e .runDirLat).toNat = s.dirLat.toNat ∧ (readReg s e .runExtSel).toNat = s.extSel.toNat)
    ∧ (∀ a : Axis, readReg s e (.pos a) = s.pos[a] ∧ readReg s e (.homeOffset a) = s.home[a] ∧ readReg s e (.bsCount a) = s.bsCount[a]
      ∧ readReg s e (.errTerm a) = s.errTerm[a])
    ∧ ∀ w : Fin 32, readReg s e (.stage w) = Memory.stage s.mem w.val

/-- R162, R169, R170, R232, R268: a write to a read-only register sets ERR.RO_WRITE, a write to a locked register while locked sets
ERR.LOCKED, and neither changes anything else. -/
def Obligations.RefusedWritesOnlyRecord : Prop :=
  ∀ (s : State) (x : Addr) (v : Word) (r : Reg), s.sample.rst = false → regAt s.params x = some r →
    (r.accessClass = .ro → exec (.wr x v) s = .next { idleCycle s with errFlags := s.errFlags ||| 0b100#3 })
    ∧ (r.accessClass = .rwLocked → ¬UnlockedState s →
        exec (.wr x v) s = .next { idleCycle s with errFlags := s.errFlags ||| 0b010#3 })

/-- R169: the value each configuration register stores while unlocked (R54). -/
def Obligations.ConfigurationWritesStore : Prop :=
  ∀ (s : State) (v : Word), s.sample.rst = false → UnlockedState s →
    exec (.wr 0x030#14 v) s = .next { idleCycle s with cfgStepInv := v.setWidth 23 &&& BitVec.ofNat 23 (2 ^ channels s.params - 1) }
    ∧ exec (.wr 0x034#14 v) s = .next { idleCycle s with cfgDirInv := v.setWidth 23 &&& BitVec.ofNat 23 (2 ^ channels s.params - 1) }
    ∧ exec (.wr 0x038#14 v) s = .next { idleCycle s with cfgEsEn := v.setWidth 16 &&& BitVec.ofNat 16 (2 ^ s.params.A - 1) }
    ∧ exec (.wr 0x03C#14 v) s = .next { idleCycle s with cfgEsDir := v.setWidth 16 &&& BitVec.ofNat 16 (2 ^ s.params.A - 1) }
    ∧ exec (.wr 0x040#14 v) s = .next { idleCycle s with cfgEsInv := v.setWidth 16 &&& BitVec.ofNat 16 (2 ^ s.params.A - 1) }
    ∧ exec (.wr 0x044#14 v) s = .next { idleCycle s with cfgPulseWidth := BitVec.ofNat 16 (max (v.toNat % 2 ^ 16) 1) }
    ∧ exec (.wr 0x048#14 v) s = .next { idleCycle s with cfgDirSetup := BitVec.ofNat 16 (v.toNat % 2 ^ 16) }
    ∧ exec (.wr 0x04C#14 v) s = .next { idleCycle s with cfgMinInterval := v }
    ∧ exec (.wr 0x050#14 v) s = .next { idleCycle s with cfgMinRate := BitVec.ofNat 32 (max v.toNat 1) }

/-- R170: POS and HOME_OFFSET writes while unlocked (R54) store all 32 bits; HOMED and every other axis are unchanged. -/
def Obligations.PositionWritesStore : Prop :=
  ∀ (s : State) (v : Word) (a : Axis), s.sample.rst = false → UnlockedState s → a.val < s.params.A →
    exec (.wr (BitVec.ofNat 14 (0x080 + 4 * a.val)) v) s = .next { idleCycle s with pos := s.pos.set a v }
    ∧ exec (.wr (BitVec.ofNat 14 (0x0C0 + 4 * a.val)) v) s = .next { idleCycle s with home := s.home.set a v }

/-- R163: a STAGE write stores the word, in every engine state, locked or not. -/
def Obligations.StageWritesStore : Prop :=
  ∀ (s : State) (v : Word) (w : Fin 32), s.sample.rst = false →
    let t := { idleCycle s with mem := Memory.writeWord s.mem (0x800 + 4 * w.val) v }
    exec (.wr (BitVec.ofNat 14 (0x800 + 4 * w.val)) v) s = .next t
    ∧ Memory.stage t.mem w.val = v
    ∧ (∀ i, i < 32 → i ≠ w.val → Memory.stage t.mem i = Memory.stage s.mem i)
    ∧ ∀ x, (x < 0x800 + 4 * w.val ∨ 0x804 + 4 * w.val ≤ x) → Memory.byteAt t.mem x = Memory.byteAt s.mem x

/-- R167, R168: an IRQ_ENABLE write stores bits [4:0]; an ERR write clears the written bits and sets none. -/
def Obligations.EnableAndErrorWrites : Prop :=
  ∀ (s : State) (v : Word), s.sample.rst = false →
    exec (.wr 0x024#14 v) s = .next { idleCycle s with irqEnable := v.extractLsb' 0 5 }
    ∧ exec (.wr 0x028#14 v) s = .next { idleCycle s with errFlags := s.errFlags &&& ~~~(v.extractLsb' 0 3) }

/-- R104, R166: the cycle's events are set over what the host clears, so an event of the same cycle wins over its clear;
IDLE is among them exactly where `is_idle` of R54 becomes true. -/
def Obligations.EventsWinOverClears : Prop :=
  ∀ (s : State) (v : Word), s.sample.rst = false →
    let ev := s.engineEvents ||| idleEvent s (idleCycle s)
    (idleCycle s).irqStatus = s.irqStatus ||| ev
    ∧ exec (.wr 0x020#14 v) s = .next { idleCycle s with irqStatus := (s.irqStatus &&& ~~~(v.extractLsb' 0 5)) ||| ev }
    ∧ (∀ t : State, (IdleState t ∧ ¬IdleState s → idleEvent s t = 0b00100#5) ∧ (¬(IdleState t ∧ ¬IdleState s) → idleEvent s t = 0#5))
    ∧ s.engineEvents &&& 0b00100#5 = 0#5

/-! ## The commands -/

/-- R173: NOP does nothing but record itself as accepted, and CMDRES then reads 0x00000001. -/
def Obligations.NopOnlyAccepts : Prop :=
  ∀ s : State, s.sample.rst = false →
    let t := { idleCycle s with cmdres := { result := .accepted, opcode := 0x00#8 } }
    exec .nop s = .next t ∧ ∀ e, readReg t e .cmdres = 0x00000001#32

/-- R171: the three rejections in their order, and the append: the stored descriptor word by word, the tail, and every other byte. -/
def Obligations.PushAppendsStagedBlock : Prop :=
  ∀ s : State, s.sample.rst = false →
    let n := idleCycle s
    let sl := slotOf s.params s.tail
    let keep := BitVec.ofNat 32 (2 ^ s.params.A - 1) ||| 0x0B7F0000#32
    let m := { n with
      mem := Memory.writeWords s.mem (0x1000 + 0x80 * sl) (pushImage s.params s.mem)
      tail := BitVec.ofNat 7 ((s.tail.toNat + 1) % (2 * s.params.N))
      cmdres := { result := .accepted, opcode := 0x01#8 } }
    (n.eng = .halted → exec .push s = .next { n with cmdres := { result := .halted, opcode := 0x01#8 } })
    ∧ (n.eng ≠ .halted → n.stopping = true → exec .push s = .next { n with cmdres := { result := .stopping, opcode := 0x01#8 } })
    ∧ (n.eng ≠ .halted → n.stopping = false → s.depth = s.params.N →
        exec .push s = .next { n with cmdres := { result := .full, opcode := 0x01#8 } })
    ∧ (n.eng ≠ .halted → n.stopping = false → s.depth ≠ s.params.N →
        exec .push s = .next { m with irqStatus := s.irqStatus ||| s.engineEvents ||| idleEvent s m })
    ∧ (∀ w, w < 32 → Memory.slot m.mem sl w =
        if w = 0 then Memory.stage s.mem 0 &&& keep
        else if w < 10 then Memory.stage s.mem w
        else if 16 ≤ w ∧ w < 16 + s.params.A then Memory.stage s.mem w &&& 0x7FFFFFFF#32
        else 0#32)
    ∧ ∀ x, (x < 0x1000 + 0x80 * sl ∨ 0x1080 + 0x80 * sl ≤ x) → Memory.byteAt m.mem x = Memory.byteAt s.mem x

/-- R172: the rejections in their order, and the update: five words and two flags of the slot, and nothing else. -/
def Obligations.UpdateRewritesQueuedBlock : Prop :=
  ∀ (s : State) (slot : BitVec 6), s.sample.rst = false →
    let n := idleCycle s
    let sl := slot.toNat
    let notQueued := s.queued sl = false ∨ n.queued sl = false
    let busy := s.busySlot sl = true ∨ n.busySlot sl = true
    let t := { n with mem := updateSlot s sl s.mem, cmdres := { result := .accepted, opcode := 0x02#8 } }
    (s.params.N ≤ sl → exec (.update slot) s = .next { n with cmdres := { result := .badArg, opcode := 0x02#8 } })
    ∧ (sl < s.params.N → n.eng = .halted →
        exec (.update slot) s = .next { n with cmdres := { result := .halted, opcode := 0x02#8 } })
    ∧ (sl < s.params.N → n.eng ≠ .halted → notQueued →
        exec (.update slot) s = .next { n with cmdres := { result := .notQueued, opcode := 0x02#8 } })
    ∧ (sl < s.params.N → n.eng ≠ .halted → ¬notQueued → busy →
        exec (.update slot) s = .next { n with cmdres := { result := .busy, opcode := 0x02#8 } })
    ∧ (sl < s.params.N → n.eng ≠ .halted → ¬notQueued → ¬busy → exec (.update slot) s = .next t)
    ∧ (∀ w, w < 32 → Memory.slot t.mem sl w =
        if w = 0 then (Memory.slot s.mem sl 0 &&& 0xFCFFFFFF#32) ||| (Memory.stage s.mem 0 &&& 0x03000000#32)
        else if w = 1 ∨ w = 3 ∨ w = 5 ∨ w = 6 ∨ w = 7 then Memory.stage s.mem w
        else Memory.slot s.mem sl w)
    ∧ ∀ x, (x < 0x1000 + 0x80 * sl ∨ 0x1080 + 0x80 * sl ≤ x) → Memory.byteAt t.mem x = Memory.byteAt s.mem x

/-- The state a halt of R200 leaves, called in a cycle of `s` before the bus, with the cause given: over the counting stage alone. -/
def Obligations.EstopHalts : Prop :=
  ∀ s : State, s.sample.rst = false →
    let aborted := s.bs.busy = true ∧ s.bs.flip = true ∧ s.bs.k.toNat ≤ s.cfgDirSetup.toNat
    let halted (cause : Cause) (c : CommandRecord) : State := { counting s with
      eng := .halted, head := s.tail, cd := 0#32, rate := 0#32, rem := 0#32, interval := 0#32, stopping := false, phase := .none
      homed := 0#16
      fault := if s.eng = .halted then s.fault else { cause := cause, check := 0#4, slot := 0#6, axes := 0#16 }
      bsPending := PerAxis.update s.params s.bsPending (fun _ => 0#16)
      bs := if aborted then { (counting s).bs with busy := false } else (counting s).bs
      cmdres := c
      irqStatus := if s.eng = .halted then s.irqStatus else s.irqStatus ||| 0b00001#5 }
    exec .estop s = .next (halted (if s.sample.estopIn then .estopPin else .estopCmd) { result := .accepted, opcode := 0x03#8 })
    ∧ (s.sample.estopIn = true → idleCycle s = halted .estopPin s.cmdres)
    ∧ (counting s).pos = s.pos ∧ (counting s).stepIndex = s.stepIndex ∧ (counting s).errTerm = s.errTerm
    ∧ (counting s).dirLat = s.dirLat ∧ (counting s).extSel = s.extSel ∧ (counting s).tail = s.tail ∧ (counting s).mem = s.mem
    ∧ (counting s).home = s.home

/-- R175: rejected while HALTED, a flush while IDLE, a finished stop at a low rate, and otherwise a stop begun. -/
def Obligations.QstopStops : Prop :=
  ∀ s : State, s.sample.rst = false →
    let n := idleCycle s
    let done : CommandRecord := { result := .accepted, opcode := 0x04#8 }
    let flushed := { n with head := s.tail, cmdres := done }
    let finished := { flushed with eng := .idle, stopping := false, phase := .none, cd := 0#32, rate := 0#32, rem := 0#32 }
    (n.eng = .halted → exec .qstop s = .next { n with cmdres := { result := .halted, opcode := 0x04#8 } })
    ∧ (n.eng = .idle →
        exec .qstop s = .next { flushed with irqStatus := s.irqStatus ||| s.engineEvents ||| 0b10000#5 ||| idleEvent s flushed })
    ∧ (n.eng = .run → n.rate.toNat ≤ s.cfgMinRate.toNat →
        exec .qstop s = .next { finished with irqStatus := s.irqStatus ||| s.engineEvents ||| 0b10000#5 ||| idleEvent s finished })
    ∧ (n.eng = .run → s.cfgMinRate.toNat < n.rate.toNat →
        exec .qstop s = .next { n with
          stopping := true, phase := .decel, rem := if n.phase = .decel then n.rem else 0#32, cmdres := done })

/-- R176: the rejections in their order, and the request counted. -/
def Obligations.BabystepCountsRequest : Prop :=
  ∀ (s : State) (axis : BitVec 4) (forward : Bool), s.sample.rst = false →
    let n := idleCycle s
    let x : Int := n.bsPending[axis.toFin].toInt + (if forward then 1 else -1)
    let m := { n with
      bsPending := n.bsPending.set axis.toFin (BitVec.ofInt 16 x)
      cmdres := { result := .accepted, opcode := 0x05#8 } }
    (s.params.A ≤ axis.toNat →
      exec (.babystep axis forward) s = .next { n with cmdres := { result := .badArg, opcode := 0x05#8 } })
    ∧ (axis.toNat < s.params.A → n.eng = .halted →
        exec (.babystep axis forward) s = .next { n with cmdres := { result := .halted, opcode := 0x05#8 } })
    ∧ (axis.toNat < s.params.A → n.eng ≠ .halted → (x < -32768 ∨ 32767 < x) →
        exec (.babystep axis forward) s = .next { n with cmdres := { result := .saturated, opcode := 0x05#8 } })
    ∧ (axis.toNat < s.params.A → n.eng ≠ .halted → -32768 ≤ x → x ≤ 32767 →
        exec (.babystep axis forward) s = .next { m with irqStatus := s.irqStatus ||| s.engineEvents ||| idleEvent s m }
        ∧ m.bsPending[axis.toFin].toInt = x)

/-- R177: the two rejections in their order, and the return to IDLE with no fault. -/
def Obligations.ClearHaltReturnsToIdle : Prop :=
  ∀ s : State, s.sample.rst = false →
    let n := idleCycle s
    let m := { n with
      eng := .idle
      fault := { cause := .none, check := 0#4, slot := 0#6, axes := 0#16 }
      cmdres := { result := .accepted, opcode := 0x06#8 } }
    (s.sample.estopIn = true → exec .clearHalt s = .next { n with cmdres := { result := .estopAsserted, opcode := 0x06#8 } })
    ∧ (s.sample.estopIn = false → s.eng ≠ .halted →
        exec .clearHalt s = .next { n with cmdres := { result := .notHalted, opcode := 0x06#8 } })
    ∧ (s.sample.estopIn = false → s.eng = .halted →
        exec .clearHalt s = .next { m with irqStatus := s.irqStatus ||| idleEvent s m })

/-! ## The engine -/

/-- R101, R103, R122: with no emergency stop, no step event and nothing to load, a cycle changes none of the engine's registers but the
countdown and the counters of the counting stage. -/
def Obligations.EngineBetweenEvents : Prop :=
  ∀ s : State, s.sample.rst = false → s.sample.estopIn = false →
    ((s.eng = .run ∧ s.cd ≠ 1#32) ∨ (s.eng = .idle ∧ s.depth = 0) ∨ s.eng = .halted) →
    idleCycle s = { s with
      busRdata := 0#32
      pins := s.pins.tail
      cycle := s.cycle + 1
      cd := if s.eng = .run then s.cd - 1#32 else s.cd
      pt := BitVec.ofNat 16 (s.pt.toNat - 1)
      pmask := if s.pt.toNat ≤ 1 then 0#23 else s.pmask
      settle := BitVec.ofNat 16 (s.settle.toNat - 1)
      bs := (idleCycle s).bs
      bsPending := (idleCycle s).bsPending
      bsCount := (idleCycle s).bsCount
      irqStatus := s.irqStatus ||| idleEvent s (idleCycle s) }

/-- R82, R83, R86, R93: the block a slot's words stand for, field by field, which every statement on the engine takes for a slot's block;
and R110, R118 to R121: the claim of a valid head block. -/
def Obligations.ClaimLoadsBlock : Prop :=
  (∀ (p : Params) (m : Memory) (sl : Nat),
    let w (i : Nat) : Word := Memory.slot m sl i
    let b := decodeBlock p m sl
    (∀ i, w i = Memory.readWord m (0x1000 + 0x80 * sl + 4 * i))
    ∧ (∀ a : Axis, b.dir.getLsbD a.val = (w 0).getLsbD a.val)
    ∧ b.dom = (w 0).toNat / 2 ^ 16 % 2 ^ 4
    ∧ (1 ≤ p.NE → b.ext = (w 0).toNat / 2 ^ 20 % 2 ^ 3) ∧ (p.NE = 0 → b.ext = 0)
    ∧ b.homing = (w 0).getLsbD 27
    ∧ b.initial = (w 1).toNat ∧ b.nominal = (w 2).toNat ∧ b.final = (w 3).toNat ∧ b.acc = (w 4).toNat
    ∧ b.au = (w 5).toNat ∧ b.da = (w 6).toNat
    ∧ (∀ a : Axis, b.steps[a] = (w (16 + a.val)).toNat % 2 ^ 31)
    ∧ (∀ a : Axis, a.val = b.dom → a.val < p.A → b.dominant p = (w (16 + a.val)).toNat % 2 ^ 31) ∧ (p.A ≤ b.dom → b.dominant p = 0)
    ∧ ∀ a : Axis, (b.moves a = true ↔ 0 < b.steps[a]) ∧ b.forward a = b.dir.getLsbD a.val)
  ∧ (∀ s : State, s.headBlock = decodeBlock s.params s.mem (slotOf s.params s.head))
  ∧ ∀ s : State, s.sample.rst = false → s.sample.estopIn = false → s.eng = .idle → s.bs.busy = false → s.depth ≠ 0 →
    let b := s.headBlock
    let chg := changesDirection s.params b s.dirLat
    validate s.params b = 0 → (chg = true → s.pt = 0#16) →
    let t := idleCycle s
    ClaimedBy s b t
    ∧ t.head = s.head ∧ t.tail = s.tail ∧ t.pos = s.pos ∧ t.homed = s.homed ∧ t.fault = s.fault ∧ t.stopping = s.stopping
    ∧ s.engineEvents = 0#5
    ∧ (chg = true ↔ ∃ a : Axis, a.val < s.params.A ∧ b.moves a = true ∧ s.dirLat.getLsbD (channelOf s.params a.val b.ext) ≠ b.forward a)

/-- R111: the two cases in which a load waits: the cycle only counts, the engine and its stop stay as they are, no babystep starts, and the
one event is IDLE, which a queued block rules out. -/
def Obligations.LoadWaits : Prop :=
  ∀ s : State, s.sample.rst = false → s.sample.estopIn = false → s.eng = .idle →
    (s.bs.busy = true ∨ (validate s.params s.headBlock = 0 ∧ changesDirection s.params s.headBlock s.dirLat = true ∧ s.pt ≠ 0#16)) →
    let t := idleCycle s
    t = { s with
      busRdata := 0#32
      pins := s.pins.tail
      cycle := s.cycle + 1
      pt := BitVec.ofNat 16 (s.pt.toNat - 1)
      pmask := if s.pt.toNat ≤ 1 then 0#23 else s.pmask
      settle := BitVec.ofNat 16 (s.settle.toNat - 1)
      bs := t.bs
      bsCount := t.bsCount
      irqStatus := s.irqStatus ||| idleEvent s t }
    ∧ t.eng = .idle ∧ t.stopping = s.stopping ∧ s.engineEvents = 0#5
    ∧ (s.bs.busy = false → t.bs = s.bs ∧ t.bsCount = s.bsCount)
    ∧ (s.depth ≠ 0 → t.irqStatus = s.irqStatus)

/-- R116: the checks and their order, and the halt on the first that fails. -/
def Obligations.BadBlockHalts : Prop :=
  (∀ (p : Params) (b : Block),
    let d := b.dominant p
    let c1 := p.A ≤ b.dom
    let c2 := d < 1
    let c3 := ∃ a : Axis, a.val < p.A ∧ d < b.steps[a]
    let c4 := b.da < b.au
    let c5 := d < b.da
    let c6 := 1 ≤ p.NE ∧ p.NE ≤ b.ext
    (c1 → validate p b = 1) ∧ (¬c1 → c2 → validate p b = 2) ∧ (¬c1 → ¬c2 → c3 → validate p b = 3)
    ∧ (¬c1 → ¬c2 → ¬c3 → c4 → validate p b = 4) ∧ (¬c1 → ¬c2 → ¬c3 → ¬c4 → c5 → validate p b = 5)
    ∧ (¬c1 → ¬c2 → ¬c3 → ¬c4 → ¬c5 → c6 → validate p b = 6)
    ∧ (¬c1 → ¬c2 → ¬c3 → ¬c4 → ¬c5 → ¬c6 → validate p b = 0))
  ∧ ∀ s : State, s.sample.rst = false → s.sample.estopIn = false → s.eng = .idle → s.bs.busy = false → s.depth ≠ 0 →
      validate s.params s.headBlock ≠ 0 →
      let t := idleCycle s
      HaltedBy s { cause := .badBlock, check := BitVec.ofNat 4 (validate s.params s.headBlock)
                   slot := BitVec.ofNat 6 (slotOf s.params s.head), axes := 0#16 } t
      ∧ pulseCountsOn s t ∧ t.stepIndex = s.stepIndex ∧ t.errTerm = s.errTerm ∧ t.pos = s.pos ∧ s.engineEvents = 0b00001#5

/-- R132 and R134: which axes trigger, and the fault they raise in a step event of a block that is not a homing block. -/
def Obligations.EndstopFaultHalts : Prop :=
  ∀ s : State,
    let b := s.headBlock
    let trig := endstopSample s s.sample.endstopIn b
    (∀ a : Axis, trig.getLsbD a.val = true ↔ a.val < s.params.A ∧ 0 < b.steps[a] ∧ s.cfgEsEn.getLsbD a.val = true
        ∧ b.forward a = s.cfgEsDir.getLsbD a.val ∧ (s.sample.endstopIn.getLsbD a.val ^^ s.cfgEsInv.getLsbD a.val) = true)
    ∧ (s.sample.rst = false → s.sample.estopIn = false → s.eng = .run → s.cd = 1#32 → trig ≠ 0#16 → b.homing = false →
        let t := idleCycle s
        HaltedBy s { cause := .endstop, check := 0#4, slot := BitVec.ofNat 6 (slotOf s.params s.head), axes := trig } t
        ∧ pulseCountsOn s t ∧ t.stepIndex = s.stepIndex ∧ t.errTerm = s.errTerm ∧ t.pos = s.pos ∧ s.engineEvents = 0b00001#5)

/-- R133, R148: a trigger on a homing block sets the triggered positions, retires the block and emits no step; then a stop in progress
finishes, or the next block is loaded in the same cycle: claimed, held up by a sequence or a pulse (R111), or halting the machine (R116). -/
def Obligations.HomingAbortRetiresBlock : Prop :=
  ∀ s : State, s.sample.rst = false → s.sample.estopIn = false → s.eng = .run → s.cd = 1#32 →
    let trig := endstopSample s s.sample.endstopIn s.headBlock
    trig ≠ 0#16 → s.headBlock.homing = true →
    let t := idleCycle s
    let h := nextIndex s.params s.head
    let b := decodeBlock s.params s.mem (slotOf s.params h)
    let chg := changesDirection s.params b s.dirLat
    let retired := t.eng = .idle ∧ t.phase = .none ∧ t.cd = 0#32 ∧ t.head = h ∧ t.stepIndex = s.stepIndex ∧ t.errTerm = s.errTerm
      ∧ t.rate = s.rate ∧ t.rem = s.rem ∧ t.interval = s.interval ∧ t.dirLat = s.dirLat ∧ t.extSel = s.extSel ∧ s.engineEvents = 0b01010#5
    (∀ a : Axis, t.pos[a] = if a.val < s.params.A ∧ trig.getLsbD a.val = true then s.home[a] else s.pos[a])
    ∧ (t.homed = if t.eng = .halted then 0#16 else s.homed ||| trig)
    ∧ pulseCountsOn s t
    ∧ (s.stopping = true → t.eng = .idle ∧ t.head = s.tail ∧ t.stopping = false ∧ t.phase = .none ∧ t.cd = 0#32 ∧ t.rate = 0#32
        ∧ t.rem = 0#32 ∧ t.interval = s.interval ∧ t.stepIndex = s.stepIndex ∧ s.engineEvents = 0b11010#5)
    ∧ (s.stopping = false → depth s.params h s.tail = 0 → retired)
    ∧ (s.stopping = false → depth s.params h s.tail ≠ 0 →
        (s.bs.busy = true ∨ (validate s.params b = 0 ∧ chg = true ∧ s.pt ≠ 0#16) → retired)
        ∧ (s.bs.busy = false → validate s.params b = 0 → (chg = true → s.pt = 0#16) →
            ClaimedBy s b t ∧ t.head = h ∧ s.engineEvents = 0b01010#5)
        ∧ (s.bs.busy = false → validate s.params b ≠ 0 →
            HaltedBy s { cause := .badBlock, check := BitVec.ofNat 4 (validate s.params b), slot := BitVec.ofNat 6 (slotOf s.params h)
                         axes := 0#16 } t
            ∧ t.stepIndex = s.stepIndex ∧ t.errTerm = s.errTerm ∧ s.engineEvents = 0b01011#5))

/-- R135 to R138: a step event moves and pulses exactly the axes whose error term passes `D`. -/
def Obligations.StepEventEmits : Prop :=
  ∀ s : State, Inv s → s.sample.rst = false → s.sample.estopIn = false → s.eng = .run → s.cd = 1#32 →
    let b := s.headBlock
    let d := b.dominant s.params
    let fires (a : Axis) := d < s.errTerm[a].toNat + b.steps[a]
    endstopSample s s.sample.endstopIn b = 0#16 →
    let t := idleCycle s
    t.pt = s.cfgPulseWidth
    ∧ (∀ c, t.pmask.getLsbD c = true ↔ ∃ a : Axis, a.val < s.params.A ∧ fires a ∧ channelOf s.params a.val b.ext = c)
    ∧ (∀ a : Axis, a.val < s.params.A → (fires a → t.pos[a] = s.pos[a] + (if b.forward a then 1#32 else -1#32))
        ∧ (¬fires a → t.pos[a] = s.pos[a]))
    ∧ (s.stepIndex.toNat + 1 < d → t.stepIndex.toNat = s.stepIndex.toNat + 1 ∧
        ∀ a : Axis, a.val < s.params.A → (fires a → t.errTerm[a].toNat = s.errTerm[a].toNat + b.steps[a] - d)
          ∧ (¬fires a → t.errTerm[a].toNat = s.errTerm[a].toNat + b.steps[a]))
    ∧ (∀ a : Axis, a.val = b.dom → fires a)
    ∧ ∀ a : Axis, a.val < s.params.A → b.steps[a] = 0 → ¬fires a

/-- R139, R144, R148, R205: the last step retires the block; a stop in progress finishes, and else the next block is claimed in the same
cycle, waits for the pulse, or halts the machine. -/
def Obligations.LastStepRetiresBlock : Prop :=
  ∀ s : State, Inv s → s.sample.rst = false → s.sample.estopIn = false → s.eng = .run → s.cd = 1#32 → s.bs.busy = false →
    endstopSample s s.sample.endstopIn s.headBlock = 0#16 → s.stepIndex.toNat + 1 = s.headBlock.dominant s.params →
    let t := idleCycle s
    let h := nextIndex s.params s.head
    let b := decodeBlock s.params s.mem (slotOf s.params h)
    let chg := changesDirection s.params b s.dirLat
    (s.stopping = true →
      t.eng = .idle ∧ t.head = s.tail ∧ t.stopping = false ∧ t.rate = 0#32 ∧ t.rem = 0#32 ∧ t.interval = s.interval
      ∧ s.engineEvents = 0b10010#5)
    ∧ (s.stopping = false → s.depth = 1 →
        t.eng = .idle ∧ t.head = h ∧ t.phase = .none ∧ t.cd = 0#32 ∧ t.rate = s.rate ∧ t.rem = s.rem ∧ t.interval = s.interval
        ∧ t.stepIndex.toNat = s.headBlock.dominant s.params ∧ s.engineEvents = 0b00010#5)
    ∧ (s.stopping = false → 1 < s.depth → validate s.params b = 0 → chg = false →
        ClaimedBy s b t ∧ t.head = h ∧ s.engineEvents = 0b00010#5)
    ∧ (s.stopping = false → 1 < s.depth → validate s.params b = 0 → chg = true →
        t.eng = .idle ∧ t.head = h ∧ t.dirLat = s.dirLat ∧ s.engineEvents = 0b00010#5)
    ∧ (s.stopping = false → 1 < s.depth → validate s.params b ≠ 0 →
        HaltedBy s { cause := .badBlock, check := BitVec.ofNat 4 (validate s.params b), slot := BitVec.ofNat 6 (slotOf s.params h)
                     axes := 0#16 } t
        ∧ s.engineEvents = 0b00011#5)

/-- R145 to R147: a step event that is not the last sets the phase, the rate, the interval and the countdown, or finishes a stop. -/
def Obligations.StepEventSchedulesNext : Prop :=
  ∀ s : State, s.sample.rst = false → s.sample.estopIn = false → s.eng = .run → s.cd = 1#32 →
    let b := s.headBlock
    let u := rateUpdate s b (if s.stopping then 0 else b.final)
    let ph := if s.stopping then .decel else phaseOf (s.stepIndex.toNat + 1) b
    endstopSample s s.sample.endstopIn b = 0#16 → s.stepIndex.toNat + 1 ≠ b.dominant s.params → s.rem.toNat < s.params.fTimer →
    let t := idleCycle s
    t.interval.toNat = ivl s u.1
    ∧ (s.stopping = false ∨ s.cfgMinRate.toNat < u.1 →
        t.eng = .run ∧ t.head = s.head ∧ t.phase = ph ∧ t.rate.toNat = u.1 ∧ t.rem.toNat = (if ph = s.phase then u.2 else 0)
        ∧ t.cd.toNat = ivl s u.1 ∧ t.stopping = s.stopping ∧ s.engineEvents = 0#5)
    ∧ (s.stopping = true → u.1 ≤ s.cfgMinRate.toNat →
        t.eng = .idle ∧ t.head = s.tail ∧ t.phase = .none ∧ t.rate = 0#32 ∧ t.rem = 0#32 ∧ t.cd = 0#32 ∧ t.stopping = false
        ∧ s.engineEvents = 0b10000#5)

/-- R140 to R142, R145: the rate updates are exact: no fraction is dropped but at a clamp, no rate passes its clamp, and a clamp acts only
where the exact rate reaches it; and each phase uses its own update. -/
def Obligations.RateUpdatesAreExact : Prop :=
  ∀ (s : State) (b : Block) (floor : Nat),
    let f := s.params.fTimer
    let gain := b.acc * s.interval.toNat + s.rem.toNat
    let up := accelUpdate s b
    let down := decelUpdate s b floor
    up.1 ≤ b.nominal
    ∧ (up.1 < b.nominal → up.1 * f + up.2 = s.rate.toNat * f + gain ∧ up.2 < f)
    ∧ (up.1 = b.nominal → up.2 = 0 ∧ b.nominal * f ≤ s.rate.toNat * f + gain)
    ∧ min s.rate.toNat floor ≤ down.1 ∧ down.1 ≤ s.rate.toNat
    ∧ (min s.rate.toNat floor < down.1 → (s.rate.toNat - down.1) * f + down.2 = gain ∧ down.2 < f)
    ∧ (down.1 = min s.rate.toNat floor → down.2 = 0 ∧ s.rate.toNat ≤ min s.rate.toNat floor + gain / f)
    ∧ cruiseUpdate s = (s.rate.toNat, s.rem.toNat)
    ∧ (s.phase = .accel → rateUpdate s b floor = up)
    ∧ (s.phase = .cruise → rateUpdate s b floor = cruiseUpdate s)
    ∧ (s.phase = .decel → rateUpdate s b floor = down)

/-- R112, R270: the interval is the exact quotient where no clamp acts, and stays within its clamps; a higher rate is never slower. -/
def Obligations.IntervalIsClampedQuotient : Prop :=
  ∀ (s : State) (r : Nat),
    let q := s.params.fTimer / max r s.cfgMinRate.toNat
    s.cfgPulseWidth.toNat + 1 ≤ ivl s r ∧ s.cfgMinInterval.toNat ≤ ivl s r ∧ ivl s r ≤ 2 ^ 32 - 1
    ∧ (s.cfgPulseWidth.toNat + 1 ≤ q → s.cfgMinInterval.toNat ≤ q → ivl s r = q)
    ∧ (q ≤ max s.cfgMinInterval.toNat (s.cfgPulseWidth.toNat + 1) → ivl s r = max s.cfgMinInterval.toNat (s.cfgPulseWidth.toNat + 1))
    ∧ (r ≤ s.cfgMinRate.toNat → ivl s r = ivl s 0)
    ∧ ∀ r', r ≤ r' → 1 ≤ s.cfgMinRate.toNat → ivl s r' ≤ ivl s r

/-- R106: the phase of each step index, and that a valid block has `au` ACCEL, `da - au` CRUISE and `D - da` DECEL steps. -/
def Obligations.PhasesPartitionTheBlock : Prop :=
  ∀ (b : Block) (d : Nat), b.au ≤ b.da → b.da ≤ d →
    ((List.range d).countP (fun i => phaseOf i b == .accel) = b.au)
    ∧ ((List.range d).countP (fun i => phaseOf i b == .cruise) = b.da - b.au)
    ∧ ((List.range d).countP (fun i => phaseOf i b == .decel) = d - b.da)
    ∧ ∀ i, (phaseOf i b = .accel ↔ i < b.au) ∧ (phaseOf i b = .cruise ↔ b.au ≤ i ∧ i < b.da) ∧ (phaseOf i b = .decel ↔ b.da ≤ i)

/-! ## The babystep sequencer -/

/-- R216: when a babystep starts, which, and what it records; the tests on the engine read the state after it. None starts in a HALTED
machine, nor in a cycle that began with a pulse high. -/
def Obligations.BabystepStartsWhenItFits : Prop :=
  ∀ s : State, s.sample.rst = false → s.sample.estopIn = false → s.bs.busy = false →
    let t := idleCycle s
    let unstarted := t.bs = s.bs ∧ t.bsPending = s.bsPending
    (t.eng = .halted → s.eng = .halted → unstarted)
    ∧ (t.eng = .halted → s.eng ≠ .halted → t.bs = s.bs ∧ ∀ a : Axis, a.val < s.params.A → t.bsPending[a] = 0#16)
    ∧ (t.eng ≠ .halted → s.pt ≠ 0#16 → unstarted)
    ∧ (t.eng ≠ .halted → s.pt = 0#16 →
      (∀ a : Axis, a.val < s.params.A → s.bsPending[a] ≠ 0#16 → (∀ a' : Axis, a'.val < a.val → s.bsPending[a'] = 0#16) →
        let d := decide (0 < s.bsPending[a].toInt)
        let c := channelOf s.params a.val t.extSel.toNat
        let flip := t.dirLat.getLsbD c != d
        let len := if flip then 2 * s.cfgDirSetup.toNat + s.cfgPulseWidth.toNat else s.cfgPulseWidth.toNat
        let ok := t.pt = 0#16 ∧ t.settle = 0#16 ∧ (t.eng = .run → len + 1 ≤ t.cd.toNat) ∧ (t.eng ≠ .run → t.depth = 0)
        (ok → t.bs = { busy := true, axis := BitVec.ofNat 4 a.val, ch := BitVec.ofNat 5 c, dir := d, flip := flip
                       len := BitVec.ofNat 18 len, k := 1#18 }
              ∧ t.bsPending = s.bsPending.set a (s.bsPending[a] - (if d then 1#16 else -1#16)))
        ∧ (¬ok → unstarted))
      ∧ ((∀ a : Axis, a.val < s.params.A → s.bsPending[a] = 0#16) → unstarted))

/-- R218: a running sequence moves on, and at its end is counted in BS_COUNT and not in POS. -/
def Obligations.BabystepAdvancesAndCounts : Prop :=
  ∀ s : State, s.sample.rst = false → s.sample.estopIn = false → s.bs.busy = true →
    ((s.eng = .run ∧ s.cd ≠ 1#32) ∨ s.eng = .idle ∨ s.eng = .halted) →
    let t := idleCycle s
    (s.bs.k ≠ s.bs.len → t.bs = { s.bs with k := s.bs.k + 1#18 } ∧ t.bsCount = s.bsCount)
    ∧ (s.bs.k = s.bs.len → t.bs.busy = false ∧
        ∀ a : Axis, a.val < s.params.A → t.bsCount[a] =
          if a.val = s.bs.axis.toNat then s.bsCount[a] + (if s.bs.dir then 1#32 else -1#32) else s.bsCount[a])
    ∧ t.pos = s.pos ∧ t.bsPending = s.bsPending

/-- R151, R152, R217: what each position of a sequence drives on its channel, with and without a flip. -/
def Obligations.BabystepSequenceDrives : Prop :=
  ∀ s : State, Inv s → PulseInv s → s.bs.busy = true →
    let k := s.bs.k.toNat
    let ds := s.cfgDirSetup.toNat
    let pw := s.cfgPulseWidth.toNat
    let c := s.bs.ch.toNat
    let idle := s.cfgStepInv.getLsbD c
    (s.bs.flip = true → k ≤ ds → stepOut s c = idle ∧ dirOut s c = (s.bs.dir ^^ s.cfgDirInv.getLsbD c))
    ∧ (s.bs.flip = true → ds + 1 ≤ k → k ≤ ds + pw → stepOut s c = !idle ∧ dirOut s c = (s.bs.dir ^^ s.cfgDirInv.getLsbD c))
    ∧ (s.bs.flip = true → ds + pw + 1 ≤ k → k ≤ 2 * ds + pw ∧ stepOut s c = idle
        ∧ dirOut s c = (s.dirLat.getLsbD c ^^ s.cfgDirInv.getLsbD c))
    ∧ (s.bs.flip = false → k ≤ pw ∧ stepOut s c = !idle ∧ dirOut s c = (s.dirLat.getLsbD c ^^ s.cfgDirInv.getLsbD c))

/-- R220: the babystep sequencer perturbs nothing of the engine: two states that differ only in the sequencer's own registers run the same
cycle, where no load is held up by a sequence; of IRQ_STATUS only the IDLE bit may differ. -/
def Obligations.BabystepsDoNotPerturb : Prop :=
  ∀ s s' : State, s' = { s with bs := s'.bs, bsPending := s'.bsPending, bsCount := s'.bsCount } → s.sample.rst = false →
    ((s.eng = .run ∧ s.cd ≠ 1#32) ∨ s.eng = .halted ∨ (s.bs.busy = false ∧ s'.bs.busy = false)) →
    idleCycle s' = { idleCycle s with
      bs := (idleCycle s').bs, bsPending := (idleCycle s').bsPending, bsCount := (idleCycle s').bsCount
      irqStatus := (idleCycle s').irqStatus }
    ∧ ∀ i, i ≠ 2 → (idleCycle s').irqStatus.getLsbD i = (idleCycle s).irqStatus.getLsbD i

/-! ## The outputs -/

/-- R7, R156: the channels of a part and the one each axis drives; and R150, R152, R153, R157: the pins of a state, with no sequence running
and with one on another channel. -/
def Obligations.PinsFollowState : Prop :=
  (∀ q : Params,
    (1 ≤ q.NE → channels q = q.A - 1 + q.NE) ∧ (q.NE = 0 → channels q = q.A)
    ∧ (∀ a e, 1 ≤ q.NE → a = q.A - 1 → channelOf q a e = q.A - 1 + e)
    ∧ (∀ a e, (q.NE = 0 ∨ a ≠ q.A - 1) → channelOf q a e = a)
    ∧ (∀ a e, a < q.A → (1 ≤ q.NE → e < q.NE) → channelOf q a e < channels q)
    ∧ ∀ a a' e, a < q.A → a' < q.A → channelOf q a e = channelOf q a' e → a = a')
  ∧ ∀ (s : State) (p : Nat), (s.bs.busy = false ∨ s.bs.ch.toNat ≠ p) →
    (stepOut s p = true ↔ ((0 < s.pt.toNat ∧ s.pmask.getLsbD p = true) ↔ s.cfgStepInv.getLsbD p = false))
    ∧ (dirOut s p = true ↔ (s.dirLat.getLsbD p = true ↔ s.cfgDirInv.getLsbD p = false))
    ∧ (irqOut s = true ↔ ∃ i, i < 5 ∧ s.irqStatus.getLsbD i = true ∧ s.irqEnable.getLsbD i = true)

/-! ## The machine as a whole -/

/-- R55: every step keeps the invariants. -/
def Obligations.StepKeepsInvariants : Prop :=
  ∀ s t : State, Inv s → step s = .next t → Inv t

/-- R137, R150, R154, R219: every step keeps pulses apart. -/
def Obligations.StepKeepsPulsesApart : Prop :=
  ∀ s t : State, Inv s → PulseInv s → step s = .next t → PulseInv t

/-- R8, R26, R40, R45, R50: every step keeps each field in its legal range. -/
def Obligations.StepKeepsFieldsLegal : Prop :=
  ∀ s t : State, Inv s → FieldInv s → step s = .next t → FieldInv t

/-- R143: every step keeps the closed form of the error terms. -/
def Obligations.StepKeepsErrorTerms : Prop :=
  ∀ s t : State, Inv s → BresenhamInv s → step s = .next t → BresenhamInv t

/-- R143: over any steps that keep a block busy from its claim, whatever the host does, an axis has moved by the exact count of R143, and
the last event brings it to exactly its step count. -/
def Obligations.PositionsAreExact : Prop :=
  ∀ (σ : Nat → State) (m : Nat), Inv (σ 0) → BresenhamInv (σ 0) → (σ 0).stepIndex = 0#32 →
    (∀ j, j < m → step (σ j) = .next (σ (j + 1))) →
    (∀ j, j ≤ m → (σ j).eng = .run ∧ (σ j).head = (σ 0).head) →
    let b := (σ 0).headBlock
    let d := b.dominant (σ 0).params
    ∀ a : Axis, a.val < (σ 0).params.A →
      (σ m).pos[a] = moved (σ 0).pos[a] (b.forward a) (pulsesAfter d b.steps[a] (σ m).stepIndex.toNat)
      ∧ ∀ t, step (σ m) = .next t → (σ m).sample.rst = false → (σ m).estopNow = false → (σ m).cd = 1#32 →
          endstopSample (σ m) (σ m).sample.endstopIn (σ m).headBlock = 0#16 → (σ m).stepIndex.toNat + 1 = d →
          t.pos[a] = moved (σ 0).pos[a] (b.forward a) b.steps[a]

/-- R130: step events are exactly the countdown apart: nothing but a reset, an emergency stop or a controlled stop changes the spacing. -/
def Obligations.StepEventsKeepSpacing : Prop :=
  ∀ (σ : Nat → State) (c : Nat), (σ 0).eng = .run → (σ 0).cd.toNat = c →
    (∀ j, j + 1 < c → step (σ j) = .next (σ (j + 1)) ∧ (σ j).sample.rst = false ∧ (σ j).estopNow = false
      ∧ (σ j).onBus ≠ some .qstop) →
    ∀ j, j < c → (σ j).eng = .run ∧ (σ j).cd.toNat = c - j ∧ (σ j).head = (σ 0).head ∧ (σ j).stepIndex = (σ 0).stepIndex
      ∧ (σ j).errTerm = (σ 0).errTerm ∧ (σ j).pos = (σ 0).pos ∧ (σ j).interval = (σ 0).interval

/-- R154, R203: once a step event has begun a pulse, it stays out for exactly PW cycles, whatever follows but a reset. -/
def Obligations.PulsesLastTheirWidth : Prop :=
  ∀ (σ : Nat → State), Inv (σ 0) → PulseInv (σ 0) → (σ 0).pt = (σ 0).cfgPulseWidth →
    (∀ j, j < (σ 0).cfgPulseWidth.toNat → step (σ j) = .next (σ (j + 1)) ∧ (σ j).sample.rst = false) →
    ∀ j, j ≤ (σ 0).cfgPulseWidth.toNat → (σ j).pt.toNat = (σ 0).cfgPulseWidth.toNat - j
      ∧ (j < (σ 0).cfgPulseWidth.toNat → (σ j).pmask = (σ 0).pmask)

/-- R203: in a cycle of an emergency stop, and in every cycle of a HALTED machine, no pulse begins on any channel. -/
def Obligations.EmergencyStopBound : Prop :=
  ∀ (s t : State) (p : Nat), Inv s → PulseInv s → step s = .next t → (s.estopNow = true ∨ s.eng = .halted) →
    pulseActive t p = true → pulseActive s p = true

/-- R111, R155: while a pulse is out, the direction of its channel does not change. -/
def Obligations.DirectionStableDuringPulse : Prop :=
  ∀ (s t : State) (p : Nat), Inv s → PulseInv s → step s = .next t →
    pulseActive s p = true → pulseActive t p = true → dirOut t p = dirOut s p

/-- R120: the direction latches change only at a claim, and to what the claimed block gives them: where a step changes them, the engine of
that cycle (`idleCycle s`, since no emergency stop acts) claims a valid queued block, the head block of an IDLE machine or, in a step
event, the block behind the one it retires, and no pulse was high and no sequence running. -/
def Obligations.DirectionLatchesChangeAtClaims : Prop :=
  ∀ s t : State, step s = .next t → s.sample.rst = false → t.dirLat ≠ s.dirLat →
    s.estopNow = false ∧ s.bs.busy = false ∧ s.pt = 0#16 ∧ t.stepIndex = 0#32
    ∧ ∃ h, ((s.eng = .idle ∧ h = s.head) ∨ (s.eng = .run ∧ s.cd = 1#32 ∧ h = nextIndex s.params s.head))
      ∧ depth s.params h s.tail ≠ 0
      ∧ (let b := decodeBlock s.params s.mem (slotOf s.params h)
        validate s.params b = 0 ∧ changesDirection s.params b s.dirLat = true ∧ ClaimedBy s b (idleCycle s)
        ∧ (idleCycle s).head = h ∧ t.dirLat = latchDirections s.params b s.dirLat)

/-- R68, R73: no step changes a byte of the busy block's slot. -/
def Obligations.BusyBlockIsFrozen : Prop :=
  ∀ s t : State, Inv s → s.eng = .run → step s = .next t →
    ∀ x, 0x1000 + 0x80 * slotOf s.params s.head ≤ x → x < 0x1080 + 0x80 * slotOf s.params s.head →
      Memory.byteAt t.mem x = Memory.byteAt s.mem x

/-- R26: what the queue indices say of the buffer; and R25, R26, R70: how they move. -/
def Obligations.QueueIndicesMoveInOrder : Prop :=
  (∀ (p : Params) (h t : QueueIndex),
    (depth p h t : Int) = ((t.toNat : Int) - h.toNat) % (2 * p.N)
    ∧ slotOf p h = h.toNat % p.N ∧ (nextIndex p h).toNat = (h.toNat + 1) % (2 * p.N))
  ∧ (∀ (s : State) (sl : Nat), sl < s.params.N →
      s.depth = depth s.params s.head s.tail
      ∧ (s.queued sl = true ↔ ((sl : Int) - s.head.toNat) % s.params.N < s.depth)
      ∧ (s.busySlot sl = true ↔ s.eng = .run ∧ sl = slotOf s.params s.head))
  ∧ ∀ s t : State, step s = .next t → s.sample.rst = false →
    (t.head = s.head ∨ (t.head = nextIndex s.params s.head ∧ s.eng = .run) ∨ t.head = s.tail)
    ∧ (t.tail = s.tail ∨ (s.onBus = some .push ∧ t.tail = nextIndex s.params s.tail))

/-- R231, R238: HALTED is left only by an accepted CLEAR_HALT, and while HALTED no fault is latched and no HALT event raised. -/
def Obligations.HaltedUntilClearHalt : Prop :=
  ∀ s t : State, step s = .next t → s.sample.rst = false → s.eng = .halted →
    ((t.eng = .halted ∧ t.fault = s.fault)
      ∨ (s.onBus = some .clearHalt ∧ s.sample.estopIn = false ∧ t.eng = .idle ∧ t.fault.word = 0#32))
    ∧ (t.irqStatus.getLsbD 0 = true → s.irqStatus.getLsbD 0 = true)
    ∧ t.stepIndex = s.stepIndex ∧ t.errTerm = s.errTerm ∧ t.dirLat = s.dirLat ∧ t.extSel = s.extSel

/-- R268: while locked (R54), no step changes a configuration register or a home offset. -/
def Obligations.LockProtectsConfiguration : Prop :=
  ∀ s t : State, step s = .next t → s.sample.rst = false → ¬UnlockedState s →
    t.cfgStepInv = s.cfgStepInv ∧ t.cfgDirInv = s.cfgDirInv ∧ t.cfgEsEn = s.cfgEsEn ∧ t.cfgEsDir = s.cfgEsDir
    ∧ t.cfgEsInv = s.cfgEsInv ∧ t.cfgPulseWidth = s.cfgPulseWidth ∧ t.cfgDirSetup = s.cfgDirSetup
    ∧ t.cfgMinInterval = s.cfgMinInterval ∧ t.cfgMinRate = s.cfgMinRate ∧ t.home = s.home
end

