-- ==== Sys2Proof/Laws/State.lean ====
section
/-! SUPPORT. For each named update of the state, one lemma per field, so that no proof unfolds a record update: the field's new value
where the update writes it, its old value where it does not. -/

namespace Sys2Proof.Machine

/-! ### `begin` -/

@[simp] theorem begin_params (s : State) : s.begin.params = s.params := rfl
@[simp] theorem begin_eng (s : State) : s.begin.eng = s.eng := rfl
@[simp] theorem begin_phase (s : State) : s.begin.phase = s.phase := rfl
@[simp] theorem begin_stopping (s : State) : s.begin.stopping = s.stopping := rfl
@[simp] theorem begin_head (s : State) : s.begin.head = s.head := rfl
@[simp] theorem begin_tail (s : State) : s.begin.tail = s.tail := rfl
@[simp] theorem begin_fault (s : State) : s.begin.fault = s.fault := rfl
@[simp] theorem begin_cmdres (s : State) : s.begin.cmdres = s.cmdres := rfl
@[simp] theorem begin_mem (s : State) : s.begin.mem = s.mem := rfl
@[simp] theorem begin_stepIndex (s : State) : s.begin.stepIndex = s.stepIndex := rfl
@[simp] theorem begin_errTerm (s : State) : s.begin.errTerm = s.errTerm := rfl
@[simp] theorem begin_rate (s : State) : s.begin.rate = s.rate := rfl
@[simp] theorem begin_rem (s : State) : s.begin.rem = s.rem := rfl
@[simp] theorem begin_interval (s : State) : s.begin.interval = s.interval := rfl
@[simp] theorem begin_cd (s : State) : s.begin.cd = s.cd := rfl
@[simp] theorem begin_pt (s : State) : s.begin.pt = s.pt := rfl
@[simp] theorem begin_pmask (s : State) : s.begin.pmask = s.pmask := rfl
@[simp] theorem begin_settle (s : State) : s.begin.settle = s.settle := rfl
@[simp] theorem begin_dirLat (s : State) : s.begin.dirLat = s.dirLat := rfl
@[simp] theorem begin_extSel (s : State) : s.begin.extSel = s.extSel := rfl
@[simp] theorem begin_pos (s : State) : s.begin.pos = s.pos := rfl
@[simp] theorem begin_home (s : State) : s.begin.home = s.home := rfl
@[simp] theorem begin_homed (s : State) : s.begin.homed = s.homed := rfl
@[simp] theorem begin_bsPending (s : State) : s.begin.bsPending = s.bsPending := rfl
@[simp] theorem begin_bs (s : State) : s.begin.bs = s.bs := rfl
@[simp] theorem begin_bsCount (s : State) : s.begin.bsCount = s.bsCount := rfl
@[simp] theorem begin_irqStatus (s : State) : s.begin.irqStatus = s.irqStatus := rfl
@[simp] theorem begin_irqEnable (s : State) : s.begin.irqEnable = s.irqEnable := rfl
@[simp] theorem begin_errFlags (s : State) : s.begin.errFlags = s.errFlags := rfl
@[simp] theorem begin_cfgStepInv (s : State) : s.begin.cfgStepInv = s.cfgStepInv := rfl
@[simp] theorem begin_cfgDirInv (s : State) : s.begin.cfgDirInv = s.cfgDirInv := rfl
@[simp] theorem begin_cfgEsEn (s : State) : s.begin.cfgEsEn = s.cfgEsEn := rfl
@[simp] theorem begin_cfgEsDir (s : State) : s.begin.cfgEsDir = s.cfgEsDir := rfl
@[simp] theorem begin_cfgEsInv (s : State) : s.begin.cfgEsInv = s.cfgEsInv := rfl
@[simp] theorem begin_cfgPulseWidth (s : State) : s.begin.cfgPulseWidth = s.cfgPulseWidth := rfl
@[simp] theorem begin_cfgDirSetup (s : State) : s.begin.cfgDirSetup = s.cfgDirSetup := rfl
@[simp] theorem begin_cfgMinInterval (s : State) : s.begin.cfgMinInterval = s.cfgMinInterval := rfl
@[simp] theorem begin_cfgMinRate (s : State) : s.begin.cfgMinRate = s.cfgMinRate := rfl
@[simp] theorem begin_busRdata (s : State) : s.begin.busRdata = 0#32 := rfl
@[simp] theorem begin_pins (s : State) : s.begin.pins = s.pins.tail := rfl
@[simp] theorem begin_host (s : State) : s.begin.host = s.host := rfl
@[simp] theorem begin_cycle (s : State) : s.begin.cycle = s.cycle + 1 := rfl

/-! ### `advanceHost` -/

@[simp] theorem advanceHost_params (t : State) : (advanceHost t).params = t.params := rfl
@[simp] theorem advanceHost_eng (t : State) : (advanceHost t).eng = t.eng := rfl
@[simp] theorem advanceHost_phase (t : State) : (advanceHost t).phase = t.phase := rfl
@[simp] theorem advanceHost_stopping (t : State) : (advanceHost t).stopping = t.stopping := rfl
@[simp] theorem advanceHost_head (t : State) : (advanceHost t).head = t.head := rfl
@[simp] theorem advanceHost_tail (t : State) : (advanceHost t).tail = t.tail := rfl
@[simp] theorem advanceHost_fault (t : State) : (advanceHost t).fault = t.fault := rfl
@[simp] theorem advanceHost_cmdres (t : State) : (advanceHost t).cmdres = t.cmdres := rfl
@[simp] theorem advanceHost_mem (t : State) : (advanceHost t).mem = t.mem := rfl
@[simp] theorem advanceHost_stepIndex (t : State) : (advanceHost t).stepIndex = t.stepIndex := rfl
@[simp] theorem advanceHost_errTerm (t : State) : (advanceHost t).errTerm = t.errTerm := rfl
@[simp] theorem advanceHost_rate (t : State) : (advanceHost t).rate = t.rate := rfl
@[simp] theorem advanceHost_rem (t : State) : (advanceHost t).rem = t.rem := rfl
@[simp] theorem advanceHost_interval (t : State) : (advanceHost t).interval = t.interval := rfl
@[simp] theorem advanceHost_cd (t : State) : (advanceHost t).cd = t.cd := rfl
@[simp] theorem advanceHost_pt (t : State) : (advanceHost t).pt = t.pt := rfl
@[simp] theorem advanceHost_pmask (t : State) : (advanceHost t).pmask = t.pmask := rfl
@[simp] theorem advanceHost_settle (t : State) : (advanceHost t).settle = t.settle := rfl
@[simp] theorem advanceHost_dirLat (t : State) : (advanceHost t).dirLat = t.dirLat := rfl
@[simp] theorem advanceHost_extSel (t : State) : (advanceHost t).extSel = t.extSel := rfl
@[simp] theorem advanceHost_pos (t : State) : (advanceHost t).pos = t.pos := rfl
@[simp] theorem advanceHost_home (t : State) : (advanceHost t).home = t.home := rfl
@[simp] theorem advanceHost_homed (t : State) : (advanceHost t).homed = t.homed := rfl
@[simp] theorem advanceHost_bsPending (t : State) : (advanceHost t).bsPending = t.bsPending := rfl
@[simp] theorem advanceHost_bs (t : State) : (advanceHost t).bs = t.bs := rfl
@[simp] theorem advanceHost_bsCount (t : State) : (advanceHost t).bsCount = t.bsCount := rfl
@[simp] theorem advanceHost_irqStatus (t : State) : (advanceHost t).irqStatus = t.irqStatus := rfl
@[simp] theorem advanceHost_irqEnable (t : State) : (advanceHost t).irqEnable = t.irqEnable := rfl
@[simp] theorem advanceHost_errFlags (t : State) : (advanceHost t).errFlags = t.errFlags := rfl
@[simp] theorem advanceHost_cfgStepInv (t : State) : (advanceHost t).cfgStepInv = t.cfgStepInv := rfl
@[simp] theorem advanceHost_cfgDirInv (t : State) : (advanceHost t).cfgDirInv = t.cfgDirInv := rfl
@[simp] theorem advanceHost_cfgEsEn (t : State) : (advanceHost t).cfgEsEn = t.cfgEsEn := rfl
@[simp] theorem advanceHost_cfgEsDir (t : State) : (advanceHost t).cfgEsDir = t.cfgEsDir := rfl
@[simp] theorem advanceHost_cfgEsInv (t : State) : (advanceHost t).cfgEsInv = t.cfgEsInv := rfl
@[simp] theorem advanceHost_cfgPulseWidth (t : State) : (advanceHost t).cfgPulseWidth = t.cfgPulseWidth := rfl
@[simp] theorem advanceHost_cfgDirSetup (t : State) : (advanceHost t).cfgDirSetup = t.cfgDirSetup := rfl
@[simp] theorem advanceHost_cfgMinInterval (t : State) : (advanceHost t).cfgMinInterval = t.cfgMinInterval := rfl
@[simp] theorem advanceHost_cfgMinRate (t : State) : (advanceHost t).cfgMinRate = t.cfgMinRate := rfl
@[simp] theorem advanceHost_busRdata (t : State) : (advanceHost t).busRdata = t.busRdata := rfl
@[simp] theorem advanceHost_pins (t : State) : (advanceHost t).pins = t.pins := rfl
@[simp] theorem advanceHost_host (t : State) : (advanceHost t).host = hostAdvance t.busRdata t.host := rfl
@[simp] theorem advanceHost_cycle (t : State) : (advanceHost t).cycle = t.cycle := rfl

/-! ### `irqUpdate` -/

@[simp] theorem irqUpdate_params (S : State) (clear : BitVec 5) (w : Work) : (irqUpdate S clear w).params = w.st.params := rfl
@[simp] theorem irqUpdate_eng (S : State) (clear : BitVec 5) (w : Work) : (irqUpdate S clear w).eng = w.st.eng := rfl
@[simp] theorem irqUpdate_phase (S : State) (clear : BitVec 5) (w : Work) : (irqUpdate S clear w).phase = w.st.phase := rfl
@[simp] theorem irqUpdate_stopping (S : State) (clear : BitVec 5) (w : Work) : (irqUpdate S clear w).stopping = w.st.stopping := rfl
@[simp] theorem irqUpdate_head (S : State) (clear : BitVec 5) (w : Work) : (irqUpdate S clear w).head = w.st.head := rfl
@[simp] theorem irqUpdate_tail (S : State) (clear : BitVec 5) (w : Work) : (irqUpdate S clear w).tail = w.st.tail := rfl
@[simp] theorem irqUpdate_fault (S : State) (clear : BitVec 5) (w : Work) : (irqUpdate S clear w).fault = w.st.fault := rfl
@[simp] theorem irqUpdate_cmdres (S : State) (clear : BitVec 5) (w : Work) : (irqUpdate S clear w).cmdres = w.st.cmdres := rfl
@[simp] theorem irqUpdate_mem (S : State) (clear : BitVec 5) (w : Work) : (irqUpdate S clear w).mem = w.st.mem := rfl
@[simp] theorem irqUpdate_stepIndex (S : State) (clear : BitVec 5) (w : Work) : (irqUpdate S clear w).stepIndex = w.st.stepIndex := rfl
@[simp] theorem irqUpdate_errTerm (S : State) (clear : BitVec 5) (w : Work) : (irqUpdate S clear w).errTerm = w.st.errTerm := rfl
@[simp] theorem irqUpdate_rate (S : State) (clear : BitVec 5) (w : Work) : (irqUpdate S clear w).rate = w.st.rate := rfl
@[simp] theorem irqUpdate_rem (S : State) (clear : BitVec 5) (w : Work) : (irqUpdate S clear w).rem = w.st.rem := rfl
@[simp] theorem irqUpdate_interval (S : State) (clear : BitVec 5) (w : Work) : (irqUpdate S clear w).interval = w.st.interval := rfl
@[simp] theorem irqUpdate_cd (S : State) (clear : BitVec 5) (w : Work) : (irqUpdate S clear w).cd = w.st.cd := rfl
@[simp] theorem irqUpdate_pt (S : State) (clear : BitVec 5) (w : Work) : (irqUpdate S clear w).pt = w.st.pt := rfl
@[simp] theorem irqUpdate_pmask (S : State) (clear : BitVec 5) (w : Work) : (irqUpdate S clear w).pmask = w.st.pmask := rfl
@[simp] theorem irqUpdate_settle (S : State) (clear : BitVec 5) (w : Work) : (irqUpdate S clear w).settle = w.st.settle := rfl
@[simp] theorem irqUpdate_dirLat (S : State) (clear : BitVec 5) (w : Work) : (irqUpdate S clear w).dirLat = w.st.dirLat := rfl
@[simp] theorem irqUpdate_extSel (S : State) (clear : BitVec 5) (w : Work) : (irqUpdate S clear w).extSel = w.st.extSel := rfl
@[simp] theorem irqUpdate_pos (S : State) (clear : BitVec 5) (w : Work) : (irqUpdate S clear w).pos = w.st.pos := rfl
@[simp] theorem irqUpdate_home (S : State) (clear : BitVec 5) (w : Work) : (irqUpdate S clear w).home = w.st.home := rfl
@[simp] theorem irqUpdate_homed (S : State) (clear : BitVec 5) (w : Work) : (irqUpdate S clear w).homed = w.st.homed := rfl
@[simp] theorem irqUpdate_bsPending (S : State) (clear : BitVec 5) (w : Work) : (irqUpdate S clear w).bsPending = w.st.bsPending := rfl
@[simp] theorem irqUpdate_bs (S : State) (clear : BitVec 5) (w : Work) : (irqUpdate S clear w).bs = w.st.bs := rfl
@[simp] theorem irqUpdate_bsCount (S : State) (clear : BitVec 5) (w : Work) : (irqUpdate S clear w).bsCount = w.st.bsCount := rfl
@[simp] theorem irqUpdate_irqStatus (S : State) (clear : BitVec 5) (w : Work) :
    (irqUpdate S clear w).irqStatus = (S.irqStatus &&& ~~~clear) ||| (if w.st.isIdle && !S.isIdle then w.ev ||| evIdle else w.ev) := rfl
@[simp] theorem irqUpdate_irqEnable (S : State) (clear : BitVec 5) (w : Work) : (irqUpdate S clear w).irqEnable = w.st.irqEnable := rfl
@[simp] theorem irqUpdate_errFlags (S : State) (clear : BitVec 5) (w : Work) : (irqUpdate S clear w).errFlags = w.st.errFlags := rfl
@[simp] theorem irqUpdate_cfgStepInv (S : State) (clear : BitVec 5) (w : Work) : (irqUpdate S clear w).cfgStepInv = w.st.cfgStepInv := rfl
@[simp] theorem irqUpdate_cfgDirInv (S : State) (clear : BitVec 5) (w : Work) : (irqUpdate S clear w).cfgDirInv = w.st.cfgDirInv := rfl
@[simp] theorem irqUpdate_cfgEsEn (S : State) (clear : BitVec 5) (w : Work) : (irqUpdate S clear w).cfgEsEn = w.st.cfgEsEn := rfl
@[simp] theorem irqUpdate_cfgEsDir (S : State) (clear : BitVec 5) (w : Work) : (irqUpdate S clear w).cfgEsDir = w.st.cfgEsDir := rfl
@[simp] theorem irqUpdate_cfgEsInv (S : State) (clear : BitVec 5) (w : Work) : (irqUpdate S clear w).cfgEsInv = w.st.cfgEsInv := rfl
@[simp] theorem irqUpdate_cfgPulseWidth (S : State) (clear : BitVec 5) (w : Work) :
    (irqUpdate S clear w).cfgPulseWidth = w.st.cfgPulseWidth := rfl
@[simp] theorem irqUpdate_cfgDirSetup (S : State) (clear : BitVec 5) (w : Work) :
    (irqUpdate S clear w).cfgDirSetup = w.st.cfgDirSetup := rfl
@[simp] theorem irqUpdate_cfgMinInterval (S : State) (clear : BitVec 5) (w : Work) :
    (irqUpdate S clear w).cfgMinInterval = w.st.cfgMinInterval := rfl
@[simp] theorem irqUpdate_cfgMinRate (S : State) (clear : BitVec 5) (w : Work) : (irqUpdate S clear w).cfgMinRate = w.st.cfgMinRate := rfl
@[simp] theorem irqUpdate_busRdata (S : State) (clear : BitVec 5) (w : Work) : (irqUpdate S clear w).busRdata = w.st.busRdata := rfl
@[simp] theorem irqUpdate_pins (S : State) (clear : BitVec 5) (w : Work) : (irqUpdate S clear w).pins = w.st.pins := rfl
@[simp] theorem irqUpdate_host (S : State) (clear : BitVec 5) (w : Work) : (irqUpdate S clear w).host = w.st.host := rfl
@[simp] theorem irqUpdate_cycle (S : State) (clear : BitVec 5) (w : Work) : (irqUpdate S clear w).cycle = w.st.cycle := rfl

/-! ### `halt` -/

@[simp] theorem halt_params (S : State) (c : Cause) (k sl : Nat) (ax : AxisMask) (w : Work) :
    (halt S c k sl ax w).st.params = w.st.params := rfl
@[simp] theorem halt_eng (S : State) (c : Cause) (k sl : Nat) (ax : AxisMask) (w : Work) : (halt S c k sl ax w).st.eng = .halted := rfl
@[simp] theorem halt_phase (S : State) (c : Cause) (k sl : Nat) (ax : AxisMask) (w : Work) : (halt S c k sl ax w).st.phase = .none := rfl
@[simp] theorem halt_stopping (S : State) (c : Cause) (k sl : Nat) (ax : AxisMask) (w : Work) :
    (halt S c k sl ax w).st.stopping = false := rfl
@[simp] theorem halt_head (S : State) (c : Cause) (k sl : Nat) (ax : AxisMask) (w : Work) : (halt S c k sl ax w).st.head = S.tail := rfl
@[simp] theorem halt_tail (S : State) (c : Cause) (k sl : Nat) (ax : AxisMask) (w : Work) : (halt S c k sl ax w).st.tail = w.st.tail := rfl
@[simp] theorem halt_fault (S : State) (c : Cause) (k sl : Nat) (ax : AxisMask) (w : Work) :
    (halt S c k sl ax w).st.fault =
      (if S.eng = .halted then w.st.fault else { cause := c, check := BitVec.ofNat 4 k, slot := BitVec.ofNat 6 sl, axes := ax }) := rfl
@[simp] theorem halt_cmdres (S : State) (c : Cause) (k sl : Nat) (ax : AxisMask) (w : Work) :
    (halt S c k sl ax w).st.cmdres = w.st.cmdres := rfl
@[simp] theorem halt_mem (S : State) (c : Cause) (k sl : Nat) (ax : AxisMask) (w : Work) : (halt S c k sl ax w).st.mem = w.st.mem := rfl
@[simp] theorem halt_stepIndex (S : State) (c : Cause) (k sl : Nat) (ax : AxisMask) (w : Work) :
    (halt S c k sl ax w).st.stepIndex = w.st.stepIndex := rfl
@[simp] theorem halt_errTerm (S : State) (c : Cause) (k sl : Nat) (ax : AxisMask) (w : Work) :
    (halt S c k sl ax w).st.errTerm = w.st.errTerm := rfl
@[simp] theorem halt_rate (S : State) (c : Cause) (k sl : Nat) (ax : AxisMask) (w : Work) : (halt S c k sl ax w).st.rate = 0#32 := rfl
@[simp] theorem halt_rem (S : State) (c : Cause) (k sl : Nat) (ax : AxisMask) (w : Work) : (halt S c k sl ax w).st.rem = 0#32 := rfl
@[simp] theorem halt_interval (S : State) (c : Cause) (k sl : Nat) (ax : AxisMask) (w : Work) :
    (halt S c k sl ax w).st.interval = 0#32 := rfl
@[simp] theorem halt_cd (S : State) (c : Cause) (k sl : Nat) (ax : AxisMask) (w : Work) : (halt S c k sl ax w).st.cd = 0#32 := rfl
@[simp] theorem halt_pt (S : State) (c : Cause) (k sl : Nat) (ax : AxisMask) (w : Work) : (halt S c k sl ax w).st.pt = w.st.pt := rfl
@[simp] theorem halt_pmask (S : State) (c : Cause) (k sl : Nat) (ax : AxisMask) (w : Work) :
    (halt S c k sl ax w).st.pmask = w.st.pmask := rfl
@[simp] theorem halt_settle (S : State) (c : Cause) (k sl : Nat) (ax : AxisMask) (w : Work) :
    (halt S c k sl ax w).st.settle = w.st.settle := rfl
@[simp] theorem halt_dirLat (S : State) (c : Cause) (k sl : Nat) (ax : AxisMask) (w : Work) :
    (halt S c k sl ax w).st.dirLat = w.st.dirLat := rfl
@[simp] theorem halt_extSel (S : State) (c : Cause) (k sl : Nat) (ax : AxisMask) (w : Work) :
    (halt S c k sl ax w).st.extSel = w.st.extSel := rfl
@[simp] theorem halt_pos (S : State) (c : Cause) (k sl : Nat) (ax : AxisMask) (w : Work) : (halt S c k sl ax w).st.pos = w.st.pos := rfl
@[simp] theorem halt_home (S : State) (c : Cause) (k sl : Nat) (ax : AxisMask) (w : Work) : (halt S c k sl ax w).st.home = w.st.home := rfl
@[simp] theorem halt_homed (S : State) (c : Cause) (k sl : Nat) (ax : AxisMask) (w : Work) : (halt S c k sl ax w).st.homed = 0#16 := rfl
@[simp] theorem halt_bsPending (S : State) (c : Cause) (k sl : Nat) (ax : AxisMask) (w : Work) :
    (halt S c k sl ax w).st.bsPending = PerAxis.update S.params w.st.bsPending (fun _ => 0#16) := rfl
@[simp] theorem halt_bs (S : State) (c : Cause) (k sl : Nat) (ax : AxisMask) (w : Work) :
    (halt S c k sl ax w).st.bs = (if S.babystepNotPulsed then { w.st.bs with busy := false } else w.st.bs) := rfl
@[simp] theorem halt_bsCount (S : State) (c : Cause) (k sl : Nat) (ax : AxisMask) (w : Work) :
    (halt S c k sl ax w).st.bsCount = w.st.bsCount := rfl
@[simp] theorem halt_irqStatus (S : State) (c : Cause) (k sl : Nat) (ax : AxisMask) (w : Work) :
    (halt S c k sl ax w).st.irqStatus = w.st.irqStatus := rfl
@[simp] theorem halt_irqEnable (S : State) (c : Cause) (k sl : Nat) (ax : AxisMask) (w : Work) :
    (halt S c k sl ax w).st.irqEnable = w.st.irqEnable := rfl
@[simp] theorem halt_errFlags (S : State) (c : Cause) (k sl : Nat) (ax : AxisMask) (w : Work) :
    (halt S c k sl ax w).st.errFlags = w.st.errFlags := rfl
@[simp] theorem halt_cfgStepInv (S : State) (c : Cause) (k sl : Nat) (ax : AxisMask) (w : Work) :
    (halt S c k sl ax w).st.cfgStepInv = w.st.cfgStepInv := rfl
@[simp] theorem halt_cfgDirInv (S : State) (c : Cause) (k sl : Nat) (ax : AxisMask) (w : Work) :
    (halt S c k sl ax w).st.cfgDirInv = w.st.cfgDirInv := rfl
@[simp] theorem halt_cfgEsEn (S : State) (c : Cause) (k sl : Nat) (ax : AxisMask) (w : Work) :
    (halt S c k sl ax w).st.cfgEsEn = w.st.cfgEsEn := rfl
@[simp] theorem halt_cfgEsDir (S : State) (c : Cause) (k sl : Nat) (ax : AxisMask) (w : Work) :
    (halt S c k sl ax w).st.cfgEsDir = w.st.cfgEsDir := rfl
@[simp] theorem halt_cfgEsInv (S : State) (c : Cause) (k sl : Nat) (ax : AxisMask) (w : Work) :
    (halt S c k sl ax w).st.cfgEsInv = w.st.cfgEsInv := rfl
@[simp] theorem halt_cfgPulseWidth (S : State) (c : Cause) (k sl : Nat) (ax : AxisMask) (w : Work) :
    (halt S c k sl ax w).st.cfgPulseWidth = w.st.cfgPulseWidth := rfl
@[simp] theorem halt_cfgDirSetup (S : State) (c : Cause) (k sl : Nat) (ax : AxisMask) (w : Work) :
    (halt S c k sl ax w).st.cfgDirSetup = w.st.cfgDirSetup := rfl
@[simp] theorem halt_cfgMinInterval (S : State) (c : Cause) (k sl : Nat) (ax : AxisMask) (w : Work) :
    (halt S c k sl ax w).st.cfgMinInterval = w.st.cfgMinInterval := rfl
@[simp] theorem halt_cfgMinRate (S : State) (c : Cause) (k sl : Nat) (ax : AxisMask) (w : Work) :
    (halt S c k sl ax w).st.cfgMinRate = w.st.cfgMinRate := rfl
@[simp] theorem halt_busRdata (S : State) (c : Cause) (k sl : Nat) (ax : AxisMask) (w : Work) :
    (halt S c k sl ax w).st.busRdata = w.st.busRdata := rfl
@[simp] theorem halt_pins (S : State) (c : Cause) (k sl : Nat) (ax : AxisMask) (w : Work) : (halt S c k sl ax w).st.pins = w.st.pins := rfl
@[simp] theorem halt_host (S : State) (c : Cause) (k sl : Nat) (ax : AxisMask) (w : Work) : (halt S c k sl ax w).st.host = w.st.host := rfl
@[simp] theorem halt_cycle (S : State) (c : Cause) (k sl : Nat) (ax : AxisMask) (w : Work) :
    (halt S c k sl ax w).st.cycle = w.st.cycle := rfl
@[simp] theorem halt_ev (S : State) (c : Cause) (k sl : Nat) (ax : AxisMask) (w : Work) : (halt S c k sl ax w).ev = (if S.eng = .halted then w.ev else w.ev ||| evHalt) := rfl

/-! ### `leaveHalt` -/

@[simp] theorem leaveHalt_params (w : Work) : (leaveHalt w).st.params = w.st.params := rfl
@[simp] theorem leaveHalt_eng (w : Work) : (leaveHalt w).st.eng = .idle := rfl
@[simp] theorem leaveHalt_phase (w : Work) : (leaveHalt w).st.phase = w.st.phase := rfl
@[simp] theorem leaveHalt_stopping (w : Work) : (leaveHalt w).st.stopping = w.st.stopping := rfl
@[simp] theorem leaveHalt_head (w : Work) : (leaveHalt w).st.head = w.st.head := rfl
@[simp] theorem leaveHalt_tail (w : Work) : (leaveHalt w).st.tail = w.st.tail := rfl
@[simp] theorem leaveHalt_fault (w : Work) : (leaveHalt w).st.fault = { cause := .none, check := 0#4, slot := 0#6, axes := 0#16 } := rfl
@[simp] theorem leaveHalt_cmdres (w : Work) : (leaveHalt w).st.cmdres = w.st.cmdres := rfl
@[simp] theorem leaveHalt_mem (w : Work) : (leaveHalt w).st.mem = w.st.mem := rfl
@[simp] theorem leaveHalt_stepIndex (w : Work) : (leaveHalt w).st.stepIndex = w.st.stepIndex := rfl
@[simp] theorem leaveHalt_errTerm (w : Work) : (leaveHalt w).st.errTerm = w.st.errTerm := rfl
@[simp] theorem leaveHalt_rate (w : Work) : (leaveHalt w).st.rate = w.st.rate := rfl
@[simp] theorem leaveHalt_rem (w : Work) : (leaveHalt w).st.rem = w.st.rem := rfl
@[simp] theorem leaveHalt_interval (w : Work) : (leaveHalt w).st.interval = w.st.interval := rfl
@[simp] theorem leaveHalt_cd (w : Work) : (leaveHalt w).st.cd = w.st.cd := rfl
@[simp] theorem leaveHalt_pt (w : Work) : (leaveHalt w).st.pt = w.st.pt := rfl
@[simp] theorem leaveHalt_pmask (w : Work) : (leaveHalt w).st.pmask = w.st.pmask := rfl
@[simp] theorem leaveHalt_settle (w : Work) : (leaveHalt w).st.settle = w.st.settle := rfl
@[simp] theorem leaveHalt_dirLat (w : Work) : (leaveHalt w).st.dirLat = w.st.dirLat := rfl
@[simp] theorem leaveHalt_extSel (w : Work) : (leaveHalt w).st.extSel = w.st.extSel := rfl
@[simp] theorem leaveHalt_pos (w : Work) : (leaveHalt w).st.pos = w.st.pos := rfl
@[simp] theorem leaveHalt_home (w : Work) : (leaveHalt w).st.home = w.st.home := rfl
@[simp] theorem leaveHalt_homed (w : Work) : (leaveHalt w).st.homed = w.st.homed := rfl
@[simp] theorem leaveHalt_bsPending (w : Work) : (leaveHalt w).st.bsPending = w.st.bsPending := rfl
@[simp] theorem leaveHalt_bs (w : Work) : (leaveHalt w).st.bs = w.st.bs := rfl
@[simp] theorem leaveHalt_bsCount (w : Work) : (leaveHalt w).st.bsCount = w.st.bsCount := rfl
@[simp] theorem leaveHalt_irqStatus (w : Work) : (leaveHalt w).st.irqStatus = w.st.irqStatus := rfl
@[simp] theorem leaveHalt_irqEnable (w : Work) : (leaveHalt w).st.irqEnable = w.st.irqEnable := rfl
@[simp] theorem leaveHalt_errFlags (w : Work) : (leaveHalt w).st.errFlags = w.st.errFlags := rfl
@[simp] theorem leaveHalt_cfgStepInv (w : Work) : (leaveHalt w).st.cfgStepInv = w.st.cfgStepInv := rfl
@[simp] theorem leaveHalt_cfgDirInv (w : Work) : (leaveHalt w).st.cfgDirInv = w.st.cfgDirInv := rfl
@[simp] theorem leaveHalt_cfgEsEn (w : Work) : (leaveHalt w).st.cfgEsEn = w.st.cfgEsEn := rfl
@[simp] theorem leaveHalt_cfgEsDir (w : Work) : (leaveHalt w).st.cfgEsDir = w.st.cfgEsDir := rfl
@[simp] theorem leaveHalt_cfgEsInv (w : Work) : (leaveHalt w).st.cfgEsInv = w.st.cfgEsInv := rfl
@[simp] theorem leaveHalt_cfgPulseWidth (w : Work) : (leaveHalt w).st.cfgPulseWidth = w.st.cfgPulseWidth := rfl
@[simp] theorem leaveHalt_cfgDirSetup (w : Work) : (leaveHalt w).st.cfgDirSetup = w.st.cfgDirSetup := rfl
@[simp] theorem leaveHalt_cfgMinInterval (w : Work) : (leaveHalt w).st.cfgMinInterval = w.st.cfgMinInterval := rfl
@[simp] theorem leaveHalt_cfgMinRate (w : Work) : (leaveHalt w).st.cfgMinRate = w.st.cfgMinRate := rfl
@[simp] theorem leaveHalt_busRdata (w : Work) : (leaveHalt w).st.busRdata = w.st.busRdata := rfl
@[simp] theorem leaveHalt_pins (w : Work) : (leaveHalt w).st.pins = w.st.pins := rfl
@[simp] theorem leaveHalt_host (w : Work) : (leaveHalt w).st.host = w.st.host := rfl
@[simp] theorem leaveHalt_cycle (w : Work) : (leaveHalt w).st.cycle = w.st.cycle := rfl
@[simp] theorem leaveHalt_ev (w : Work) : (leaveHalt w).ev = w.ev := rfl

/-! ### `retire` -/

@[simp] theorem retire_params (S : State) (w : Work) : (retire S w).st.params = w.st.params := rfl
@[simp] theorem retire_eng (S : State) (w : Work) : (retire S w).st.eng = .idle := rfl
@[simp] theorem retire_phase (S : State) (w : Work) : (retire S w).st.phase = .none := rfl
@[simp] theorem retire_stopping (S : State) (w : Work) : (retire S w).st.stopping = w.st.stopping := rfl
@[simp] theorem retire_head (S : State) (w : Work) : (retire S w).st.head = nextIndex S.params S.head := rfl
@[simp] theorem retire_tail (S : State) (w : Work) : (retire S w).st.tail = w.st.tail := rfl
@[simp] theorem retire_fault (S : State) (w : Work) : (retire S w).st.fault = w.st.fault := rfl
@[simp] theorem retire_cmdres (S : State) (w : Work) : (retire S w).st.cmdres = w.st.cmdres := rfl
@[simp] theorem retire_mem (S : State) (w : Work) : (retire S w).st.mem = w.st.mem := rfl
@[simp] theorem retire_stepIndex (S : State) (w : Work) : (retire S w).st.stepIndex = w.st.stepIndex := rfl
@[simp] theorem retire_errTerm (S : State) (w : Work) : (retire S w).st.errTerm = w.st.errTerm := rfl
@[simp] theorem retire_rate (S : State) (w : Work) : (retire S w).st.rate = w.st.rate := rfl
@[simp] theorem retire_rem (S : State) (w : Work) : (retire S w).st.rem = w.st.rem := rfl
@[simp] theorem retire_interval (S : State) (w : Work) : (retire S w).st.interval = w.st.interval := rfl
@[simp] theorem retire_cd (S : State) (w : Work) : (retire S w).st.cd = 0#32 := rfl
@[simp] theorem retire_pt (S : State) (w : Work) : (retire S w).st.pt = w.st.pt := rfl
@[simp] theorem retire_pmask (S : State) (w : Work) : (retire S w).st.pmask = w.st.pmask := rfl
@[simp] theorem retire_settle (S : State) (w : Work) : (retire S w).st.settle = w.st.settle := rfl
@[simp] theorem retire_dirLat (S : State) (w : Work) : (retire S w).st.dirLat = w.st.dirLat := rfl
@[simp] theorem retire_extSel (S : State) (w : Work) : (retire S w).st.extSel = w.st.extSel := rfl
@[simp] theorem retire_pos (S : State) (w : Work) : (retire S w).st.pos = w.st.pos := rfl
@[simp] theorem retire_home (S : State) (w : Work) : (retire S w).st.home = w.st.home := rfl
@[simp] theorem retire_homed (S : State) (w : Work) : (retire S w).st.homed = w.st.homed := rfl
@[simp] theorem retire_bsPending (S : State) (w : Work) : (retire S w).st.bsPending = w.st.bsPending := rfl
@[simp] theorem retire_bs (S : State) (w : Work) : (retire S w).st.bs = w.st.bs := rfl
@[simp] theorem retire_bsCount (S : State) (w : Work) : (retire S w).st.bsCount = w.st.bsCount := rfl
@[simp] theorem retire_irqStatus (S : State) (w : Work) : (retire S w).st.irqStatus = w.st.irqStatus := rfl
@[simp] theorem retire_irqEnable (S : State) (w : Work) : (retire S w).st.irqEnable = w.st.irqEnable := rfl
@[simp] theorem retire_errFlags (S : State) (w : Work) : (retire S w).st.errFlags = w.st.errFlags := rfl
@[simp] theorem retire_cfgStepInv (S : State) (w : Work) : (retire S w).st.cfgStepInv = w.st.cfgStepInv := rfl
@[simp] theorem retire_cfgDirInv (S : State) (w : Work) : (retire S w).st.cfgDirInv = w.st.cfgDirInv := rfl
@[simp] theorem retire_cfgEsEn (S : State) (w : Work) : (retire S w).st.cfgEsEn = w.st.cfgEsEn := rfl
@[simp] theorem retire_cfgEsDir (S : State) (w : Work) : (retire S w).st.cfgEsDir = w.st.cfgEsDir := rfl
@[simp] theorem retire_cfgEsInv (S : State) (w : Work) : (retire S w).st.cfgEsInv = w.st.cfgEsInv := rfl
@[simp] theorem retire_cfgPulseWidth (S : State) (w : Work) : (retire S w).st.cfgPulseWidth = w.st.cfgPulseWidth := rfl
@[simp] theorem retire_cfgDirSetup (S : State) (w : Work) : (retire S w).st.cfgDirSetup = w.st.cfgDirSetup := rfl
@[simp] theorem retire_cfgMinInterval (S : State) (w : Work) : (retire S w).st.cfgMinInterval = w.st.cfgMinInterval := rfl
@[simp] theorem retire_cfgMinRate (S : State) (w : Work) : (retire S w).st.cfgMinRate = w.st.cfgMinRate := rfl
@[simp] theorem retire_busRdata (S : State) (w : Work) : (retire S w).st.busRdata = w.st.busRdata := rfl
@[simp] theorem retire_pins (S : State) (w : Work) : (retire S w).st.pins = w.st.pins := rfl
@[simp] theorem retire_host (S : State) (w : Work) : (retire S w).st.host = w.st.host := rfl
@[simp] theorem retire_cycle (S : State) (w : Work) : (retire S w).st.cycle = w.st.cycle := rfl
@[simp] theorem retire_ev (S : State) (w : Work) : (retire S w).ev = w.ev ||| evBlockDone := rfl

/-! ### `finishStop` -/

@[simp] theorem finishStop_params (S : State) (w : Work) : (finishStop S w).st.params = w.st.params := rfl
@[simp] theorem finishStop_eng (S : State) (w : Work) : (finishStop S w).st.eng = .idle := rfl
@[simp] theorem finishStop_phase (S : State) (w : Work) : (finishStop S w).st.phase = .none := rfl
@[simp] theorem finishStop_stopping (S : State) (w : Work) : (finishStop S w).st.stopping = false := rfl
@[simp] theorem finishStop_head (S : State) (w : Work) : (finishStop S w).st.head = S.tail := rfl
@[simp] theorem finishStop_tail (S : State) (w : Work) : (finishStop S w).st.tail = w.st.tail := rfl
@[simp] theorem finishStop_fault (S : State) (w : Work) : (finishStop S w).st.fault = w.st.fault := rfl
@[simp] theorem finishStop_cmdres (S : State) (w : Work) : (finishStop S w).st.cmdres = w.st.cmdres := rfl
@[simp] theorem finishStop_mem (S : State) (w : Work) : (finishStop S w).st.mem = w.st.mem := rfl
@[simp] theorem finishStop_stepIndex (S : State) (w : Work) : (finishStop S w).st.stepIndex = w.st.stepIndex := rfl
@[simp] theorem finishStop_errTerm (S : State) (w : Work) : (finishStop S w).st.errTerm = w.st.errTerm := rfl
@[simp] theorem finishStop_rate (S : State) (w : Work) : (finishStop S w).st.rate = 0#32 := rfl
@[simp] theorem finishStop_rem (S : State) (w : Work) : (finishStop S w).st.rem = 0#32 := rfl
@[simp] theorem finishStop_interval (S : State) (w : Work) : (finishStop S w).st.interval = w.st.interval := rfl
@[simp] theorem finishStop_cd (S : State) (w : Work) : (finishStop S w).st.cd = 0#32 := rfl
@[simp] theorem finishStop_pt (S : State) (w : Work) : (finishStop S w).st.pt = w.st.pt := rfl
@[simp] theorem finishStop_pmask (S : State) (w : Work) : (finishStop S w).st.pmask = w.st.pmask := rfl
@[simp] theorem finishStop_settle (S : State) (w : Work) : (finishStop S w).st.settle = w.st.settle := rfl
@[simp] theorem finishStop_dirLat (S : State) (w : Work) : (finishStop S w).st.dirLat = w.st.dirLat := rfl
@[simp] theorem finishStop_extSel (S : State) (w : Work) : (finishStop S w).st.extSel = w.st.extSel := rfl
@[simp] theorem finishStop_pos (S : State) (w : Work) : (finishStop S w).st.pos = w.st.pos := rfl
@[simp] theorem finishStop_home (S : State) (w : Work) : (finishStop S w).st.home = w.st.home := rfl
@[simp] theorem finishStop_homed (S : State) (w : Work) : (finishStop S w).st.homed = w.st.homed := rfl
@[simp] theorem finishStop_bsPending (S : State) (w : Work) : (finishStop S w).st.bsPending = w.st.bsPending := rfl
@[simp] theorem finishStop_bs (S : State) (w : Work) : (finishStop S w).st.bs = w.st.bs := rfl
@[simp] theorem finishStop_bsCount (S : State) (w : Work) : (finishStop S w).st.bsCount = w.st.bsCount := rfl
@[simp] theorem finishStop_irqStatus (S : State) (w : Work) : (finishStop S w).st.irqStatus = w.st.irqStatus := rfl
@[simp] theorem finishStop_irqEnable (S : State) (w : Work) : (finishStop S w).st.irqEnable = w.st.irqEnable := rfl
@[simp] theorem finishStop_errFlags (S : State) (w : Work) : (finishStop S w).st.errFlags = w.st.errFlags := rfl
@[simp] theorem finishStop_cfgStepInv (S : State) (w : Work) : (finishStop S w).st.cfgStepInv = w.st.cfgStepInv := rfl
@[simp] theorem finishStop_cfgDirInv (S : State) (w : Work) : (finishStop S w).st.cfgDirInv = w.st.cfgDirInv := rfl
@[simp] theorem finishStop_cfgEsEn (S : State) (w : Work) : (finishStop S w).st.cfgEsEn = w.st.cfgEsEn := rfl
@[simp] theorem finishStop_cfgEsDir (S : State) (w : Work) : (finishStop S w).st.cfgEsDir = w.st.cfgEsDir := rfl
@[simp] theorem finishStop_cfgEsInv (S : State) (w : Work) : (finishStop S w).st.cfgEsInv = w.st.cfgEsInv := rfl
@[simp] theorem finishStop_cfgPulseWidth (S : State) (w : Work) : (finishStop S w).st.cfgPulseWidth = w.st.cfgPulseWidth := rfl
@[simp] theorem finishStop_cfgDirSetup (S : State) (w : Work) : (finishStop S w).st.cfgDirSetup = w.st.cfgDirSetup := rfl
@[simp] theorem finishStop_cfgMinInterval (S : State) (w : Work) : (finishStop S w).st.cfgMinInterval = w.st.cfgMinInterval := rfl
@[simp] theorem finishStop_cfgMinRate (S : State) (w : Work) : (finishStop S w).st.cfgMinRate = w.st.cfgMinRate := rfl
@[simp] theorem finishStop_busRdata (S : State) (w : Work) : (finishStop S w).st.busRdata = w.st.busRdata := rfl
@[simp] theorem finishStop_pins (S : State) (w : Work) : (finishStop S w).st.pins = w.st.pins := rfl
@[simp] theorem finishStop_host (S : State) (w : Work) : (finishStop S w).st.host = w.st.host := rfl
@[simp] theorem finishStop_cycle (S : State) (w : Work) : (finishStop S w).st.cycle = w.st.cycle := rfl
@[simp] theorem finishStop_ev (S : State) (w : Work) : (finishStop S w).ev = w.ev ||| evQstopDone := rfl

/-! ### `claim` -/

@[simp] theorem claim_params (S : State) (b : Block) (chg : Bool) (w : Work) : (claim S b chg w).st.params = w.st.params := rfl
@[simp] theorem claim_eng (S : State) (b : Block) (chg : Bool) (w : Work) : (claim S b chg w).st.eng = .run := rfl
@[simp] theorem claim_phase (S : State) (b : Block) (chg : Bool) (w : Work) : (claim S b chg w).st.phase = phaseOf 0 b := rfl
@[simp] theorem claim_stopping (S : State) (b : Block) (chg : Bool) (w : Work) : (claim S b chg w).st.stopping = w.st.stopping := rfl
@[simp] theorem claim_head (S : State) (b : Block) (chg : Bool) (w : Work) : (claim S b chg w).st.head = w.st.head := rfl
@[simp] theorem claim_tail (S : State) (b : Block) (chg : Bool) (w : Work) : (claim S b chg w).st.tail = w.st.tail := rfl
@[simp] theorem claim_fault (S : State) (b : Block) (chg : Bool) (w : Work) : (claim S b chg w).st.fault = w.st.fault := rfl
@[simp] theorem claim_cmdres (S : State) (b : Block) (chg : Bool) (w : Work) : (claim S b chg w).st.cmdres = w.st.cmdres := rfl
@[simp] theorem claim_mem (S : State) (b : Block) (chg : Bool) (w : Work) : (claim S b chg w).st.mem = w.st.mem := rfl
@[simp] theorem claim_stepIndex (S : State) (b : Block) (chg : Bool) (w : Work) : (claim S b chg w).st.stepIndex = 0#32 := rfl
@[simp] theorem claim_errTerm (S : State) (b : Block) (chg : Bool) (w : Work) :
    (claim S b chg w).st.errTerm =
      PerAxis.update S.params w.st.errTerm (fun _ => BitVec.ofNat 32 (b.dominant S.params - b.dominant S.params / 2)) := rfl
@[simp] theorem claim_rate (S : State) (b : Block) (chg : Bool) (w : Work) : (claim S b chg w).st.rate = BitVec.ofNat 32 b.initial := rfl
@[simp] theorem claim_rem (S : State) (b : Block) (chg : Bool) (w : Work) : (claim S b chg w).st.rem = 0#32 := rfl
@[simp] theorem claim_interval (S : State) (b : Block) (chg : Bool) (w : Work) :
    (claim S b chg w).st.interval = BitVec.ofNat 32 (ivl S b.initial) := rfl
@[simp] theorem claim_cd (S : State) (b : Block) (chg : Bool) (w : Work) :
    (claim S b chg w).st.cd = BitVec.ofNat 32 (max (ivl S b.initial) (if chg then S.cfgDirSetup.toNat else 0)) := rfl
@[simp] theorem claim_pt (S : State) (b : Block) (chg : Bool) (w : Work) : (claim S b chg w).st.pt = w.st.pt := rfl
@[simp] theorem claim_pmask (S : State) (b : Block) (chg : Bool) (w : Work) : (claim S b chg w).st.pmask = w.st.pmask := rfl
@[simp] theorem claim_settle (S : State) (b : Block) (chg : Bool) (w : Work) :
    (claim S b chg w).st.settle = (if chg then S.cfgDirSetup else w.st.settle) := rfl
@[simp] theorem claim_dirLat (S : State) (b : Block) (chg : Bool) (w : Work) :
    (claim S b chg w).st.dirLat = latchDirections S.params b w.st.dirLat := rfl
@[simp] theorem claim_extSel (S : State) (b : Block) (chg : Bool) (w : Work) :
    (claim S b chg w).st.extSel = (if 1 ≤ S.params.NE then BitVec.ofNat 3 b.ext else w.st.extSel) := rfl
@[simp] theorem claim_pos (S : State) (b : Block) (chg : Bool) (w : Work) : (claim S b chg w).st.pos = w.st.pos := rfl
@[simp] theorem claim_home (S : State) (b : Block) (chg : Bool) (w : Work) : (claim S b chg w).st.home = w.st.home := rfl
@[simp] theorem claim_homed (S : State) (b : Block) (chg : Bool) (w : Work) : (claim S b chg w).st.homed = w.st.homed := rfl
@[simp] theorem claim_bsPending (S : State) (b : Block) (chg : Bool) (w : Work) : (claim S b chg w).st.bsPending = w.st.bsPending := rfl
@[simp] theorem claim_bs (S : State) (b : Block) (chg : Bool) (w : Work) : (claim S b chg w).st.bs = w.st.bs := rfl
@[simp] theorem claim_bsCount (S : State) (b : Block) (chg : Bool) (w : Work) : (claim S b chg w).st.bsCount = w.st.bsCount := rfl
@[simp] theorem claim_irqStatus (S : State) (b : Block) (chg : Bool) (w : Work) : (claim S b chg w).st.irqStatus = w.st.irqStatus := rfl
@[simp] theorem claim_irqEnable (S : State) (b : Block) (chg : Bool) (w : Work) : (claim S b chg w).st.irqEnable = w.st.irqEnable := rfl
@[simp] theorem claim_errFlags (S : State) (b : Block) (chg : Bool) (w : Work) : (claim S b chg w).st.errFlags = w.st.errFlags := rfl
@[simp] theorem claim_cfgStepInv (S : State) (b : Block) (chg : Bool) (w : Work) : (claim S b chg w).st.cfgStepInv = w.st.cfgStepInv := rfl
@[simp] theorem claim_cfgDirInv (S : State) (b : Block) (chg : Bool) (w : Work) : (claim S b chg w).st.cfgDirInv = w.st.cfgDirInv := rfl
@[simp] theorem claim_cfgEsEn (S : State) (b : Block) (chg : Bool) (w : Work) : (claim S b chg w).st.cfgEsEn = w.st.cfgEsEn := rfl
@[simp] theorem claim_cfgEsDir (S : State) (b : Block) (chg : Bool) (w : Work) : (claim S b chg w).st.cfgEsDir = w.st.cfgEsDir := rfl
@[simp] theorem claim_cfgEsInv (S : State) (b : Block) (chg : Bool) (w : Work) : (claim S b chg w).st.cfgEsInv = w.st.cfgEsInv := rfl
@[simp] theorem claim_cfgPulseWidth (S : State) (b : Block) (chg : Bool) (w : Work) :
    (claim S b chg w).st.cfgPulseWidth = w.st.cfgPulseWidth := rfl
@[simp] theorem claim_cfgDirSetup (S : State) (b : Block) (chg : Bool) (w : Work) :
    (claim S b chg w).st.cfgDirSetup = w.st.cfgDirSetup := rfl
@[simp] theorem claim_cfgMinInterval (S : State) (b : Block) (chg : Bool) (w : Work) :
    (claim S b chg w).st.cfgMinInterval = w.st.cfgMinInterval := rfl
@[simp] theorem claim_cfgMinRate (S : State) (b : Block) (chg : Bool) (w : Work) : (claim S b chg w).st.cfgMinRate = w.st.cfgMinRate := rfl
@[simp] theorem claim_busRdata (S : State) (b : Block) (chg : Bool) (w : Work) : (claim S b chg w).st.busRdata = w.st.busRdata := rfl
@[simp] theorem claim_pins (S : State) (b : Block) (chg : Bool) (w : Work) : (claim S b chg w).st.pins = w.st.pins := rfl
@[simp] theorem claim_host (S : State) (b : Block) (chg : Bool) (w : Work) : (claim S b chg w).st.host = w.st.host := rfl
@[simp] theorem claim_cycle (S : State) (b : Block) (chg : Bool) (w : Work) : (claim S b chg w).st.cycle = w.st.cycle := rfl
@[simp] theorem claim_ev (S : State) (b : Block) (chg : Bool) (w : Work) : (claim S b chg w).ev = w.ev := rfl

/-! ### `emitStep` -/

@[simp] theorem emitStep_params (S : State) (b : Block) (w : Work) : (emitStep S b w).st.params = w.st.params := rfl
@[simp] theorem emitStep_eng (S : State) (b : Block) (w : Work) : (emitStep S b w).st.eng = w.st.eng := rfl
@[simp] theorem emitStep_phase (S : State) (b : Block) (w : Work) : (emitStep S b w).st.phase = w.st.phase := rfl
@[simp] theorem emitStep_stopping (S : State) (b : Block) (w : Work) : (emitStep S b w).st.stopping = w.st.stopping := rfl
@[simp] theorem emitStep_head (S : State) (b : Block) (w : Work) : (emitStep S b w).st.head = w.st.head := rfl
@[simp] theorem emitStep_tail (S : State) (b : Block) (w : Work) : (emitStep S b w).st.tail = w.st.tail := rfl
@[simp] theorem emitStep_fault (S : State) (b : Block) (w : Work) : (emitStep S b w).st.fault = w.st.fault := rfl
@[simp] theorem emitStep_cmdres (S : State) (b : Block) (w : Work) : (emitStep S b w).st.cmdres = w.st.cmdres := rfl
@[simp] theorem emitStep_mem (S : State) (b : Block) (w : Work) : (emitStep S b w).st.mem = w.st.mem := rfl
@[simp] theorem emitStep_stepIndex (S : State) (b : Block) (w : Work) : (emitStep S b w).st.stepIndex = S.stepIndex + 1#32 := rfl
@[simp] theorem emitStep_errTerm (S : State) (b : Block) (w : Work) :
    (emitStep S b w).st.errTerm =
      PerAxis.update S.params w.st.errTerm fun a => if pulses S b a then BitVec.ofNat 32 (bresenhamSum S b a - b.dominant S.params) else BitVec.ofNat 32 (bresenhamSum S b a) := rfl
@[simp] theorem emitStep_rate (S : State) (b : Block) (w : Work) : (emitStep S b w).st.rate = w.st.rate := rfl
@[simp] theorem emitStep_rem (S : State) (b : Block) (w : Work) : (emitStep S b w).st.rem = w.st.rem := rfl
@[simp] theorem emitStep_interval (S : State) (b : Block) (w : Work) : (emitStep S b w).st.interval = w.st.interval := rfl
@[simp] theorem emitStep_cd (S : State) (b : Block) (w : Work) : (emitStep S b w).st.cd = w.st.cd := rfl
@[simp] theorem emitStep_pt (S : State) (b : Block) (w : Work) : (emitStep S b w).st.pt = S.cfgPulseWidth := rfl
@[simp] theorem emitStep_pmask (S : State) (b : Block) (w : Work) :
    (emitStep S b w).st.pmask = channelMask S.params b.ext (pulses S b) := rfl
@[simp] theorem emitStep_settle (S : State) (b : Block) (w : Work) : (emitStep S b w).st.settle = w.st.settle := rfl
@[simp] theorem emitStep_dirLat (S : State) (b : Block) (w : Work) : (emitStep S b w).st.dirLat = w.st.dirLat := rfl
@[simp] theorem emitStep_extSel (S : State) (b : Block) (w : Work) : (emitStep S b w).st.extSel = w.st.extSel := rfl
@[simp] theorem emitStep_pos (S : State) (b : Block) (w : Work) :
    (emitStep S b w).st.pos =
      PerAxis.update S.params w.st.pos fun a => if pulses S b a then S.pos[a] + (if b.forward a then 1#32 else -1#32) else w.st.pos[a] := rfl
@[simp] theorem emitStep_home (S : State) (b : Block) (w : Work) : (emitStep S b w).st.home = w.st.home := rfl
@[simp] theorem emitStep_homed (S : State) (b : Block) (w : Work) : (emitStep S b w).st.homed = w.st.homed := rfl
@[simp] theorem emitStep_bsPending (S : State) (b : Block) (w : Work) : (emitStep S b w).st.bsPending = w.st.bsPending := rfl
@[simp] theorem emitStep_bs (S : State) (b : Block) (w : Work) : (emitStep S b w).st.bs = w.st.bs := rfl
@[simp] theorem emitStep_bsCount (S : State) (b : Block) (w : Work) : (emitStep S b w).st.bsCount = w.st.bsCount := rfl
@[simp] theorem emitStep_irqStatus (S : State) (b : Block) (w : Work) : (emitStep S b w).st.irqStatus = w.st.irqStatus := rfl
@[simp] theorem emitStep_irqEnable (S : State) (b : Block) (w : Work) : (emitStep S b w).st.irqEnable = w.st.irqEnable := rfl
@[simp] theorem emitStep_errFlags (S : State) (b : Block) (w : Work) : (emitStep S b w).st.errFlags = w.st.errFlags := rfl
@[simp] theorem emitStep_cfgStepInv (S : State) (b : Block) (w : Work) : (emitStep S b w).st.cfgStepInv = w.st.cfgStepInv := rfl
@[simp] theorem emitStep_cfgDirInv (S : State) (b : Block) (w : Work) : (emitStep S b w).st.cfgDirInv = w.st.cfgDirInv := rfl
@[simp] theorem emitStep_cfgEsEn (S : State) (b : Block) (w : Work) : (emitStep S b w).st.cfgEsEn = w.st.cfgEsEn := rfl
@[simp] theorem emitStep_cfgEsDir (S : State) (b : Block) (w : Work) : (emitStep S b w).st.cfgEsDir = w.st.cfgEsDir := rfl
@[simp] theorem emitStep_cfgEsInv (S : State) (b : Block) (w : Work) : (emitStep S b w).st.cfgEsInv = w.st.cfgEsInv := rfl
@[simp] theorem emitStep_cfgPulseWidth (S : State) (b : Block) (w : Work) : (emitStep S b w).st.cfgPulseWidth = w.st.cfgPulseWidth := rfl
@[simp] theorem emitStep_cfgDirSetup (S : State) (b : Block) (w : Work) : (emitStep S b w).st.cfgDirSetup = w.st.cfgDirSetup := rfl
@[simp] theorem emitStep_cfgMinInterval (S : State) (b : Block) (w : Work) : (emitStep S b w).st.cfgMinInterval = w.st.cfgMinInterval := rfl
@[simp] theorem emitStep_cfgMinRate (S : State) (b : Block) (w : Work) : (emitStep S b w).st.cfgMinRate = w.st.cfgMinRate := rfl
@[simp] theorem emitStep_busRdata (S : State) (b : Block) (w : Work) : (emitStep S b w).st.busRdata = w.st.busRdata := rfl
@[simp] theorem emitStep_pins (S : State) (b : Block) (w : Work) : (emitStep S b w).st.pins = w.st.pins := rfl
@[simp] theorem emitStep_host (S : State) (b : Block) (w : Work) : (emitStep S b w).st.host = w.st.host := rfl
@[simp] theorem emitStep_cycle (S : State) (b : Block) (w : Work) : (emitStep S b w).st.cycle = w.st.cycle := rfl
@[simp] theorem emitStep_ev (S : State) (b : Block) (w : Work) : (emitStep S b w).ev = w.ev := rfl

/-! ### `answer` -/

@[simp] theorem answer_params (op : Byte) (r : CommandResult) (w : Work) : (answer op r w).st.params = w.st.params := rfl
@[simp] theorem answer_eng (op : Byte) (r : CommandResult) (w : Work) : (answer op r w).st.eng = w.st.eng := rfl
@[simp] theorem answer_phase (op : Byte) (r : CommandResult) (w : Work) : (answer op r w).st.phase = w.st.phase := rfl
@[simp] theorem answer_stopping (op : Byte) (r : CommandResult) (w : Work) : (answer op r w).st.stopping = w.st.stopping := rfl
@[simp] theorem answer_head (op : Byte) (r : CommandResult) (w : Work) : (answer op r w).st.head = w.st.head := rfl
@[simp] theorem answer_tail (op : Byte) (r : CommandResult) (w : Work) : (answer op r w).st.tail = w.st.tail := rfl
@[simp] theorem answer_fault (op : Byte) (r : CommandResult) (w : Work) : (answer op r w).st.fault = w.st.fault := rfl
@[simp] theorem answer_cmdres (op : Byte) (r : CommandResult) (w : Work) : (answer op r w).st.cmdres = { result := r, opcode := op } := rfl
@[simp] theorem answer_mem (op : Byte) (r : CommandResult) (w : Work) : (answer op r w).st.mem = w.st.mem := rfl
@[simp] theorem answer_stepIndex (op : Byte) (r : CommandResult) (w : Work) : (answer op r w).st.stepIndex = w.st.stepIndex := rfl
@[simp] theorem answer_errTerm (op : Byte) (r : CommandResult) (w : Work) : (answer op r w).st.errTerm = w.st.errTerm := rfl
@[simp] theorem answer_rate (op : Byte) (r : CommandResult) (w : Work) : (answer op r w).st.rate = w.st.rate := rfl
@[simp] theorem answer_rem (op : Byte) (r : CommandResult) (w : Work) : (answer op r w).st.rem = w.st.rem := rfl
@[simp] theorem answer_interval (op : Byte) (r : CommandResult) (w : Work) : (answer op r w).st.interval = w.st.interval := rfl
@[simp] theorem answer_cd (op : Byte) (r : CommandResult) (w : Work) : (answer op r w).st.cd = w.st.cd := rfl
@[simp] theorem answer_pt (op : Byte) (r : CommandResult) (w : Work) : (answer op r w).st.pt = w.st.pt := rfl
@[simp] theorem answer_pmask (op : Byte) (r : CommandResult) (w : Work) : (answer op r w).st.pmask = w.st.pmask := rfl
@[simp] theorem answer_settle (op : Byte) (r : CommandResult) (w : Work) : (answer op r w).st.settle = w.st.settle := rfl
@[simp] theorem answer_dirLat (op : Byte) (r : CommandResult) (w : Work) : (answer op r w).st.dirLat = w.st.dirLat := rfl
@[simp] theorem answer_extSel (op : Byte) (r : CommandResult) (w : Work) : (answer op r w).st.extSel = w.st.extSel := rfl
@[simp] theorem answer_pos (op : Byte) (r : CommandResult) (w : Work) : (answer op r w).st.pos = w.st.pos := rfl
@[simp] theorem answer_home (op : Byte) (r : CommandResult) (w : Work) : (answer op r w).st.home = w.st.home := rfl
@[simp] theorem answer_homed (op : Byte) (r : CommandResult) (w : Work) : (answer op r w).st.homed = w.st.homed := rfl
@[simp] theorem answer_bsPending (op : Byte) (r : CommandResult) (w : Work) : (answer op r w).st.bsPending = w.st.bsPending := rfl
@[simp] theorem answer_bs (op : Byte) (r : CommandResult) (w : Work) : (answer op r w).st.bs = w.st.bs := rfl
@[simp] theorem answer_bsCount (op : Byte) (r : CommandResult) (w : Work) : (answer op r w).st.bsCount = w.st.bsCount := rfl
@[simp] theorem answer_irqStatus (op : Byte) (r : CommandResult) (w : Work) : (answer op r w).st.irqStatus = w.st.irqStatus := rfl
@[simp] theorem answer_irqEnable (op : Byte) (r : CommandResult) (w : Work) : (answer op r w).st.irqEnable = w.st.irqEnable := rfl
@[simp] theorem answer_errFlags (op : Byte) (r : CommandResult) (w : Work) : (answer op r w).st.errFlags = w.st.errFlags := rfl
@[simp] theorem answer_cfgStepInv (op : Byte) (r : CommandResult) (w : Work) : (answer op r w).st.cfgStepInv = w.st.cfgStepInv := rfl
@[simp] theorem answer_cfgDirInv (op : Byte) (r : CommandResult) (w : Work) : (answer op r w).st.cfgDirInv = w.st.cfgDirInv := rfl
@[simp] theorem answer_cfgEsEn (op : Byte) (r : CommandResult) (w : Work) : (answer op r w).st.cfgEsEn = w.st.cfgEsEn := rfl
@[simp] theorem answer_cfgEsDir (op : Byte) (r : CommandResult) (w : Work) : (answer op r w).st.cfgEsDir = w.st.cfgEsDir := rfl
@[simp] theorem answer_cfgEsInv (op : Byte) (r : CommandResult) (w : Work) : (answer op r w).st.cfgEsInv = w.st.cfgEsInv := rfl
@[simp] theorem answer_cfgPulseWidth (op : Byte) (r : CommandResult) (w : Work) :
    (answer op r w).st.cfgPulseWidth = w.st.cfgPulseWidth := rfl
@[simp] theorem answer_cfgDirSetup (op : Byte) (r : CommandResult) (w : Work) : (answer op r w).st.cfgDirSetup = w.st.cfgDirSetup := rfl
@[simp] theorem answer_cfgMinInterval (op : Byte) (r : CommandResult) (w : Work) :
    (answer op r w).st.cfgMinInterval = w.st.cfgMinInterval := rfl
@[simp] theorem answer_cfgMinRate (op : Byte) (r : CommandResult) (w : Work) : (answer op r w).st.cfgMinRate = w.st.cfgMinRate := rfl
@[simp] theorem answer_busRdata (op : Byte) (r : CommandResult) (w : Work) : (answer op r w).st.busRdata = w.st.busRdata := rfl
@[simp] theorem answer_pins (op : Byte) (r : CommandResult) (w : Work) : (answer op r w).st.pins = w.st.pins := rfl
@[simp] theorem answer_host (op : Byte) (r : CommandResult) (w : Work) : (answer op r w).st.host = w.st.host := rfl
@[simp] theorem answer_cycle (op : Byte) (r : CommandResult) (w : Work) : (answer op r w).st.cycle = w.st.cycle := rfl
@[simp] theorem answer_ev (op : Byte) (r : CommandResult) (w : Work) : (answer op r w).ev = w.ev := rfl

/-! ### `flagError` -/

@[simp] theorem flagError_params (bit : BitVec 3) (w : Work) : (flagError bit w).st.params = w.st.params := rfl
@[simp] theorem flagError_eng (bit : BitVec 3) (w : Work) : (flagError bit w).st.eng = w.st.eng := rfl
@[simp] theorem flagError_phase (bit : BitVec 3) (w : Work) : (flagError bit w).st.phase = w.st.phase := rfl
@[simp] theorem flagError_stopping (bit : BitVec 3) (w : Work) : (flagError bit w).st.stopping = w.st.stopping := rfl
@[simp] theorem flagError_head (bit : BitVec 3) (w : Work) : (flagError bit w).st.head = w.st.head := rfl
@[simp] theorem flagError_tail (bit : BitVec 3) (w : Work) : (flagError bit w).st.tail = w.st.tail := rfl
@[simp] theorem flagError_fault (bit : BitVec 3) (w : Work) : (flagError bit w).st.fault = w.st.fault := rfl
@[simp] theorem flagError_cmdres (bit : BitVec 3) (w : Work) : (flagError bit w).st.cmdres = w.st.cmdres := rfl
@[simp] theorem flagError_mem (bit : BitVec 3) (w : Work) : (flagError bit w).st.mem = w.st.mem := rfl
@[simp] theorem flagError_stepIndex (bit : BitVec 3) (w : Work) : (flagError bit w).st.stepIndex = w.st.stepIndex := rfl
@[simp] theorem flagError_errTerm (bit : BitVec 3) (w : Work) : (flagError bit w).st.errTerm = w.st.errTerm := rfl
@[simp] theorem flagError_rate (bit : BitVec 3) (w : Work) : (flagError bit w).st.rate = w.st.rate := rfl
@[simp] theorem flagError_rem (bit : BitVec 3) (w : Work) : (flagError bit w).st.rem = w.st.rem := rfl
@[simp] theorem flagError_interval (bit : BitVec 3) (w : Work) : (flagError bit w).st.interval = w.st.interval := rfl
@[simp] theorem flagError_cd (bit : BitVec 3) (w : Work) : (flagError bit w).st.cd = w.st.cd := rfl
@[simp] theorem flagError_pt (bit : BitVec 3) (w : Work) : (flagError bit w).st.pt = w.st.pt := rfl
@[simp] theorem flagError_pmask (bit : BitVec 3) (w : Work) : (flagError bit w).st.pmask = w.st.pmask := rfl
@[simp] theorem flagError_settle (bit : BitVec 3) (w : Work) : (flagError bit w).st.settle = w.st.settle := rfl
@[simp] theorem flagError_dirLat (bit : BitVec 3) (w : Work) : (flagError bit w).st.dirLat = w.st.dirLat := rfl
@[simp] theorem flagError_extSel (bit : BitVec 3) (w : Work) : (flagError bit w).st.extSel = w.st.extSel := rfl
@[simp] theorem flagError_pos (bit : BitVec 3) (w : Work) : (flagError bit w).st.pos = w.st.pos := rfl
@[simp] theorem flagError_home (bit : BitVec 3) (w : Work) : (flagError bit w).st.home = w.st.home := rfl
@[simp] theorem flagError_homed (bit : BitVec 3) (w : Work) : (flagError bit w).st.homed = w.st.homed := rfl
@[simp] theorem flagError_bsPending (bit : BitVec 3) (w : Work) : (flagError bit w).st.bsPending = w.st.bsPending := rfl
@[simp] theorem flagError_bs (bit : BitVec 3) (w : Work) : (flagError bit w).st.bs = w.st.bs := rfl
@[simp] theorem flagError_bsCount (bit : BitVec 3) (w : Work) : (flagError bit w).st.bsCount = w.st.bsCount := rfl
@[simp] theorem flagError_irqStatus (bit : BitVec 3) (w : Work) : (flagError bit w).st.irqStatus = w.st.irqStatus := rfl
@[simp] theorem flagError_irqEnable (bit : BitVec 3) (w : Work) : (flagError bit w).st.irqEnable = w.st.irqEnable := rfl
@[simp] theorem flagError_errFlags (bit : BitVec 3) (w : Work) : (flagError bit w).st.errFlags = w.st.errFlags ||| bit := rfl
@[simp] theorem flagError_cfgStepInv (bit : BitVec 3) (w : Work) : (flagError bit w).st.cfgStepInv = w.st.cfgStepInv := rfl
@[simp] theorem flagError_cfgDirInv (bit : BitVec 3) (w : Work) : (flagError bit w).st.cfgDirInv = w.st.cfgDirInv := rfl
@[simp] theorem flagError_cfgEsEn (bit : BitVec 3) (w : Work) : (flagError bit w).st.cfgEsEn = w.st.cfgEsEn := rfl
@[simp] theorem flagError_cfgEsDir (bit : BitVec 3) (w : Work) : (flagError bit w).st.cfgEsDir = w.st.cfgEsDir := rfl
@[simp] theorem flagError_cfgEsInv (bit : BitVec 3) (w : Work) : (flagError bit w).st.cfgEsInv = w.st.cfgEsInv := rfl
@[simp] theorem flagError_cfgPulseWidth (bit : BitVec 3) (w : Work) : (flagError bit w).st.cfgPulseWidth = w.st.cfgPulseWidth := rfl
@[simp] theorem flagError_cfgDirSetup (bit : BitVec 3) (w : Work) : (flagError bit w).st.cfgDirSetup = w.st.cfgDirSetup := rfl
@[simp] theorem flagError_cfgMinInterval (bit : BitVec 3) (w : Work) : (flagError bit w).st.cfgMinInterval = w.st.cfgMinInterval := rfl
@[simp] theorem flagError_cfgMinRate (bit : BitVec 3) (w : Work) : (flagError bit w).st.cfgMinRate = w.st.cfgMinRate := rfl
@[simp] theorem flagError_busRdata (bit : BitVec 3) (w : Work) : (flagError bit w).st.busRdata = w.st.busRdata := rfl
@[simp] theorem flagError_pins (bit : BitVec 3) (w : Work) : (flagError bit w).st.pins = w.st.pins := rfl
@[simp] theorem flagError_host (bit : BitVec 3) (w : Work) : (flagError bit w).st.host = w.st.host := rfl
@[simp] theorem flagError_cycle (bit : BitVec 3) (w : Work) : (flagError bit w).st.cycle = w.st.cycle := rfl
@[simp] theorem flagError_ev (bit : BitVec 3) (w : Work) : (flagError bit w).ev = w.ev := rfl

/-! ### `beginStop` -/

@[simp] theorem beginStop_params (w : Work) : (beginStop w).st.params = w.st.params := rfl
@[simp] theorem beginStop_eng (w : Work) : (beginStop w).st.eng = w.st.eng := rfl
@[simp] theorem beginStop_phase (w : Work) : (beginStop w).st.phase = .decel := rfl
@[simp] theorem beginStop_stopping (w : Work) : (beginStop w).st.stopping = true := rfl
@[simp] theorem beginStop_head (w : Work) : (beginStop w).st.head = w.st.head := rfl
@[simp] theorem beginStop_tail (w : Work) : (beginStop w).st.tail = w.st.tail := rfl
@[simp] theorem beginStop_fault (w : Work) : (beginStop w).st.fault = w.st.fault := rfl
@[simp] theorem beginStop_cmdres (w : Work) : (beginStop w).st.cmdres = w.st.cmdres := rfl
@[simp] theorem beginStop_mem (w : Work) : (beginStop w).st.mem = w.st.mem := rfl
@[simp] theorem beginStop_stepIndex (w : Work) : (beginStop w).st.stepIndex = w.st.stepIndex := rfl
@[simp] theorem beginStop_errTerm (w : Work) : (beginStop w).st.errTerm = w.st.errTerm := rfl
@[simp] theorem beginStop_rate (w : Work) : (beginStop w).st.rate = w.st.rate := rfl
@[simp] theorem beginStop_rem (w : Work) : (beginStop w).st.rem = (if w.st.phase = .decel then w.st.rem else 0#32) := rfl
@[simp] theorem beginStop_interval (w : Work) : (beginStop w).st.interval = w.st.interval := rfl
@[simp] theorem beginStop_cd (w : Work) : (beginStop w).st.cd = w.st.cd := rfl
@[simp] theorem beginStop_pt (w : Work) : (beginStop w).st.pt = w.st.pt := rfl
@[simp] theorem beginStop_pmask (w : Work) : (beginStop w).st.pmask = w.st.pmask := rfl
@[simp] theorem beginStop_settle (w : Work) : (beginStop w).st.settle = w.st.settle := rfl
@[simp] theorem beginStop_dirLat (w : Work) : (beginStop w).st.dirLat = w.st.dirLat := rfl
@[simp] theorem beginStop_extSel (w : Work) : (beginStop w).st.extSel = w.st.extSel := rfl
@[simp] theorem beginStop_pos (w : Work) : (beginStop w).st.pos = w.st.pos := rfl
@[simp] theorem beginStop_home (w : Work) : (beginStop w).st.home = w.st.home := rfl
@[simp] theorem beginStop_homed (w : Work) : (beginStop w).st.homed = w.st.homed := rfl
@[simp] theorem beginStop_bsPending (w : Work) : (beginStop w).st.bsPending = w.st.bsPending := rfl
@[simp] theorem beginStop_bs (w : Work) : (beginStop w).st.bs = w.st.bs := rfl
@[simp] theorem beginStop_bsCount (w : Work) : (beginStop w).st.bsCount = w.st.bsCount := rfl
@[simp] theorem beginStop_irqStatus (w : Work) : (beginStop w).st.irqStatus = w.st.irqStatus := rfl
@[simp] theorem beginStop_irqEnable (w : Work) : (beginStop w).st.irqEnable = w.st.irqEnable := rfl
@[simp] theorem beginStop_errFlags (w : Work) : (beginStop w).st.errFlags = w.st.errFlags := rfl
@[simp] theorem beginStop_cfgStepInv (w : Work) : (beginStop w).st.cfgStepInv = w.st.cfgStepInv := rfl
@[simp] theorem beginStop_cfgDirInv (w : Work) : (beginStop w).st.cfgDirInv = w.st.cfgDirInv := rfl
@[simp] theorem beginStop_cfgEsEn (w : Work) : (beginStop w).st.cfgEsEn = w.st.cfgEsEn := rfl
@[simp] theorem beginStop_cfgEsDir (w : Work) : (beginStop w).st.cfgEsDir = w.st.cfgEsDir := rfl
@[simp] theorem beginStop_cfgEsInv (w : Work) : (beginStop w).st.cfgEsInv = w.st.cfgEsInv := rfl
@[simp] theorem beginStop_cfgPulseWidth (w : Work) : (beginStop w).st.cfgPulseWidth = w.st.cfgPulseWidth := rfl
@[simp] theorem beginStop_cfgDirSetup (w : Work) : (beginStop w).st.cfgDirSetup = w.st.cfgDirSetup := rfl
@[simp] theorem beginStop_cfgMinInterval (w : Work) : (beginStop w).st.cfgMinInterval = w.st.cfgMinInterval := rfl
@[simp] theorem beginStop_cfgMinRate (w : Work) : (beginStop w).st.cfgMinRate = w.st.cfgMinRate := rfl
@[simp] theorem beginStop_busRdata (w : Work) : (beginStop w).st.busRdata = w.st.busRdata := rfl
@[simp] theorem beginStop_pins (w : Work) : (beginStop w).st.pins = w.st.pins := rfl
@[simp] theorem beginStop_host (w : Work) : (beginStop w).st.host = w.st.host := rfl
@[simp] theorem beginStop_cycle (w : Work) : (beginStop w).st.cycle = w.st.cycle := rfl
@[simp] theorem beginStop_ev (w : Work) : (beginStop w).ev = w.ev := rfl

end Sys2Proof.Machine
end

