-- ==== Sys2Proof/Laws/Queue.lean ====
section
/-! SUPPORT. The arithmetic of the segment buffer's indices (R26): what retire, PUSH and a flush do to the depth, and which slots the head
and the tail name. -/

namespace Sys2Proof.Machine

theorem capacity_cases (p : Params) : p.N = 2 ∨ p.N = 4 ∨ p.N = 8 ∨ p.N = 16 ∨ p.N = 32 ∨ p.N = 64 := by
  have h : ∀ l : Fin 6, 2 ^ (l.val + 1) = 2 ∨ 2 ^ (l.val + 1) = 4 ∨ 2 ^ (l.val + 1) = 8 ∨ 2 ^ (l.val + 1) = 16
      ∨ 2 ^ (l.val + 1) = 32 ∨ 2 ^ (l.val + 1) = 64 := by decide
  exact h p.log2nPred

theorem capacity_pos (p : Params) : 0 < p.N := by rcases capacity_cases p with h | h | h | h | h | h <;> omega

theorem axisCount_le (p : Params) : p.A ≤ 16 := by have := p.axesPred.isLt; simp only [Params.A]; omega

theorem axisCount_pos (p : Params) : 0 < p.A := by simp [Params.A]

theorem timer_pos (p : Params) : 0 < p.fTimer := by simp [Params.fTimer]

theorem timer_lt (p : Params) : p.fTimer < 4294967296 := by
  have := p.fTimerPred.isLt; simp only [Params.fTimer]; omega

theorem depth_lt (p : Params) (h t : QueueIndex) : depth p h t < 2 * p.N := by
  have := capacity_pos p
  exact Nat.mod_lt _ (by omega)

/-- A flush empties the queue. -/
@[simp] theorem depth_self (p : Params) (t : QueueIndex) : depth p t t = 0 := by simp [depth]

/-- A retire takes one block off the queue. -/
theorem depth_nextIndex_head (p : Params) (h t : QueueIndex) (hd : 1 ≤ depth p h t) :
    depth p (nextIndex p h) t = depth p h t - 1 := by
  have hh := h.isLt
  have ht := t.isLt
  simp only [depth, nextIndex, BitVec.toNat_sub, BitVec.toNat_ofNat] at *
  rcases capacity_cases p with e | e | e | e | e | e <;> simp only [e] at * <;> omega

/-- A PUSH adds one block to the queue. -/
theorem depth_nextIndex_tail (p : Params) (h t : QueueIndex) (hd : depth p h t + 1 < 2 * p.N) :
    depth p h (nextIndex p t) = depth p h t + 1 := by
  have hh := h.isLt
  have ht := t.isLt
  simp only [depth, nextIndex, BitVec.toNat_sub, BitVec.toNat_ofNat] at *
  rcases capacity_cases p with e | e | e | e | e | e <;> simp only [e] at * <;> omega

theorem slotOf_lt (p : Params) (i : QueueIndex) : slotOf p i < p.N := Nat.mod_lt _ (capacity_pos p)

theorem slotOf_lt_64 (p : Params) (i : QueueIndex) : slotOf p i < 64 := by
  have := slotOf_lt p i
  rcases capacity_cases p with h | h | h | h | h | h <;> omega

/-- The slot PUSH fills is not the head slot while the queue is neither empty nor full (R73). -/
theorem slotOf_tail_ne_head (p : Params) (h t : QueueIndex) (h1 : 1 ≤ depth p h t) (h2 : depth p h t < p.N) :
    slotOf p t ≠ slotOf p h := by
  have hh := h.isLt
  have ht := t.isLt
  simp only [depth, slotOf, BitVec.toNat_sub] at *
  rcases capacity_cases p with e | e | e | e | e | e <;> simp only [e] at * <;> omega

/-- A slot stands at offset 0 exactly when the head names it. -/
theorem slotOffset_eq_zero (p : Params) (sl : Nat) (h : QueueIndex) (hs : sl < p.N) :
    slotOffset p sl h = 0 ↔ sl = slotOf p h := by
  have hh := h.isLt
  simp only [slotOffset, slotOf, BitVec.toNat_sub, BitVec.toNat_ofNat]
  rcases capacity_cases p with e | e | e | e | e | e <;> simp only [e] at * <;> omega

theorem nextIndex_lt (p : Params) (i : QueueIndex) : (nextIndex p i).toNat < 2 * p.N := by
  simp only [nextIndex, BitVec.toNat_ofNat]
  rcases capacity_cases p with e | e | e | e | e | e <;> simp only [e] <;> omega

end Sys2Proof.Machine
end

