-- ==== Sys2Proof/Laws/Masks.lean ====
section
/-! SUPPORT. The values held per axis and the masks over axes and channels (R7, R8), bit by bit. -/

namespace Sys2Proof.Machine

/-! ### Per axis -/

@[simp] theorem update_get {α : Type} (p : Params) (v : PerAxis α) (f : Axis → α) (a : Axis) :
    (PerAxis.update p v f)[a] = if a.val < p.A then f a else v[a] := by
  simp [PerAxis.update]

theorem mem_axes (p : Params) (a : Axis) : a ∈ axes p ↔ a.val < p.A := by
  have h : ∀ a : Axis, a ∈ [(0 : Axis), 1, 2, 3, 4, 5, 6, 7, 8, 9, 10, 11, 12, 13, 14, 15] := by decide
  simp [axes, h a]

/-! ### Masks -/

/-- A bit of a mask collected over a list. -/
theorem getLsbD_collect {n : Nat} (l : List Axis) (f : Axis → Bool) (c : Axis → Nat) (m : BitVec n) (i : Nat) :
    (l.foldl (fun m a => if f a then m ||| (1#n <<< c a) else m) m).getLsbD i
      = (m.getLsbD i || (decide (i < n) && l.any fun a => f a && decide (c a = i))) := by
  induction l generalizing m with
  | nil => simp
  | cons a l ih =>
    rw [List.foldl_cons, ih, List.any_cons]
    by_cases hf : f a
    · simp only [hf, if_true, Bool.true_and, BitVec.getLsbD_or, BitVec.getLsbD_shiftLeft, BitVec.getLsbD_one]
      by_cases hn : i < n
      · rcases Nat.lt_trichotomy (c a) i with h | h | h
        · have h1 : ¬ i < c a := by omega
          have h2 : i - c a ≠ 0 := by omega
          have h3 : c a ≠ i := by omega
          simp [hn, h1, h2, h3]
        · subst h
          have : 0 < n := by omega
          simp [hn, this]
        · have h3 : c a ≠ i := by omega
          simp [hn, h, h3]
      · simp [hn]
    · simp [hf]

theorem getLsbD_axisMask (p : Params) (f : Axis → Bool) (a : Axis) :
    (axisMask p f).getLsbD a.val = (decide (a.val < p.A) && f a) := by
  have h := getLsbD_collect (axes p) f (fun b => b.val) 0#16 a.val
  simp only [axisMask, h, BitVec.getLsbD_zero, Bool.false_or, a.isLt, decide_true, Bool.true_and]
  rw [Bool.eq_iff_iff, List.any_eq_true]
  constructor
  · rintro ⟨b, hb, hfb⟩
    simp only [Bool.and_eq_true, decide_eq_true_eq] at hfb
    obtain rfl : b = a := Fin.ext hfb.2
    simp [(mem_axes p b).1 hb, hfb.1]
  · intro h
    simp only [Bool.and_eq_true, decide_eq_true_eq] at h
    exact ⟨a, (mem_axes p a).2 h.1, by simp [h.2]⟩

/-- Channel `i` is in the mask when an axis with `f` is routed to it. -/
theorem getLsbD_channelMask (p : Params) (e : Nat) (f : Axis → Bool) (i : Nat) :
    (channelMask p e f).getLsbD i = true ↔ i < 23 ∧ ∃ a : Axis, a.val < p.A ∧ f a = true ∧ channelOf p a.val e = i := by
  have h := getLsbD_collect (axes p) f (fun b => channelOf p b.val e) 0#23 i
  simp only [channelMask, h, BitVec.getLsbD_zero, Bool.false_or, Bool.and_eq_true, decide_eq_true_eq, List.any_eq_true]
  constructor
  · rintro ⟨hi, b, hb, hf, hc⟩
    exact ⟨hi, b, (mem_axes p b).1 hb, hf, hc⟩
  · rintro ⟨hi, b, hb, hf, hc⟩
    exact ⟨hi, b, (mem_axes p b).2 hb, hf, hc⟩

theorem getLsbD_onesBelow (w n i : Nat) : (BitVec.ofNat w (2 ^ n - 1)).getLsbD i = (decide (i < w) && decide (i < n)) := by
  simp [BitVec.getLsbD_ofNat, Nat.testBit_two_pow_sub_one]

theorem getLsbD_channelBits (p : Params) (i : Nat) :
    (channelBits p).getLsbD i = (decide (i < 23) && decide (i < channels p)) := getLsbD_onesBelow 23 (channels p) i

theorem getLsbD_axisBits (p : Params) (i : Nat) :
    (axisBits p).getLsbD i = (decide (i < 16) && decide (i < p.A)) := getLsbD_onesBelow 16 p.A i

/-- A mask of which a state has no bit outside the legal ones. -/
theorem and_eq_self_iff {n : Nat} (x m : BitVec n) : x &&& m = x ↔ ∀ i, x.getLsbD i = true → m.getLsbD i = true := by
  constructor
  · intro h i hi
    have h2 : (x &&& m).getLsbD i = true := by rw [h]; exact hi
    simp only [BitVec.getLsbD_and, Bool.and_eq_true] at h2
    exact h2.2
  · intro h
    apply BitVec.eq_of_getLsbD_eq
    intro i _
    rw [BitVec.getLsbD_and]
    cases hx : x.getLsbD i with
    | false => rfl
    | true => simp [h i hx]

/-! ### Channels -/

theorem extruders_le (p : Params) : p.NE ≤ 8 := by have := p.extruders.isLt; simp only [Params.NE]; omega

theorem channels_le (p : Params) : channels p ≤ 23 := by
  have := axisCount_le p; have := extruders_le p
  unfold channels; split <;> omega

/-- The channel of an axis of the part, under an extruder of the part, is a channel of the part (R7). -/
theorem channelOf_lt (p : Params) (a e : Nat) (ha : a < p.A) (he : 1 ≤ p.NE → e < p.NE) : channelOf p a e < channels p := by
  unfold channelOf channels
  split
  · rename_i h; rw [if_pos h.1]; have := he h.1; omega
  · rename_i h; split <;> omega

/-- Distinct axes have distinct channels (R7). -/
theorem channelOf_inj (p : Params) (a b e : Nat) (ha : a < p.A) (hb : b < p.A) (h : channelOf p a e = channelOf p b e) : a = b := by
  unfold channelOf at h
  split at h <;> split at h <;> omega

theorem channelMask_within (p : Params) (e : Nat) (f : Axis → Bool) (he : 1 ≤ p.NE → e < p.NE) :
    channelMask p e f &&& channelBits p = channelMask p e f := by
  rw [and_eq_self_iff]
  intro i hi
  obtain ⟨h23, a, ha, _, hc⟩ := (getLsbD_channelMask p e f i).1 hi
  have := channelOf_lt p a.val e ha he
  simp [getLsbD_channelBits, h23, show i < channels p by omega]

theorem axisMask_within (p : Params) (f : Axis → Bool) : axisMask p f &&& axisBits p = axisMask p f := by
  rw [and_eq_self_iff]
  intro i hi
  have hi16 : i < 16 := by
    by_contra hge
    rw [BitVec.getLsbD_of_ge _ _ (by omega)] at hi
    exact absurd hi (by decide)
  have h := getLsbD_axisMask p f ⟨i, hi16⟩
  simp only at h
  rw [h] at hi
  simp only [Bool.and_eq_true, decide_eq_true_eq] at hi
  simp [getLsbD_axisBits, hi16, hi.1]

end Sys2Proof.Machine
end

