-- ==== Sys2Proof/Laws/Blocks.lean ====
section
/-! SUPPORT. What is known of a block: what passing validation says (R116), the ranges of the decoded fields (R86), the range of an
interval (R112) and of the next rate and remainder (R140 to R145), and the Bresenham step on one axis (R135, R143). -/

namespace Sys2Proof.Machine

/-- A block that passes every check (R116). -/
structure Block.Valid (p : Params) (b : Block) : Prop where
  dom_lt    : b.dom < p.A
  dominant_pos : 1 ≤ b.dominant p
  steps_le  : ∀ a : Axis, a.val < p.A → b.steps[a] ≤ b.dominant p
  au_le     : b.au ≤ b.da
  da_le     : b.da ≤ b.dominant p
  ext_lt    : 1 ≤ p.NE → b.ext < p.NE

theorem validate_eq_zero (p : Params) (b : Block) : validate p b = 0 ↔ Block.Valid p b := by
  unfold validate
  split
  · rename_i h; exact ⟨fun e => absurd e (by decide), fun v => absurd v.dom_lt (by omega)⟩
  rename_i h1
  split
  · rename_i h; exact ⟨fun e => absurd e (by decide), fun v => absurd v.dominant_pos (by omega)⟩
  rename_i h2
  split
  · rename_i h
    obtain ⟨a, ha, hl⟩ := List.any_eq_true.1 h
    simp only [decide_eq_true_eq] at hl
    exact ⟨fun e => absurd e (by decide), fun v => absurd (v.steps_le a ((mem_axes p a).1 ha)) (by omega)⟩
  rename_i h3
  have h3' : ∀ a : Axis, a.val < p.A → b.steps[a] ≤ b.dominant p := by
    intro a ha
    by_contra hl
    exact h3 (List.any_eq_true.2 ⟨a, (mem_axes p a).2 ha, by simp only [decide_eq_true_eq]; omega⟩)
  split
  · rename_i h; exact ⟨fun e => absurd e (by decide), fun v => absurd v.au_le (by omega)⟩
  split
  · rename_i h; exact ⟨fun e => absurd e (by decide), fun v => absurd v.da_le (by omega)⟩
  split
  · rename_i h; exact ⟨fun e => absurd e (by decide), fun v => absurd (v.ext_lt h.1) (by omega)⟩
  rename_i h4 h5 h6
  exact ⟨fun _ => ⟨by omega, by omega, h3', by omega, by omega, fun h => by omega⟩, fun _ => rfl⟩

theorem validate_le (p : Params) (b : Block) : validate p b ≤ 6 := by unfold validate; repeat' (split <;> (try omega))

/-! ### Ranges of the decoded fields -/

theorem decodeBlock_steps_lt (p : Params) (m : Memory) (sl : Nat) (a : Axis) : (decodeBlock p m sl).steps[a] < 2 ^ 31 := by
  simp only [decodeBlock, Fin.getElem_fin, Vector.getElem_ofFn]
  exact BitVec.isLt _

theorem decodeBlock_dominant_lt (p : Params) (m : Memory) (sl : Nat) : (decodeBlock p m sl).dominant p < 2 ^ 31 := by
  unfold Block.dominant
  split
  · rename_i h
    split
    · exact decodeBlock_steps_lt p m sl ⟨_, h⟩
    · decide
  · decide

theorem decodeBlock_initial_lt (p : Params) (m : Memory) (sl : Nat) : (decodeBlock p m sl).initial < 2 ^ 32 := BitVec.isLt _

theorem decodeBlock_nominal_lt (p : Params) (m : Memory) (sl : Nat) : (decodeBlock p m sl).nominal < 2 ^ 32 := BitVec.isLt _

theorem decodeBlock_ext (p : Params) (m : Memory) (sl : Nat) : (decodeBlock p m sl).ext < 8 := by
  simp only [decodeBlock]
  split
  · exact BitVec.isLt _
  · decide

theorem decodeBlock_ext_zero (p : Params) (m : Memory) (sl : Nat) (h : p.NE = 0) : (decodeBlock p m sl).ext = 0 := by
  simp [decodeBlock, h]

/-- Two memories that agree on a slot's words give one block. -/
theorem decodeBlock_congr (p : Params) {m m' : Memory} {sl : Nat} (h : ∀ w, w < 32 → Memory.slot m sl w = Memory.slot m' sl w) :
    decodeBlock p m sl = decodeBlock p m' sl := by
  have hs : ∀ a : Axis, Memory.slot m sl (16 + a.val) = Memory.slot m' sl (16 + a.val) := fun a => h _ (by omega)
  simp only [decodeBlock, h 0 (by decide), h 1 (by decide), h 2 (by decide), h 3 (by decide), h 4 (by decide), h 5 (by decide),
    h 6 (by decide), hs]

/-! ### The interval function (R112) -/

theorem ivl_ge (S : State) (r : Nat) : S.cfgPulseWidth.toNat + 1 ≤ ivl S r := by
  have := S.cfgPulseWidth.isLt
  unfold ivl; omega

theorem ivl_le (S : State) (r : Nat) : ivl S r ≤ 2 ^ 32 - 1 := by unfold ivl; omega

theorem ivl_toNat (S : State) (r : Nat) : (BitVec.ofNat 32 (ivl S r)).toNat = ivl S r := by
  have := ivl_le S r
  rw [BitVec.toNat_ofNat]; omega

theorem ivl_congr {S S' : State} (h1 : S.params = S'.params) (h2 : S.cfgMinRate = S'.cfgMinRate)
    (h3 : S.cfgMinInterval = S'.cfgMinInterval) (h4 : S.cfgPulseWidth = S'.cfgPulseWidth) (r : Nat) : ivl S r = ivl S' r := by
  simp only [ivl, h1, h2, h3, h4]

/-! ### The rate update (R140 to R145) -/

theorem accelUpdate_range (S : State) (b : Block) :
    (accelUpdate S b).1 ≤ b.nominal ∧ (accelUpdate S b).2 < S.params.fTimer := by
  have ht := timer_pos S.params
  unfold accelUpdate
  simp only
  split
  · exact ⟨Nat.le_refl _, ht⟩
  · exact ⟨by simp only; omega, Nat.mod_lt _ ht⟩

theorem decelUpdate_range (S : State) (b : Block) (floor : Nat) :
    (decelUpdate S b floor).1 ≤ S.rate.toNat ∧ (decelUpdate S b floor).2 < S.params.fTimer := by
  have ht := timer_pos S.params
  unfold decelUpdate
  simp only
  split
  · exact ⟨Nat.min_le_left _ _, ht⟩
  · exact ⟨Nat.sub_le _ _, Nat.mod_lt _ ht⟩

theorem nextRate_lt (S : State) (b : Block) (ph : Phase) (hn : b.nominal < 2 ^ 32) : (nextRate S b ph).1 < 2 ^ 32 := by
  have := S.rate.isLt
  simp only [nextRate, rateUpdate]
  split
  · exact Nat.lt_of_le_of_lt (accelUpdate_range S b).1 hn
  · exact this
  · exact Nat.lt_of_le_of_lt (decelUpdate_range S b _).1 this
  · exact this

theorem nextRate_rem_lt (S : State) (b : Block) (ph : Phase) (h : S.rem.toNat < S.params.fTimer) :
    (nextRate S b ph).2 < S.params.fTimer := by
  have hu : ∀ floor, (rateUpdate S b floor).2 < S.params.fTimer := by
    intro floor
    unfold rateUpdate
    split
    · exact (accelUpdate_range S b).2
    · exact h
    · exact (decelUpdate_range S b floor).2
    · exact h
  simp only [nextRate]
  split
  · exact hu _
  · exact timer_pos S.params

/-! ### Bresenham on one axis -/

/-- An error term in `1..D` stays there (R135). -/
theorem bresenham_range (D c e : Nat) (hc : c ≤ D) (h1 : 1 ≤ e) (h2 : e ≤ D) :
    1 ≤ (if D < e + c then e + c - D else e + c) ∧ (if D < e + c then e + c - D else e + c) ≤ D := by
  split <;> omega

/-- The closed form of one event: the error term and the pulse count advance together (R143). -/
theorem bresenham_step (D x c : Nat) (hD : 1 ≤ D) (hc : c ≤ D) (hx : 1 ≤ x) :
    ((x + c - 1) % D + 1 = if D < (x - 1) % D + 1 + c then (x - 1) % D + 1 + c - D else (x - 1) % D + 1 + c)
      ∧ ((x + c - 1) / D = (x - 1) / D + if D < (x - 1) % D + 1 + c then 1 else 0) := by
  obtain ⟨y, rfl⟩ : ∃ y, x = y + 1 := ⟨x - 1, by omega⟩
  simp only [Nat.add_sub_cancel, show y + 1 + c - 1 = y + c by omega]
  have hr : y % D < D := Nat.mod_lt _ (by omega)
  have hy := Nat.div_add_mod y D
  generalize y % D = r at *
  generalize y / D = q at *
  have e : y + c = D * q + (r + c) := by omega
  rw [e, Nat.mul_add_mod, Nat.mul_add_div (by omega)]
  by_cases hl : D < r + 1 + c
  · rw [if_pos hl, if_pos hl]
    by_cases hle : r + c < 2 * D
    · have h1 : (r + c) % D = r + c - D := by rw [Nat.mod_eq_sub_mod (by omega), Nat.mod_eq_of_lt (by omega)]
      have h2 : (r + c) / D = 1 := by
        rw [Nat.div_eq_iff (by omega)]; omega
      rw [h1, h2]; omega
    · omega
  · rw [if_neg hl, if_neg hl, Nat.mod_eq_of_lt (by omega), Nat.div_eq_of_lt (by omega)]
    omega

end Sys2Proof.Machine
end

