-- ==== Sys2Proof/Laws/Memory.lean ====
section
/-! SUPPORT. What the memory operations do: a read after a write, the bytes a write leaves alone, and the canonical form, which every
operation keeps. -/

namespace Sys2Proof.Machine

/-! ### One byte -/

theorem listed_insert (m : Memory) (a : Nat) (v : Byte) (x : Nat) :
    Memory.listed (Memory.insert m a v) x = if x = a then some v else Memory.listed m x := by
  induction m with
  | nil => simp [Memory.insert, Memory.listed]
  | cons c m ih =>
    obtain ⟨b, w⟩ := c
    simp only [Memory.insert]
    split
    · simp [Memory.listed]
    · split
      · subst_vars; simp only [Memory.listed]; split <;> simp_all
      · simp only [Memory.listed, ih]
        split
        · rename_i h1 h2 h3; rw [if_neg (by omega)]
        · rfl

theorem listed_erase (m : Memory) (a x : Nat) :
    Memory.listed (Memory.erase m a) x = if x = a then none else Memory.listed m x := by
  induction m with
  | nil => simp [Memory.erase, Memory.listed]
  | cons c m ih =>
    obtain ⟨b, w⟩ := c
    simp only [Memory.erase, List.filter_cons] at ih ⊢
    by_cases hb : b = a
    · subst hb
      simp only [bne_self_eq_false, Bool.false_eq_true, if_false, ih, Memory.listed]
      split <;> rfl
    · simp only [bne_iff_ne, ne_eq, hb, not_false_eq_true, if_true, Memory.listed, ih]
      by_cases hx : x = b
      · subst hx; simp [hb]
      · simp [hx]

theorem stored_writeByte (m : Memory) (a : Nat) (v : Byte) (x : Nat) :
    Memory.stored (Memory.writeByte m a v) x = if x = a then some v else Memory.stored m x := by
  unfold Memory.writeByte Memory.stored
  split
  · rename_i h
    rw [listed_erase]
    by_cases hx : x = a
    · subst hx; simp [h]
    · simp [hx]
  · rw [listed_insert]
    by_cases hx : x = a
    · subst hx; simp
    · simp [hx]

theorem byteAt_writeByte (m : Memory) (a : Nat) (v : Byte) (x : Nat) :
    Memory.byteAt (Memory.writeByte m a v) x = if x = a then v else Memory.byteAt m x := by
  unfold Memory.byteAt
  rw [stored_writeByte]
  split <;> rfl

/-! ### One word -/

theorem byteAt_writeWord (m : Memory) (a : Nat) (v : Word) (x : Nat) :
    Memory.byteAt (Memory.writeWord m a v) x =
      if x = a + 3 then v.extractLsb' 24 8 else if x = a + 2 then v.extractLsb' 16 8
      else if x = a + 1 then v.extractLsb' 8 8 else if x = a then v.extractLsb' 0 8 else Memory.byteAt m x := by
  simp only [Memory.writeWord, byteAt_writeByte]

theorem byteAt_writeWord_of_outside (m : Memory) (a : Nat) (v : Word) (x : Nat) (h : x < a ∨ a + 4 ≤ x) :
    Memory.byteAt (Memory.writeWord m a v) x = Memory.byteAt m x := by
  rw [byteAt_writeWord, if_neg (by omega), if_neg (by omega), if_neg (by omega), if_neg (by omega)]

theorem word_of_bytes (v : Word) :
    v.extractLsb' 24 8 ++ v.extractLsb' 16 8 ++ v.extractLsb' 8 8 ++ v.extractLsb' 0 8 = v := by
  ext i hi
  simp only [BitVec.getElem_append, BitVec.getElem_extractLsb']
  split
  · simp [BitVec.getLsbD_eq_getElem hi]
  · split
    · rw [← BitVec.getLsbD_eq_getElem hi]; congr 1; omega
    · split
      · rw [← BitVec.getLsbD_eq_getElem hi]; congr 1; omega
      · rw [← BitVec.getLsbD_eq_getElem hi]; congr 1; omega

theorem readWord_writeWord_same (m : Memory) (a : Nat) (v : Word) :
    Memory.readWord (Memory.writeWord m a v) a = v := by
  have h := word_of_bytes v
  simp only [Memory.readWord, byteAt_writeWord]
  simpa using h

/-- A read depends only on the four bytes of its word. -/
theorem readWord_congr {m m' : Memory} {a : Nat} (h : ∀ x, a ≤ x → x < a + 4 → Memory.byteAt m x = Memory.byteAt m' x) :
    Memory.readWord m a = Memory.readWord m' a := by
  simp only [Memory.readWord]
  rw [h (a + 3) (by omega) (by omega), h (a + 2) (by omega) (by omega), h (a + 1) (by omega) (by omega),
    h a (by omega) (by omega)]

theorem readWord_writeWord_of_disjoint (m : Memory) (a x : Nat) (v : Word) (h : x + 4 ≤ a ∨ a + 4 ≤ x) :
    Memory.readWord (Memory.writeWord m a v) x = Memory.readWord m x :=
  readWord_congr fun y _ _ => byteAt_writeWord_of_outside m a v y (by omega)

/-! ### Several words -/

theorem byteAt_writeWords_of_outside (vs : List Word) (m : Memory) (a x : Nat) (h : x < a ∨ a + 4 * vs.length ≤ x) :
    Memory.byteAt (Memory.writeWords m a vs) x = Memory.byteAt m x := by
  induction vs generalizing m a with
  | nil => rfl
  | cons v vs ih =>
    simp only [List.length_cons] at h
    rw [Memory.writeWords, ih _ _ (by omega), byteAt_writeWord_of_outside _ _ _ _ (by omega)]

theorem readWord_writeWords (vs : List Word) (m : Memory) (a i : Nat) (h : i < vs.length) :
    Memory.readWord (Memory.writeWords m a vs) (a + 4 * i) = vs[i] := by
  induction vs generalizing m a i with
  | nil => simp at h
  | cons v vs ih =>
    rw [Memory.writeWords]
    cases i with
    | zero =>
      have hout : Memory.readWord (Memory.writeWords (Memory.writeWord m a v) (a + 4) vs) a
          = Memory.readWord (Memory.writeWord m a v) a :=
        readWord_congr fun y _ _ => byteAt_writeWords_of_outside vs _ _ y (by omega)
      simpa [readWord_writeWord_same] using hout
    | succ i =>
      have := ih (Memory.writeWord m a v) (a + 4) i (by simpa using h)
      rw [show a + 4 * (i + 1) = a + 4 + 4 * i by omega, this]
      rfl

/-! ### The canonical form -/

theorem mem_insert {m : Memory} {a : Nat} {v : Byte} {c : Host.Cell} (h : c ∈ Memory.insert m a v) :
    c = (a, v) ∨ c ∈ m := by
  induction m with
  | nil => simpa [Memory.insert] using h
  | cons d m ih =>
    obtain ⟨b, w⟩ := d
    simp only [Memory.insert] at h
    split at h
    · simpa using h
    · split at h
      · rcases List.mem_cons.1 h with h | h
        · exact .inl h
        · exact .inr (List.mem_cons_of_mem _ h)
      · rcases List.mem_cons.1 h with h | h
        · exact .inr (h ▸ List.mem_cons_self)
        · exact (ih h).imp id (List.mem_cons_of_mem _)

theorem insert_wf {m : Memory} {a : Nat} {v : Byte} (hm : m.wf) (hv : Memory.unlisted a ≠ some v) :
    (Memory.insert m a v).wf := by
  obtain ⟨hs, hu⟩ := hm
  refine ⟨?_, fun c hc => ?_⟩
  · induction m with
    | nil => simp [Memory.insert]
    | cons d m ih =>
      obtain ⟨b, w⟩ := d
      rw [List.pairwise_cons] at hs
      have hu' : ∀ c ∈ m, Memory.unlisted c.1 ≠ some c.2 := fun c hc => hu c (List.mem_cons_of_mem _ hc)
      simp only [Memory.insert]
      split
      · rename_i hab
        rw [List.pairwise_cons]
        refine ⟨fun c hc => ?_, List.pairwise_cons.2 hs⟩
        rcases List.mem_cons.1 hc with rfl | hc
        · exact hab
        · exact Nat.lt_trans hab (hs.1 c hc)
      · split
        · rename_i hab
          subst hab
          exact List.pairwise_cons.2 hs
        · rename_i h1 h2
          rw [List.pairwise_cons]
          refine ⟨fun c hc => ?_, ih hs.2 hu'⟩
          rcases mem_insert hc with rfl | hc
          · simp only; omega
          · exact hs.1 c hc
  · rcases mem_insert hc with rfl | hc
    · exact hv
    · exact hu c hc

theorem filter_wf {m : Memory} (f : Host.Cell → Bool) (hm : m.wf) : Memory.wf (m.filter f) :=
  ⟨hm.1.filter f, fun c hc => hm.2 c (List.mem_filter.1 hc).1⟩

theorem writeByte_wf {m : Memory} (a : Nat) (v : Byte) (hm : m.wf) : (Memory.writeByte m a v).wf := by
  unfold Memory.writeByte
  split
  · exact filter_wf _ hm
  · rename_i h; exact insert_wf hm h

theorem writeWord_wf {m : Memory} (a : Nat) (v : Word) (hm : m.wf) : (Memory.writeWord m a v).wf :=
  writeByte_wf _ _ (writeByte_wf _ _ (writeByte_wf _ _ (writeByte_wf _ _ hm)))

theorem writeWords_wf (vs : List Word) {m : Memory} (a : Nat) (hm : m.wf) : (Memory.writeWords m a vs).wf := by
  induction vs generalizing m a with
  | nil => exact hm
  | cons v vs ih => exact ih _ (writeWord_wf _ _ hm)

theorem clearStage_wf {m : Memory} (hm : m.wf) : (Memory.clearStage m).wf := filter_wf _ hm

theorem updateSlot_wf (S : State) (sl : Nat) {m : Memory} (hm : m.wf) : (updateSlot S sl m).wf := by
  unfold updateSlot
  exact writeWord_wf _ _ (writeWord_wf _ _ (writeWord_wf _ _ (writeWord_wf _ _ (writeWord_wf _ _ (writeWord_wf _ _ hm)))))

/-! ### The slots and the staging area -/

theorem slot_writeWord_stage (m : Memory) (i : Nat) (hi : i < 32) (v : Word) (sl w : Nat) :
    Memory.slot (Memory.writeWord m (stageAddr i) v) sl w = Memory.slot m sl w :=
  readWord_writeWord_of_disjoint _ _ _ _ (by unfold stageAddr slotAddr; omega)

/-- The words of a slot that a write outside its 128 bytes leaves alone. -/
theorem slot_congr {m m' : Memory} {sl : Nat}
    (h : ∀ x, slotAddr sl 0 ≤ x → x < slotAddr sl 0 + 128 → Memory.byteAt m x = Memory.byteAt m' x) {w : Nat} (hw : w < 32) :
    Memory.slot m sl w = Memory.slot m' sl w :=
  readWord_congr fun x h1 h2 => h x (by unfold slotAddr at *; omega) (by unfold slotAddr at *; omega)

theorem pushImage_length (p : Params) (m : Memory) : (pushImage p m).length = 32 := by simp [pushImage]

theorem slot_push (p : Params) (m0 m : Memory) (sl w : Nat) (hw : w < 32) :
    Memory.slot (Memory.writeWords m (slotAddr sl 0) (pushImage p m0)) sl w = pushWord p m0 w := by
  have h := readWord_writeWords (pushImage p m0) m (slotAddr sl 0) w (by rw [pushImage_length]; exact hw)
  have ha : slotAddr sl w = slotAddr sl 0 + 4 * w := by unfold slotAddr; omega
  rw [Memory.slot, ha, h]
  simp [pushImage]

theorem byteAt_push_of_outside (p : Params) (m0 m : Memory) (sl x : Nat) (h : x < slotAddr sl 0 ∨ slotAddr sl 0 + 128 ≤ x) :
    Memory.byteAt (Memory.writeWords m (slotAddr sl 0) (pushImage p m0)) x = Memory.byteAt m x :=
  byteAt_writeWords_of_outside _ _ _ _ (by rw [pushImage_length]; omega)

theorem byteAt_updateSlot_of_outside (S : State) (sl : Nat) (m : Memory) (x : Nat)
    (h : x < slotAddr sl 0 ∨ slotAddr sl 0 + 32 ≤ x) :
    Memory.byteAt (updateSlot S sl m) x = Memory.byteAt m x := by
  unfold updateSlot slotAddr at *
  simp only
  repeat rw [byteAt_writeWord_of_outside _ _ _ _ (by omega)]

theorem slot_updateSlot (S : State) (sl : Nat) (m : Memory) (w : Nat) (hw : w < 32) :
    Memory.slot (updateSlot S sl m) sl w =
      if w = 0 then updateFlags (Memory.slot m sl 0) (Memory.stage S.mem 0)
      else if w = 1 ∨ w = 3 ∨ w = 5 ∨ w = 6 ∨ w = 7 then Memory.stage S.mem w else Memory.slot m sl w := by
  have hd : ∀ (m : Memory) (i j : Nat) (v : Word), i < 32 → j < 32 → i ≠ j →
      Memory.readWord (Memory.writeWord m (slotAddr sl j) v) (slotAddr sl i) = Memory.readWord m (slotAddr sl i) := by
    intro m i j v _ _ hij
    exact readWord_writeWord_of_disjoint _ _ _ _ (by unfold slotAddr; omega)
  unfold updateSlot Memory.slot
  simp only
  split
  · subst_vars; exact readWord_writeWord_same _ _ _
  rw [hd _ _ _ _ hw (by decide) (by assumption)]
  split
  · rename_i h0 h
    have hs := fun (m : Memory) (j : Nat) (v : Word) => readWord_writeWord_same m (slotAddr sl j) v
    rcases h with rfl | rfl | rfl | rfl | rfl
    · rw [hd _ 1 7 _ hw (by decide) (by decide), hd _ 1 6 _ hw (by decide) (by decide), hd _ 1 5 _ hw (by decide) (by decide),
        hd _ 1 3 _ hw (by decide) (by decide), hs]
    · rw [hd _ 3 7 _ hw (by decide) (by decide), hd _ 3 6 _ hw (by decide) (by decide), hd _ 3 5 _ hw (by decide) (by decide), hs]
    · rw [hd _ 5 7 _ hw (by decide) (by decide), hd _ 5 6 _ hw (by decide) (by decide), hs]
    · rw [hd _ 6 7 _ hw (by decide) (by decide), hs]
    · rw [hs]
  · rename_i h0 h
    simp only [not_or] at h
    rw [hd _ _ _ _ hw (by decide) (by tauto), hd _ _ _ _ hw (by decide) (by tauto), hd _ _ _ _ hw (by decide) (by tauto),
      hd _ _ _ _ hw (by decide) (by tauto), hd _ _ _ _ hw (by decide) (by tauto)]

/-- A reset cycle keeps every slot byte (R30, R261) and leaves STAGE at 0 (R31). -/
theorem byteAt_clearStage (m : Memory) (x : Nat) :
    Memory.byteAt (Memory.clearStage m) x = if 0x800 ≤ x ∧ x < 0x880 then 0#8 else Memory.byteAt m x := by
  have hl : Memory.listed (Memory.clearStage m) x = if 0x800 ≤ x ∧ x < 0x880 then none else Memory.listed m x := by
    induction m with
    | nil => simp [Memory.clearStage, Memory.listed]
    | cons c m ih =>
      obtain ⟨b, w⟩ := c
      simp only [Memory.clearStage, List.filter_cons] at ih ⊢
      by_cases hb : 0x800 ≤ b ∧ b < 0x880
      · have : (Memory.unlisted b).isNone = false := by unfold Memory.unlisted; rw [if_pos hb]; rfl
        rw [this]; simp only [Bool.false_eq_true, if_false, ih, Memory.listed]
        split
        · rfl
        · rw [if_neg (by rintro rfl; contradiction)]
      · have : (Memory.unlisted b).isNone = true := by unfold Memory.unlisted; rw [if_neg hb]; rfl
        rw [this]; simp only [if_true, Memory.listed, ih]
        by_cases hx : x = b
        · subst hx; simp [hb]
        · simp [hx]
  unfold Memory.byteAt Memory.stored
  rw [hl]
  split
  · rename_i h; unfold Memory.unlisted; rw [if_pos h]; rfl
  · rfl

end Sys2Proof.Machine
end

