-- ==== Sys2Proof/Laws/Stages.lean ====
section
/-! SUPPORT. The predicates of R54, and what each stage of a cycle can do, said once: a case lemma for the load attempt, the step event's outcomes, the engine, the
babystep start and a step, and the state that no stage before the bus writes. -/

namespace Sys2Proof.Machine

/-! ### The predicates of R54 -/

theorem noBabystepPending_iff (s : State) :
    s.noBabystepPending = true ↔ ∀ a : Axis, a.val < s.params.A → s.bsPending[a] = 0#16 := by
  have hm : ∀ a : Axis, a ∈ [(0 : Axis), 1, 2, 3, 4, 5, 6, 7, 8, 9, 10, 11, 12, 13, 14, 15] := by decide
  simp only [State.noBabystepPending, axes, List.all_filter, List.all_eq_true, Bool.or_eq_true, Bool.not_eq_true', decide_eq_false_iff_not,
    decide_eq_true_eq]
  exact ⟨fun h a ha => (h a (hm a)).resolve_left (not_not_intro ha), fun h a _ => (Decidable.em (a.val < s.params.A)).elim (.inr ∘ h a) .inl⟩

theorem quiet_iff (s : State) : s.quiet = true ↔ QuietState s := by simp [State.quiet, noBabystepPending_iff, and_assoc]

theorem isIdle_iff (s : State) : s.isIdle = true ↔ IdleState s := by simp [State.isIdle, quiet_iff]

theorem unlocked_iff (s : State) : s.unlocked = true ↔ UnlockedState s := by simp [State.unlocked, quiet_iff]

/-! ### What the stages before the bus leave alone -/

/-- `n` agrees with `S` on the state that only the host's accesses write (R70, R164 to R170), and has the inputs of the cycle used up. -/
structure HostSide (S n : State) : Prop where
  params : n.params = S.params
  tail : n.tail = S.tail
  cmdres : n.cmdres = S.cmdres
  mem : n.mem = S.mem
  home : n.home = S.home
  irqStatus : n.irqStatus = S.irqStatus
  irqEnable : n.irqEnable = S.irqEnable
  errFlags : n.errFlags = S.errFlags
  cfgStepInv : n.cfgStepInv = S.cfgStepInv
  cfgDirInv : n.cfgDirInv = S.cfgDirInv
  cfgEsEn : n.cfgEsEn = S.cfgEsEn
  cfgEsDir : n.cfgEsDir = S.cfgEsDir
  cfgEsInv : n.cfgEsInv = S.cfgEsInv
  cfgPulseWidth : n.cfgPulseWidth = S.cfgPulseWidth
  cfgDirSetup : n.cfgDirSetup = S.cfgDirSetup
  cfgMinInterval : n.cfgMinInterval = S.cfgMinInterval
  cfgMinRate : n.cfgMinRate = S.cfgMinRate
  busRdata : n.busRdata = 0#32
  pins : n.pins = S.pins.tail
  host : n.host = S.host
  cycle : n.cycle = S.cycle + 1

theorem counting_hostSide (S : State) : HostSide S (counting S) := by
  unfold counting bsAdvance
  simp only
  split <;> (try split) <;> exact ⟨rfl, rfl, rfl, rfl, rfl, rfl, rfl, rfl, rfl, rfl, rfl, rfl, rfl, rfl, rfl, rfl, rfl, rfl, rfl, rfl, rfl⟩

/-- `n` agrees with `S` on the engine's registers that the counting stage does not touch. -/
structure EngineSide (S n : State) : Prop where
  eng : n.eng = S.eng
  phase : n.phase = S.phase
  stopping : n.stopping = S.stopping
  head : n.head = S.head
  fault : n.fault = S.fault
  stepIndex : n.stepIndex = S.stepIndex
  errTerm : n.errTerm = S.errTerm
  rate : n.rate = S.rate
  rem : n.rem = S.rem
  interval : n.interval = S.interval
  cd : n.cd = S.cd
  dirLat : n.dirLat = S.dirLat
  extSel : n.extSel = S.extSel
  pos : n.pos = S.pos
  homed : n.homed = S.homed
  bsPending : n.bsPending = S.bsPending

/-- The counting stage leaves the engine's registers alone (R101). -/
theorem counting_engineSide (S : State) : EngineSide S (counting S) := by
  unfold counting bsAdvance
  simp only
  split <;> (try split) <;> exact ⟨rfl, rfl, rfl, rfl, rfl, rfl, rfl, rfl, rfl, rfl, rfl, rfl, rfl, rfl, rfl, rfl⟩

theorem counting_pulse (S : State) :
    (counting S).pt = BitVec.ofNat 16 (S.pt.toNat - 1)
      ∧ (counting S).pmask = (if S.pt.toNat - 1 = 0 then 0#23 else S.pmask)
      ∧ (counting S).settle = BitVec.ofNat 16 (S.settle.toNat - 1) := by
  unfold counting bsAdvance
  simp only
  split <;> (try split) <;> exact ⟨rfl, rfl, rfl⟩

theorem counting_pt_toNat (S : State) : (counting S).pt.toNat = S.pt.toNat - 1 := by
  have := S.pt.isLt
  rw [(counting_pulse S).1, BitVec.toNat_ofNat]; omega

/-- The sequencer's record after the counting stage (R218). -/
theorem counting_bs (S : State) :
    (counting S).bs = if S.bs.busy then
      (if S.bs.k = S.bs.len then { S.bs with busy := false } else { S.bs with k := S.bs.k + 1#18 }) else S.bs := by
  unfold counting bsAdvance
  simp only
  split
  · split <;> rfl
  · rfl

/-- R218 by cases: no sequence, a sequence that completes, a sequence that moves on. -/
theorem counting_bs_cases (S : State) :
    (S.bs.busy = false ∧ (counting S).bs = S.bs)
    ∨ (S.bs.busy = true ∧ S.bs.k = S.bs.len ∧ (counting S).bs = { S.bs with busy := false })
    ∨ (S.bs.busy = true ∧ S.bs.k ≠ S.bs.len ∧ (counting S).bs = { S.bs with k := S.bs.k + 1#18 }) := by
  rw [counting_bs]
  by_cases hb : S.bs.busy = true
  · right
    by_cases hk : S.bs.k = S.bs.len
    · left; exact ⟨hb, hk, by rw [if_pos hb, if_pos hk]⟩
    · right; exact ⟨hb, hk, by rw [if_pos hb, if_neg hk]⟩
  · left; exact ⟨by simpa using hb, by rw [if_neg hb]⟩

/-- The sequencer's record after a halt (R219): aborted, or kept. -/
theorem halt_bs_cases (S : State) (c : Cause) (k sl : Nat) (ax : AxisMask) (w : Work) :
    (S.babystepNotPulsed = true ∧ (halt S c k sl ax w).st.bs = { w.st.bs with busy := false })
    ∨ (S.babystepNotPulsed = false ∧ (halt S c k sl ax w).st.bs = w.st.bs) := by
  have e : (halt S c k sl ax w).st.bs = if S.babystepNotPulsed = true then { w.st.bs with busy := false } else w.st.bs := rfl
  rw [e]
  cases S.babystepNotPulsed
  · exact .inr ⟨rfl, rfl⟩
  · exact .inl ⟨rfl, rfl⟩

/-! ### The load attempt (R110, R111) -/

theorem loadAttempt_cases (S : State) (h : QueueIndex) (w : Work) :
    let b := decodeBlock S.params S.mem (slotOf S.params h)
    let chg := changesDirection S.params b w.st.dirLat
    (loadAttempt S h w = w ∧ (S.bs.busy = true ∨ depth S.params h S.tail = 0
        ∨ (validate S.params b = 0 ∧ chg = true ∧ (S.pt ≠ 0#16 ∨ w.st.pt ≠ 0#16))))
    ∨ (S.bs.busy = false ∧ depth S.params h S.tail ≠ 0 ∧ validate S.params b ≠ 0
        ∧ loadAttempt S h w = halt S .badBlock (validate S.params b) (slotOf S.params h) 0#16 w)
    ∨ (S.bs.busy = false ∧ depth S.params h S.tail ≠ 0 ∧ validate S.params b = 0
        ∧ (chg = true → S.pt = 0#16 ∧ w.st.pt = 0#16) ∧ loadAttempt S h w = claim S b chg w) := by
  intro b chg
  have e : loadAttempt S h w = if S.bs.busy = true then w else if depth S.params h S.tail = 0 then w
      else if validate S.params b ≠ 0 then halt S .badBlock (validate S.params b) (slotOf S.params h) 0#16 w
      else if (chg && (decide (S.pt ≠ 0#16) || decide (w.st.pt ≠ 0#16))) = true then w else claim S b chg w := rfl
  clear_value b chg
  rw [e]
  by_cases hb : S.bs.busy = true
  · left; exact ⟨if_pos hb, .inl hb⟩
  rw [if_neg hb]
  simp only [Bool.not_eq_true] at hb
  by_cases hd : depth S.params h S.tail = 0
  · left; exact ⟨if_pos hd, .inr (.inl hd)⟩
  rw [if_neg hd]
  by_cases hv : validate S.params b = 0
  · rw [if_neg (not_not.2 hv)]
    by_cases hc : (chg && (decide (S.pt ≠ 0#16) || decide (w.st.pt ≠ 0#16))) = true
    · left
      exact ⟨if_pos hc, .inr (.inr ⟨hv, by simpa using hc⟩)⟩
    · right; right
      refine ⟨hb, hd, hv, fun h => ?_, if_neg hc⟩
      rw [h] at hc
      simpa using hc
  · right; left
    exact ⟨hb, hd, hv, if_pos hv⟩

/-! ### The step event (R131) -/

/-- The four things a step event can do. -/
theorem stepEvent_cases (S : State) (es : AxisMask) (w : Work) :
    let b := S.headBlock
    let trig := endstopSample S es b
    (trig ≠ 0#16 ∧ b.homing = true ∧ stepEvent S es w = homingAbort S trig w)
    ∨ (trig ≠ 0#16 ∧ b.homing = false ∧ stepEvent S es w = halt S .endstop 0 S.headSlot trig w)
    ∨ (trig = 0#16 ∧ S.stepIndex.toNat + 1 = b.dominant S.params ∧ stepEvent S es w = complete S (emitStep S b w))
    ∨ (trig = 0#16 ∧ S.stepIndex.toNat + 1 ≠ b.dominant S.params
        ∧ stepEvent S es w = nextInterval S b (S.stepIndex.toNat + 1) (emitStep S b w)) := by
  intro b trig
  have e : stepEvent S es w = if trig ≠ 0#16 then (if b.homing = true then homingAbort S trig w else halt S .endstop 0 S.headSlot trig w)
      else (if S.stepIndex.toNat + 1 = b.dominant S.params then complete S (emitStep S b w)
        else nextInterval S b (S.stepIndex.toNat + 1) (emitStep S b w)) := rfl
  clear_value b trig
  rw [e]
  by_cases ht : trig = 0#16
  · right; right
    rw [if_neg (not_not.2 ht)]
    by_cases hd : S.stepIndex.toNat + 1 = b.dominant S.params
    · exact .inl ⟨ht, hd, if_pos hd⟩
    · exact .inr ⟨ht, hd, if_neg hd⟩
  · rw [if_pos ht]
    cases b.homing
    · exact .inr (.inl ⟨ht, rfl, rfl⟩)
    · exact .inl ⟨ht, rfl, rfl⟩

/-- The error term of one axis after the Bresenham step (R135), as a number. -/
theorem emitStep_errTerm_toNat (S : State) (b : Block) (w : Work) (a : Axis) (ha : a.val < S.params.A)
    (hc : b.steps[a] ≤ b.dominant S.params) (hD : b.dominant S.params < 2 ^ 31) (he : S.errTerm[a].toNat ≤ b.dominant S.params) :
    (emitStep S b w).st.errTerm[a].toNat =
      if b.dominant S.params < S.errTerm[a].toNat + b.steps[a] then S.errTerm[a].toNat + b.steps[a] - b.dominant S.params
      else S.errTerm[a].toNat + b.steps[a] := by
  rw [emitStep_errTerm, update_get, if_pos ha]
  by_cases h : b.dominant S.params < S.errTerm[a].toNat + b.steps[a]
  · rw [if_pos (show pulses S b a = true from decide_eq_true h), if_pos h, bresenhamSum, BitVec.toNat_ofNat, Nat.mod_eq_of_lt (by omega)]
  · rw [if_neg (by rw [pulses, bresenhamSum]; simpa using h), if_neg h, bresenhamSum, BitVec.toNat_ofNat,
      Nat.mod_eq_of_lt (by omega)]

/-- The position of one axis after the Bresenham step (R136). -/
theorem emitStep_pos_get (S : State) (b : Block) (w : Work) (a : Axis) (ha : a.val < S.params.A) :
    (emitStep S b w).st.pos[a] =
      if b.dominant S.params < S.errTerm[a].toNat + b.steps[a] then S.pos[a] + (if b.forward a then 1#32 else -1#32)
      else w.st.pos[a] := by
  rw [emitStep_pos, update_get, if_pos ha]
  by_cases h : b.dominant S.params < S.errTerm[a].toNat + b.steps[a]
  · rw [if_pos (show pulses S b a = true from decide_eq_true h), if_pos h]
  · rw [if_neg (by rw [pulses, bresenhamSum]; simpa using h), if_neg h]

/-- The working state a homing abort hands on, before the next load: the triggered axes at their home offsets, the block retired. -/
def afterHoming (S : State) (trig : AxisMask) (w : Work) : Work :=
  retire S
    { st := { w.st with
        pos := PerAxis.update S.params w.st.pos (fun a => if trig.getLsbD a.val then S.home[a] else w.st.pos[a])
        homed := S.homed ||| trig }
      ev := w.ev ||| evHomingHit }

theorem homingAbort_cases (S : State) (trig : AxisMask) (w : Work) :
    (S.stopping = true ∧ homingAbort S trig w = finishStop S (afterHoming S trig w))
    ∨ (S.stopping = false ∧ homingAbort S trig w = loadAttempt S (nextIndex S.params S.head) (afterHoming S trig w)) := by
  have e : homingAbort S trig w = if S.stopping = true then finishStop S (afterHoming S trig w)
    else loadAttempt S (nextIndex S.params S.head) (afterHoming S trig w) := rfl
  rw [e]
  cases S.stopping
  · exact .inr ⟨rfl, rfl⟩
  · exact .inl ⟨rfl, rfl⟩

theorem complete_cases (S : State) (w : Work) :
    (S.stopping = true ∧ complete S w = finishStop S (retire S w))
    ∨ (S.stopping = false ∧ complete S w = loadAttempt S (nextIndex S.params S.head) (retire S w)) := by
  have e : complete S w = if S.stopping = true then finishStop S (retire S w)
    else loadAttempt S (nextIndex S.params S.head) (retire S w) := rfl
  rw [e]
  cases S.stopping
  · exact .inr ⟨rfl, rfl⟩
  · exact .inl ⟨rfl, rfl⟩

/-- The working state with the next phase, rate, remainder and interval (R145, R146), before the stop check. -/
def scheduled (S : State) (b : Block) (i1 : Nat) (w : Work) : Work :=
  { w with st := { w.st with
    phase := nextPhase S b i1
    rate := BitVec.ofNat 32 (nextRate S b (nextPhase S b i1)).1
    rem := BitVec.ofNat 32 (nextRate S b (nextPhase S b i1)).2
    interval := BitVec.ofNat 32 (ivl S (nextRate S b (nextPhase S b i1)).1)
    cd := BitVec.ofNat 32 (ivl S (nextRate S b (nextPhase S b i1)).1) } }

theorem nextInterval_cases (S : State) (b : Block) (i1 : Nat) (w : Work) :
    (S.stopping = true ∧ (nextRate S b (nextPhase S b i1)).1 ≤ S.cfgMinRate.toNat
        ∧ nextInterval S b i1 w = finishStop S (scheduled S b i1 w))
    ∨ ((S.stopping = false ∨ S.cfgMinRate.toNat < (nextRate S b (nextPhase S b i1)).1)
        ∧ nextInterval S b i1 w = scheduled S b i1 w) := by
  have e : nextInterval S b i1 w =
    if (S.stopping && decide ((nextRate S b (nextPhase S b i1)).1 ≤ S.cfgMinRate.toNat)) = true
    then finishStop S (scheduled S b i1 w) else scheduled S b i1 w := rfl
  rw [e]
  by_cases h : (S.stopping && decide ((nextRate S b (nextPhase S b i1)).1 ≤ S.cfgMinRate.toNat)) = true
  · left
    have h' := h
    simp only [Bool.and_eq_true, decide_eq_true_eq] at h'
    exact ⟨h'.1, h'.2, if_pos h⟩
  · right
    refine ⟨?_, if_neg h⟩
    simp only [Bool.and_eq_true, decide_eq_true_eq, not_and, Nat.not_le] at h
    cases hs : S.stopping
    · exact .inl rfl
    · exact .inr (h hs)

/-! ### The engine (R103) -/

theorem engine_cases (S : State) (es : AxisMask) (w : Work) :
    (S.eng = .run ∧ S.cd = 1#32 ∧ engine S es w = stepEvent S es w)
    ∨ (S.eng = .run ∧ S.cd ≠ 1#32 ∧ engine S es w = { w with st := { w.st with cd := S.cd - 1#32 } })
    ∨ (S.eng = .idle ∧ engine S es w = loadAttempt S S.head w)
    ∨ (S.eng = .halted ∧ engine S es w = w) := by
  unfold engine
  cases he : S.eng with
  | run =>
    by_cases hc : S.cd = 1#32
    · left; exact ⟨rfl, hc, by simp [hc]⟩
    · right; left; exact ⟨rfl, hc, by simp [hc]⟩
  | idle => right; right; left; exact ⟨rfl, rfl⟩
  | halted => right; right; right; exact ⟨rfl, rfl⟩

/-! ### The babystep start (R216) -/

theorem babystepStart_cases (S : State) (e : Bool) (n : State) :
    babystepStart S e n = n
    ∨ ∃ a, pendingAxis S = some a ∧ n.eng ≠ .halted ∧ e = false ∧ S.bs.busy = false ∧ S.pt = 0#16 ∧ n.pt = 0#16 ∧ n.settle = 0#16
        ∧ babystepFits S n (babystepLength S (n.dirLat.getLsbD (channelOf S.params a.val n.extSel.toNat) != babystepForward S a)) = true
        ∧ babystepStart S e n =
          { n with
            bs := { busy := true, axis := BitVec.ofNat 4 a.val, ch := BitVec.ofNat 5 (channelOf S.params a.val n.extSel.toNat),
                    dir := babystepForward S a,
                    flip := n.dirLat.getLsbD (channelOf S.params a.val n.extSel.toNat) != babystepForward S a,
                    len := BitVec.ofNat 18 (babystepLength S
                      (n.dirLat.getLsbD (channelOf S.params a.val n.extSel.toNat) != babystepForward S a)), k := 1#18 }
            bsPending := n.bsPending.set a (S.bsPending[a] - (if babystepForward S a then 1#16 else -1#16)) } := by
  by_cases hm : babystepMayStart S e n = true
  · cases hp : pendingAxis S with
    | none => left; simp only [babystepStart, hm, hp, if_true]
    | some a =>
      by_cases hf : babystepFits S n (babystepLength S
          (n.dirLat.getLsbD (channelOf S.params a.val n.extSel.toNat) != babystepForward S a)) = true
      · right
        have hm' := hm
        simp only [babystepMayStart, Bool.and_eq_true, Bool.not_eq_true', Bool.or_eq_false_iff, decide_eq_true_eq,
          decide_eq_false_iff_not] at hm'
        exact ⟨a, rfl, hm'.1.1.1, hm'.1.1.2, hm'.1.2, hm'.2.1.1, hm'.2.1.2, hm'.2.2, hf, by simp only [babystepStart, hm, hp, hf, if_true]⟩
      · left
        simp only [babystepStart, hm, hp, if_true, hf]
        rfl
  · left; simp [babystepStart, hm]

/-- The sequencer writes nothing but `bs` and `bs_pending` (R220). -/
theorem babystepStart_writes (S : State) (e : Bool) (n : State) :
    babystepStart S e n = { n with bs := (babystepStart S e n).bs, bsPending := (babystepStart S e n).bsPending } := by
  rcases babystepStart_cases S e n with h | ⟨a, _, _, _, _, _, _, _, _, h⟩ <;> rw [h]

/-! ### The host side through the stages -/

theorem halt_hostSide {S : State} (c : Cause) (k sl : Nat) (ax : AxisMask) {w : Work} (h : HostSide S w.st) :
    HostSide S (halt S c k sl ax w).st :=
  ⟨h.params, h.tail, h.cmdres, h.mem, h.home, h.irqStatus, h.irqEnable, h.errFlags, h.cfgStepInv, h.cfgDirInv, h.cfgEsEn,
    h.cfgEsDir, h.cfgEsInv, h.cfgPulseWidth, h.cfgDirSetup, h.cfgMinInterval, h.cfgMinRate, h.busRdata, h.pins, h.host, h.cycle⟩

theorem claim_hostSide {S : State} (b : Block) (chg : Bool) {w : Work} (h : HostSide S w.st) : HostSide S (claim S b chg w).st :=
  ⟨h.params, h.tail, h.cmdres, h.mem, h.home, h.irqStatus, h.irqEnable, h.errFlags, h.cfgStepInv, h.cfgDirInv, h.cfgEsEn,
    h.cfgEsDir, h.cfgEsInv, h.cfgPulseWidth, h.cfgDirSetup, h.cfgMinInterval, h.cfgMinRate, h.busRdata, h.pins, h.host, h.cycle⟩

theorem finishStop_hostSide {S : State} {w : Work} (h : HostSide S w.st) : HostSide S (finishStop S w).st :=
  ⟨h.params, h.tail, h.cmdres, h.mem, h.home, h.irqStatus, h.irqEnable, h.errFlags, h.cfgStepInv, h.cfgDirInv, h.cfgEsEn,
    h.cfgEsDir, h.cfgEsInv, h.cfgPulseWidth, h.cfgDirSetup, h.cfgMinInterval, h.cfgMinRate, h.busRdata, h.pins, h.host, h.cycle⟩

theorem retire_hostSide {S : State} {w : Work} (h : HostSide S w.st) : HostSide S (retire S w).st :=
  ⟨h.params, h.tail, h.cmdres, h.mem, h.home, h.irqStatus, h.irqEnable, h.errFlags, h.cfgStepInv, h.cfgDirInv, h.cfgEsEn,
    h.cfgEsDir, h.cfgEsInv, h.cfgPulseWidth, h.cfgDirSetup, h.cfgMinInterval, h.cfgMinRate, h.busRdata, h.pins, h.host, h.cycle⟩

theorem afterHoming_hostSide {S : State} (trig : AxisMask) {w : Work} (h : HostSide S w.st) : HostSide S (afterHoming S trig w).st :=
  ⟨h.params, h.tail, h.cmdres, h.mem, h.home, h.irqStatus, h.irqEnable, h.errFlags, h.cfgStepInv, h.cfgDirInv, h.cfgEsEn,
    h.cfgEsDir, h.cfgEsInv, h.cfgPulseWidth, h.cfgDirSetup, h.cfgMinInterval, h.cfgMinRate, h.busRdata, h.pins, h.host, h.cycle⟩

theorem emitStep_hostSide {S : State} (b : Block) {w : Work} (h : HostSide S w.st) : HostSide S (emitStep S b w).st :=
  ⟨h.params, h.tail, h.cmdres, h.mem, h.home, h.irqStatus, h.irqEnable, h.errFlags, h.cfgStepInv, h.cfgDirInv, h.cfgEsEn,
    h.cfgEsDir, h.cfgEsInv, h.cfgPulseWidth, h.cfgDirSetup, h.cfgMinInterval, h.cfgMinRate, h.busRdata, h.pins, h.host, h.cycle⟩

theorem scheduled_hostSide {S : State} (b : Block) (i1 : Nat) {w : Work} (h : HostSide S w.st) : HostSide S (scheduled S b i1 w).st :=
  ⟨h.params, h.tail, h.cmdres, h.mem, h.home, h.irqStatus, h.irqEnable, h.errFlags, h.cfgStepInv, h.cfgDirInv, h.cfgEsEn,
    h.cfgEsDir, h.cfgEsInv, h.cfgPulseWidth, h.cfgDirSetup, h.cfgMinInterval, h.cfgMinRate, h.busRdata, h.pins, h.host, h.cycle⟩

theorem loadAttempt_hostSide {S : State} (i : QueueIndex) {w : Work} (h : HostSide S w.st) : HostSide S (loadAttempt S i w).st := by
  rcases loadAttempt_cases S i w with ⟨e, _⟩ | ⟨_, _, _, e⟩ | ⟨_, _, _, _, e⟩ <;> rw [e]
  · exact h
  · exact halt_hostSide _ _ _ _ h
  · exact claim_hostSide _ _ h

theorem stepEvent_hostSide {S : State} (es : AxisMask) {w : Work} (h : HostSide S w.st) : HostSide S (stepEvent S es w).st := by
  rcases stepEvent_cases S es w with ⟨_, _, e⟩ | ⟨_, _, e⟩ | ⟨_, _, e⟩ | ⟨_, _, e⟩ <;> rw [e]
  · rcases homingAbort_cases S (endstopSample S es S.headBlock) w with ⟨_, e⟩ | ⟨_, e⟩ <;> rw [e]
    · exact finishStop_hostSide (afterHoming_hostSide _ h)
    · exact loadAttempt_hostSide _ (afterHoming_hostSide _ h)
  · exact halt_hostSide _ _ _ _ h
  · rcases complete_cases S (emitStep S S.headBlock w) with ⟨_, e⟩ | ⟨_, e⟩ <;> rw [e]
    · exact finishStop_hostSide (retire_hostSide (emitStep_hostSide _ h))
    · exact loadAttempt_hostSide _ (retire_hostSide (emitStep_hostSide _ h))
  · rcases nextInterval_cases S S.headBlock (S.stepIndex.toNat + 1) (emitStep S S.headBlock w) with ⟨_, _, e⟩ | ⟨_, e⟩ <;> rw [e]
    · exact finishStop_hostSide (scheduled_hostSide _ _ (emitStep_hostSide _ h))
    · exact scheduled_hostSide _ _ (emitStep_hostSide _ h)

theorem engine_hostSide {S : State} (es : AxisMask) {w : Work} (h : HostSide S w.st) : HostSide S (engine S es w).st := by
  rcases engine_cases S es w with ⟨_, _, e⟩ | ⟨_, _, e⟩ | ⟨_, e⟩ | ⟨_, e⟩ <;> rw [e]
  · exact stepEvent_hostSide es h
  · exact ⟨h.params, h.tail, h.cmdres, h.mem, h.home, h.irqStatus, h.irqEnable, h.errFlags, h.cfgStepInv, h.cfgDirInv, h.cfgEsEn,
      h.cfgEsDir, h.cfgEsInv, h.cfgPulseWidth, h.cfgDirSetup, h.cfgMinInterval, h.cfgMinRate, h.busRdata, h.pins, h.host, h.cycle⟩
  · exact loadAttempt_hostSide _ h
  · exact h

theorem babystepStart_hostSide {S n : State} (e : Bool) (h : HostSide S n) : HostSide S (babystepStart S e n) := by
  rw [babystepStart_writes]
  exact ⟨h.params, h.tail, h.cmdres, h.mem, h.home, h.irqStatus, h.irqEnable, h.errFlags, h.cfgStepInv, h.cfgDirInv, h.cfgEsEn,
    h.cfgEsDir, h.cfgEsInv, h.cfgPulseWidth, h.cfgDirSetup, h.cfgMinInterval, h.cfgMinRate, h.busRdata, h.pins, h.host, h.cycle⟩

/-- The state after the emergency stop or the engine, before the babystep start. -/
def afterEngine (S : State) (estopCmd : Bool) : Work :=
  if (S.sample.estopIn || estopCmd) = true then estopHalt S { st := counting S, ev := 0#5 }
  else engine S S.sample.endstopIn { st := counting S, ev := 0#5 }

theorem beforeBus_eq (S : State) (e : Bool) :
    beforeBus S e = { st := babystepStart S (S.sample.estopIn || e) (afterEngine S e).st, ev := (afterEngine S e).ev } := rfl

/-- No stage before the bus writes the host's side of the state. -/
theorem beforeBus_hostSide (S : State) (e : Bool) : HostSide S (beforeBus S e).st := by
  rw [beforeBus_eq]
  refine babystepStart_hostSide _ ?_
  unfold afterEngine
  split
  · exact halt_hostSide _ _ _ _ (counting_hostSide S)
  · exact engine_hostSide _ (counting_hostSide S)

/-! ### The bus stage and the step -/

/-- The bus stage of an instruction. -/
def busStage (S : State) : Instr → Work → Work
  | .rd addr => busRead S addr
  | .wr addr data => busWrite S addr data
  | .nop => commandNop
  | .push => commandPush S
  | .update slot => commandUpdate S slot
  | .estop => commandEstop
  | .qstop => commandQstop S
  | .babystep axis forward => commandBabystep S axis forward
  | .clearHalt => commandClearHalt S

/-- The instruction is an emergency stop (R102). -/
def isEstop : Instr → Bool
  | .rd _ => false
  | .wr addr data => isEstopWrite addr data
  | .nop => false
  | .push => false
  | .update _ => false
  | .estop => true
  | .qstop => false
  | .babystep _ _ => false
  | .clearHalt => false

/-- The IRQ_STATUS bits the instruction clears (R104). -/
def clears (S : State) : Instr → BitVec 5
  | .rd _ => 0#5
  | .wr addr data => irqClear S.params addr data
  | .nop => 0#5
  | .push => 0#5
  | .update _ => 0#5
  | .estop => 0#5
  | .qstop => 0#5
  | .babystep _ _ => 0#5
  | .clearHalt => 0#5

/-- Every instruction is one cycle with its own bus stage; none stops the machine. -/
theorem exec_eq_cycle (i : Instr) (s : State) : exec i s = .next (cycleWith s (isEstop i) (clears s i) (busStage s i)) := by
  cases i <;> rfl

/-- Everything a step can be: a cycle that carries an instruction, no access, or an illegal access. -/
theorem step_cases {s t : State} (h : step s = .next t) :
    (∃ r i, hostRequest s.host = some r ∧ decode r = .ok i
        ∧ t = advanceHost (cycleWith s (isEstop i) (clears s i) (busStage s i)))
    ∨ (hostRequest s.host = none ∧ t = advanceHost (idleCycle s))
    ∨ (∃ r e, hostRequest s.host = some r ∧ decode r = .error e ∧ t = advanceHost (illegalAccessCycle s)) := by
  unfold step at h
  cases hr : hostRequest s.host with
  | none =>
    rw [hr] at h
    right; left
    exact ⟨rfl, (Host.Outcome.next.inj h).symm⟩
  | some r =>
    rw [hr] at h
    simp only at h
    cases hd : decode r with
    | error e =>
      rw [hd] at h
      right; right
      exact ⟨r, e, rfl, hd, (Host.Outcome.next.inj h).symm⟩
    | ok i =>
      rw [hd] at h
      simp only [exec_eq_cycle] at h
      left
      exact ⟨r, i, rfl, hd, (Host.Outcome.next.inj h).symm⟩

/-- A step always answers a next state. -/
theorem step_next (s : State) : ∃ t, step s = .next t := by
  unfold step
  split
  · exact ⟨_, rfl⟩
  · split
    · exact ⟨_, rfl⟩
    · simp only [exec_eq_cycle]; exact ⟨_, rfl⟩

end Sys2Proof.Machine
end

