-- ==== Sys2Proof/Laws/Commands.lean ====
section
/-! SUPPORT. What the bus stage can do, said once: for each command and each register write one case lemma, and `BusEffect`, the list of
every change an access can make to the working state of its cycle. -/

namespace Sys2Proof.Machine

/-! ### The commands -/

/-- R171. -/
theorem commandPush_cases (S : State) (w : Work) :
    (w.st.eng = .halted ∧ commandPush S w = answer 0x01#8 .halted w)
    ∨ (w.st.eng ≠ .halted ∧ w.st.stopping = true ∧ commandPush S w = answer 0x01#8 .stopping w)
    ∨ (w.st.eng ≠ .halted ∧ w.st.stopping = false ∧ S.depth = S.params.N ∧ commandPush S w = answer 0x01#8 .full w)
    ∨ (w.st.eng ≠ .halted ∧ w.st.stopping = false ∧ S.depth ≠ S.params.N
        ∧ commandPush S w = answer 0x01#8 .accepted { w with st := { w.st with
            mem := Memory.writeWords w.st.mem (slotAddr (slotOf S.params S.tail) 0) (pushImage S.params S.mem)
            tail := nextIndex S.params S.tail } }) := by
  unfold commandPush
  split
  · rename_i h; exact .inl ⟨h, rfl⟩
  · rename_i h1
    split
    · rename_i h2; exact .inr (.inl ⟨h1, h2, rfl⟩)
    · rename_i h2
      simp only [Bool.not_eq_true] at h2
      split
      · rename_i h3; exact .inr (.inr (.inl ⟨h1, h2, h3, rfl⟩))
      · rename_i h3; exact .inr (.inr (.inr ⟨h1, h2, h3, rfl⟩))

/-- R172, the accepted case; every other case only answers. -/
theorem commandUpdate_cases (S : State) (slot : BitVec 6) (w : Work) :
    (∃ r, commandUpdate S slot w = answer 0x02#8 r w)
    ∨ (slot.toNat < S.params.N ∧ w.st.eng ≠ .halted
        ∧ slotOffset S.params slot.toNat S.head < depth S.params S.head S.tail
        ∧ slotOffset S.params slot.toNat w.st.head < depth S.params w.st.head S.tail
        ∧ ¬(S.eng = .run ∧ slotOffset S.params slot.toNat S.head = 0)
        ∧ ¬(w.st.eng = .run ∧ slotOffset S.params slot.toNat w.st.head = 0)
        ∧ commandUpdate S slot w = answer 0x02#8 .accepted { w with st := { w.st with mem := updateSlot S slot.toNat w.st.mem } }) := by
  unfold commandUpdate
  simp only
  split
  · exact .inl ⟨_, rfl⟩
  · rename_i h1
    split
    · exact .inl ⟨_, rfl⟩
    · rename_i h2
      split
      · exact .inl ⟨_, rfl⟩
      · rename_i h3
        split
        · exact .inl ⟨_, rfl⟩
        · rename_i h4
          simp only [not_or] at h3 h4
          exact .inr ⟨by omega, h2, by omega, by omega, h4.1, h4.2, rfl⟩

/-- R175. -/
theorem commandQstop_cases (S : State) (w : Work) :
    (w.st.eng = .halted ∧ commandQstop S w = answer 0x04#8 .halted w)
    ∨ (w.st.eng = .idle
        ∧ commandQstop S w = answer 0x04#8 .accepted { st := { w.st with head := S.tail }, ev := w.ev ||| evQstopDone })
    ∨ (w.st.eng = .run ∧ w.st.rate.toNat ≤ S.cfgMinRate.toNat
        ∧ commandQstop S w = answer 0x04#8 .accepted (finishStop S w))
    ∨ (w.st.eng = .run ∧ S.cfgMinRate.toNat < w.st.rate.toNat
        ∧ commandQstop S w = answer 0x04#8 .accepted (beginStop w)) := by
  unfold commandQstop
  cases h : w.st.eng with
  | halted => exact .inl ⟨rfl, rfl⟩
  | idle => exact .inr (.inl ⟨rfl, rfl⟩)
  | run =>
    right; right
    by_cases hr : w.st.rate.toNat ≤ S.cfgMinRate.toNat
    · exact .inl ⟨rfl, hr, if_pos hr⟩
    · exact .inr ⟨rfl, by omega, if_neg hr⟩

/-- R176, the accepted case; every other case only answers. -/
theorem commandBabystep_cases (S : State) (axis : BitVec 4) (forward : Bool) (w : Work) :
    (∃ r, commandBabystep S axis forward w = answer 0x05#8 r w)
    ∨ (axis.toNat < S.params.A ∧ w.st.eng ≠ .halted
        ∧ commandBabystep S axis forward w = answer 0x05#8 .accepted { w with st := { w.st with
            bsPending := w.st.bsPending.set axis.toFin
              (BitVec.ofInt 16 (w.st.bsPending[axis.toFin].toInt + (if forward then 1 else -1))) } }) := by
  unfold commandBabystep
  simp only
  split
  · exact .inl ⟨_, rfl⟩
  · rename_i h1
    split
    · exact .inl ⟨_, rfl⟩
    · rename_i h2
      generalize w.st.bsPending[axis.toFin].toInt + (if forward = true then 1 else -1) = x
      split
      · exact .inl ⟨_, rfl⟩
      · exact .inr ⟨by omega, h2, rfl⟩

/-- R177. -/
theorem commandClearHalt_cases (S : State) (w : Work) :
    (∃ r, commandClearHalt S w = answer 0x06#8 r w)
    ∨ (S.sample.estopIn = false ∧ S.eng = .halted ∧ commandClearHalt S w = answer 0x06#8 .accepted (leaveHalt w)) := by
  unfold commandClearHalt
  split
  · exact .inl ⟨_, rfl⟩
  · rename_i h1
    split
    · exact .inl ⟨_, rfl⟩
    · rename_i h2; exact .inr ⟨by simpa using h1, by simpa using h2, rfl⟩

/-! ### Every change an access can make -/

/-- The changes an access can make to the working state `w` of a cycle that began in `S`. -/
inductive BusEffect (S : State) (w : Work) : Work → Prop where
  /-- A read, an error flag, a rejected or effectless command, or a write of ERR or IRQ_ENABLE. -/
  | record (c : CommandRecord) (e : BitVec 3) (q : BitVec 5) (d : Word) :
      BusEffect S w { w with st := { w.st with cmdres := c, errFlags := e, irqEnable := q, busRdata := d } }
  /-- R163. -/
  | stage (i : Fin 32) (v : Word) :
      BusEffect S w { w with st := { w.st with mem := Memory.writeWord w.st.mem (stageAddr i.val) v } }
  /-- R169, R170. -/
  | locked (r : Reg) (v : Word) (h : S.unlocked = true) : BusEffect S w { w with st := storeLocked v w.st r }
  /-- R171. -/
  | push (c : CommandRecord) (h1 : w.st.eng ≠ .halted) (h2 : w.st.stopping = false) (h3 : S.depth ≠ S.params.N) :
      BusEffect S w { w with st := { w.st with
        mem := Memory.writeWords w.st.mem (slotAddr (slotOf S.params S.tail) 0) (pushImage S.params S.mem)
        tail := nextIndex S.params S.tail
        cmdres := c } }
  /-- R172. -/
  | update (c : CommandRecord) (sl : Nat) (h1 : sl < S.params.N) (h2 : w.st.eng ≠ .halted)
      (h3 : ¬(S.eng = .run ∧ slotOffset S.params sl S.head = 0))
      (h4 : ¬(w.st.eng = .run ∧ slotOffset S.params sl w.st.head = 0)) :
      BusEffect S w { w with st := { w.st with mem := updateSlot S sl w.st.mem, cmdres := c } }
  /-- R175 while IDLE. -/
  | flush (c : CommandRecord) (h : w.st.eng = .idle) :
      BusEffect S w { st := { w.st with head := S.tail, cmdres := c }, ev := w.ev ||| evQstopDone }
  /-- R175 while RUN at a rate of at most CFG_MIN_RATE. -/
  | finish (r : CommandResult) (op : Byte) (h : w.st.eng = .run) : BusEffect S w (answer op r (finishStop S w))
  /-- R175 while RUN. -/
  | stop (r : CommandResult) (op : Byte) (h : w.st.eng = .run) : BusEffect S w (answer op r (beginStop w))
  /-- R176. -/
  | babystep (c : CommandRecord) (a : Axis) (x : BitVec 16) (h : w.st.eng ≠ .halted) (ha : a.val < S.params.A) :
      BusEffect S w { w with st := { w.st with bsPending := w.st.bsPending.set a x, cmdres := c } }
  /-- R177. -/
  | clearHalt (r : CommandResult) (op : Byte) (h1 : S.sample.estopIn = false) (h2 : S.eng = .halted) :
      BusEffect S w (answer op r (leaveHalt w))

theorem answer_effect (S : State) (op : Byte) (r : CommandResult) (w : Work) : BusEffect S w (answer op r w) :=
  .record { result := r, opcode := op } w.st.errFlags w.st.irqEnable w.st.busRdata

theorem flagError_effect (S : State) (e : BitVec 3) (w : Work) : BusEffect S w (flagError e w) :=
  .record w.st.cmdres (w.st.errFlags ||| e) w.st.irqEnable w.st.busRdata

theorem same_effect (S : State) (w : Work) : BusEffect S w w :=
  .record w.st.cmdres w.st.errFlags w.st.irqEnable w.st.busRdata

theorem commandPush_effect (S : State) (w : Work) : BusEffect S w (commandPush S w) := by
  rcases commandPush_cases S w with ⟨_, e⟩ | ⟨_, _, e⟩ | ⟨_, _, _, e⟩ | ⟨h1, h2, h3, e⟩ <;> rw [e]
  · exact answer_effect S _ _ w
  · exact answer_effect S _ _ w
  · exact answer_effect S _ _ w
  · exact .push _ h1 h2 h3

theorem commandUpdate_effect (S : State) (slot : BitVec 6) (w : Work) : BusEffect S w (commandUpdate S slot w) := by
  rcases commandUpdate_cases S slot w with ⟨_, e⟩ | ⟨h1, h2, _, _, h3, h4, e⟩ <;> rw [e]
  · exact answer_effect S _ _ w
  · exact .update _ _ h1 h2 h3 h4

theorem commandQstop_effect (S : State) (w : Work) : BusEffect S w (commandQstop S w) := by
  rcases commandQstop_cases S w with ⟨_, e⟩ | ⟨h, e⟩ | ⟨h, _, e⟩ | ⟨h, _, e⟩ <;> rw [e]
  · exact answer_effect S _ _ w
  · exact .flush _ h
  · exact .finish _ _ h
  · exact .stop _ _ h

theorem commandBabystep_effect (S : State) (axis : BitVec 4) (forward : Bool) (w : Work) :
    BusEffect S w (commandBabystep S axis forward w) := by
  rcases commandBabystep_cases S axis forward w with ⟨_, e⟩ | ⟨h1, h2, e⟩ <;> rw [e]
  · exact answer_effect S _ _ w
  · exact .babystep _ _ _ h2 h1

theorem commandClearHalt_effect (S : State) (w : Work) : BusEffect S w (commandClearHalt S w) := by
  rcases commandClearHalt_cases S w with ⟨_, e⟩ | ⟨h1, h2, e⟩ <;> rw [e]
  · exact answer_effect S _ _ w
  · exact .clearHalt _ _ h1 h2

theorem command_effect (S : State) (v : Word) (w : Work) : BusEffect S w (command S v w) := by
  unfold command
  split
  · exact answer_effect S _ _ w
  · exact answer_effect S _ _ w
  · exact answer_effect S _ _ w
  · exact commandPush_effect S w
  · exact commandUpdate_effect S _ w
  · exact answer_effect S _ _ w
  · exact commandQstop_effect S w
  · exact commandBabystep_effect S _ _ w
  · exact commandClearHalt_effect S w
  · exact same_effect S w
  · exact same_effect S w

theorem storeReg_effect (S : State) (v : Word) (r : Reg) (w : Work) : BusEffect S w (storeReg S v r w) := by
  unfold storeReg
  split
  · exact .record w.st.cmdres w.st.errFlags _ w.st.busRdata
  · exact .record w.st.cmdres _ w.st.irqEnable w.st.busRdata
  · exact .stage _ _
  · split
    · split
      · rename_i h; exact .locked _ _ h
      · exact flagError_effect S _ w
    · exact same_effect S w

/-- Whatever an instruction's access does is one of the listed effects. -/
theorem busStage_effect (S : State) (i : Instr) (w : Work) : BusEffect S w (busStage S i w) := by
  cases i with
  | rd addr =>
    show BusEffect S w (busRead S addr w)
    unfold busRead
    split
    · exact flagError_effect S _ w
    · exact .record w.st.cmdres w.st.errFlags w.st.irqEnable _
  | wr addr v =>
    show BusEffect S w (busWrite S addr v w)
    unfold busWrite
    split
    · exact flagError_effect S _ w
    · split
      · exact flagError_effect S _ w
      · exact command_effect S v w
      · exact storeReg_effect S v _ w
      · exact storeReg_effect S v _ w
      · exact storeReg_effect S v _ w
  | nop => exact answer_effect S _ _ w
  | push => exact commandPush_effect S w
  | update slot => exact commandUpdate_effect S slot w
  | estop => exact answer_effect S _ _ w
  | qstop => exact commandQstop_effect S w
  | babystep axis forward => exact commandBabystep_effect S axis forward w
  | clearHalt => exact commandClearHalt_effect S w

/-- Everything a step can be: a reset cycle, or the stages before the bus, one effect of the bus, and the interrupt stage. -/
theorem step_effect {s t : State} (h : step s = .next t) :
    (s.sample.rst = true ∧ t = advanceHost (resetCycle s))
    ∨ (s.sample.rst = false ∧ ∃ e clear w, (e = true → s.onBus = some .estop) ∧ (e = false → s.onBus ≠ some .estop)
        ∧ BusEffect s (beforeBus s e) w ∧ t = advanceHost (irqUpdate s clear w)) := by
  have hc : ∀ e clear bus, cycleWith s e clear bus = if s.sample.rst = true then resetCycle s else irqUpdate s clear (bus (beforeBus s e)) :=
    fun _ _ _ => rfl
  cases hr : s.sample.rst with
  | true =>
    left
    refine ⟨rfl, ?_⟩
    rcases step_cases h with ⟨r, i, _, _, e⟩ | ⟨_, e⟩ | ⟨_, _, _, _, e⟩
    · rw [e, hc, if_pos hr]
    · rw [e, idleCycle, hc, if_pos hr]
    · rw [e, illegalAccessCycle, hc, if_pos hr]
  | false =>
    right
    refine ⟨rfl, ?_⟩
    have hn : ¬s.sample.rst = true := by rw [hr]; decide
    rcases step_cases h with ⟨r, i, h1, h2, e⟩ | ⟨h1, e⟩ | ⟨r, x, h1, h2, e⟩
    · have hb : s.onBus = some i := by simp only [State.onBus, h1, h2]
      refine ⟨isEstop i, clears s i, busStage s i (beforeBus s (isEstop i)), fun he => ?_, fun he => ?_, busStage_effect s i _, by
        rw [e, hc, if_neg hn]⟩
      · rw [hb]
        cases i with
        | estop => rfl
        | wr addr v =>
          simp only [isEstop, isEstopWrite, Bool.and_eq_true, decide_eq_true_eq] at he
          obtain ⟨rfl, rfl⟩ := he
          exfalso
          revert h2
          unfold decode
          split
          · simp
          · split
            · simp
            · split
              · simp
              · split
                · rename_i hcmd
                  have hd : decodeCommand r.wdata = .ok .estop ∨ r.wdata ≠ 0x00000003#32 := by
                    by_cases hw : r.wdata = 0x00000003#32
                    · left; rw [hw]; decide
                    · exact .inr hw
                  rcases hd with hd | hd
                  · rw [hd]; simp
                  · split
                    · rename_i i hi
                      intro hh
                      simp only [Except.ok.injEq] at hh
                      subst hh
                      revert hi
                      unfold decodeCommand
                      split
                      · simp
                      · split
                        · simp
                        · split <;> simp
                    · intro hh
                      simp only [Except.ok.injEq, Instr.wr.injEq] at hh
                      exact hd hh.2
                · rename_i hcmd
                  intro hh
                  simp only [Except.ok.injEq, Instr.wr.injEq] at hh
                  exact hcmd hh.1
        | rd _ => simp [isEstop] at he
        | nop => simp [isEstop] at he
        | push => simp [isEstop] at he
        | update _ => simp [isEstop] at he
        | qstop => simp [isEstop] at he
        | babystep _ _ => simp [isEstop] at he
        | clearHalt => simp [isEstop] at he
      · rw [hb]
        intro hi
        simp only [Option.some.injEq] at hi
        rw [hi] at he
        simp [isEstop] at he
    · have hb : s.onBus = none := by simp only [State.onBus, h1]
      exact ⟨false, 0#5, beforeBus s false, by simp, by simp [hb], same_effect s _, by rw [e, idleCycle, hc, if_neg hn]; rfl⟩
    · have hb : s.onBus = none := by simp only [State.onBus, h1, h2]
      exact ⟨false, 0#5, flagError errBus (beforeBus s false), by simp, by simp [hb], flagError_effect s _ _, by
        rw [e, illegalAccessCycle, hc, if_neg hn]⟩

end Sys2Proof.Machine
end

