-- ==== Sys2Proof/Laws/Loads.lean ====
section
/-! SUPPORT. What a claim and a halt leave, said once in the terms of Safety (R118 to R121, R200): the direction latches channel by channel,
the claimed state, the halted state, and that the babystep start after them keeps both. -/

namespace Sys2Proof.Machine

/-! ### The direction latches (R120) -/

theorem latchDirections_moving (p : Params) (m : Memory) (sl : Nat) (d : ChannelMask) (a : Axis) (ha : a.val < p.A)
    (hm : (decodeBlock p m sl).moves a = true) :
    (latchDirections p (decodeBlock p m sl) d).getLsbD (channelOf p a.val (decodeBlock p m sl).ext) = (decodeBlock p m sl).forward a := by
  have hext := decodeBlock_ext p m sl
  generalize decodeBlock p m sl = b at *
  have hc : channelOf p a.val b.ext < 23 := by have := axisCount_le p; unfold channelOf; split <;> omega
  have hmoves : (channelMask p b.ext b.moves).getLsbD (channelOf p a.val b.ext) = true :=
    (getLsbD_channelMask _ _ _ _).2 ⟨hc, a, ha, hm, rfl⟩
  have hforward : (channelMask p b.ext (fun a => b.moves a && b.forward a)).getLsbD (channelOf p a.val b.ext) = b.forward a := by
    rw [Bool.eq_iff_iff, getLsbD_channelMask]
    constructor
    · rintro ⟨_, a', ha', hm', hc'⟩
      obtain rfl : a' = a := Fin.ext (channelOf_inj _ _ _ _ ha' ha hc')
      simp only [Bool.and_eq_true] at hm'
      exact hm'.2
    · intro hf
      exact ⟨hc, a, ha, by simp [hm, hf], rfl⟩
  simp only [latchDirections, BitVec.getLsbD_or, BitVec.getLsbD_and, BitVec.getLsbD_not, hmoves, hforward]
  simp

theorem latchDirections_still (p : Params) (b : Block) (d : ChannelMask) (c : Nat)
    (hc : ∀ a : Axis, a.val < p.A → b.moves a = true → channelOf p a.val b.ext ≠ c) :
    (latchDirections p b d).getLsbD c = d.getLsbD c := by
  have hmoves : (channelMask p b.ext b.moves).getLsbD c = false := by
    rw [Bool.eq_false_iff]
    intro h
    obtain ⟨_, a, ha, hm, e⟩ := (getLsbD_channelMask _ _ _ _).1 h
    exact hc a ha hm e
  have hforward : (channelMask p b.ext (fun a => b.moves a && b.forward a)).getLsbD c = false := by
    rw [Bool.eq_false_iff]
    intro h
    obtain ⟨_, a, ha, hm, e⟩ := (getLsbD_channelMask _ _ _ _).1 h
    simp only [Bool.and_eq_true] at hm
    exact hc a ha hm.1 e
  simp only [latchDirections, BitVec.getLsbD_or, BitVec.getLsbD_and, BitVec.getLsbD_not, hmoves, hforward]
  by_cases hw : c < 23
  · simp [hw]
  · simp [BitVec.getLsbD_of_ge d c (by omega)]

/-! ### The claim (R118) -/

/-- A claim loads its block, from any working state that has kept the latches, the selector and the settle count. -/
theorem claim_claimedBy {s : State} {sl : Nat} {w : Work} (hd : w.st.dirLat = s.dirLat) (he : w.st.extSel = s.extSel)
    (hs : w.st.settle.toNat = s.settle.toNat - 1) :
    ClaimedBy s (decodeBlock s.params s.mem sl)
      (claim s (decodeBlock s.params s.mem sl) (changesDirection s.params (decodeBlock s.params s.mem sl) s.dirLat) w).st := by
  have hD := decodeBlock_dominant_lt s.params s.mem sl
  have hin := decodeBlock_initial_lt s.params s.mem sl
  have hext := decodeBlock_ext s.params s.mem sl
  have hmoving := latchDirections_moving s.params s.mem sl s.dirLat
  have hI := ivl_le s (decodeBlock s.params s.mem sl).initial
  have hds := s.cfgDirSetup.isLt
  generalize decodeBlock s.params s.mem sl = b at *
  exact {
    eng := rfl
    stepIndex := rfl
    rate := ⟨by simp only [claim, BitVec.toNat_ofNat]; omega, rfl⟩
    phase := rfl
    errTerm := fun a ha => by
      show BitVec.toNat (PerAxis.update s.params w.st.errTerm _)[a] = _
      rw [update_get, if_pos ha, BitVec.toNat_ofNat]
      omega
    interval := by simp only [claim, BitVec.toNat_ofNat]; omega
    first_wait := by
      show (BitVec.ofNat 32 _).toNat = _
      rw [BitVec.toNat_ofNat]
      split <;> omega
    latched := fun a ha hm => by
      show (latchDirections s.params b w.st.dirLat).getLsbD _ = _
      rw [hd]
      exact hmoving a ha hm
    unlatched := fun c hc => by
      show (latchDirections s.params b w.st.dirLat).getLsbD _ = _
      rw [hd]
      exact latchDirections_still s.params b s.dirLat c hc
    extSel := by
      by_cases h : 1 ≤ s.params.NE
      · simp only [claim, h, if_true, BitVec.toNat_ofNat]
        omega
      · simp only [claim, h, if_false, he]
    settle := by
      cases hc : changesDirection s.params b s.dirLat
      · simp only [claim, Bool.false_eq_true, if_false, hs]
      · simp only [claim, if_true] }

/-- The stages after the engine keep what a claim loaded. -/
theorem claimedBy_rest {s n : State} {b : Block} (h : ClaimedBy s b n) (q : Babystep) (r : PerAxis (BitVec 16)) (i : BitVec 5) :
    ClaimedBy s b { n with bs := q, bsPending := r, irqStatus := i } :=
  ⟨h.eng, h.stepIndex, h.rate, h.phase, h.errTerm, h.interval, h.first_wait, h.latched, h.unlatched, h.extSel, h.settle⟩

/-! ### The halt (R200) -/

/-- A halt from a state not HALTED latches its fault and clears what R200 names, from any working state that has kept the rest. -/
theorem halt_haltedBy {s : State} {w : Work} (hr : s.eng ≠ .halted) (ht : w.st.tail = s.tail) (hb : w.st.bs = (counting s).bs)
    (hd : w.st.dirLat = s.dirLat) (he : w.st.extSel = s.extSel) (c : Cause) (k sl : Nat) (ax : AxisMask) :
    HaltedBy s { cause := c, check := BitVec.ofNat 4 k, slot := BitVec.ofNat 6 sl, axes := ax } (halt s c k sl ax w).st where
  eng := rfl
  fault := if_neg hr
  flushed := ⟨rfl, ht⟩
  cleared := ⟨rfl, rfl, rfl, rfl⟩
  stopped := ⟨rfl, rfl⟩
  homed := rfl
  pending := fun a ha => by show (PerAxis.update s.params w.st.bsPending _)[a] = _; rw [update_get, if_pos ha]
  sequence := by show (if s.babystepNotPulsed = true then _ else w.st.bs) = _; rw [hb]
  kept := ⟨hd, he⟩

/-- No babystep starts in a HALTED machine (R216). -/
theorem babystepStart_halted (S : State) (e : Bool) {n : State} (h : n.eng = .halted) : babystepStart S e n = n := by
  simp [babystepStart, babystepMayStart, h]

/-- The interrupt stage keeps what a halt left. -/
theorem haltedBy_rest {s n : State} {f : FaultRecord} (h : HaltedBy s f n) (i : BitVec 5) : HaltedBy s f { n with irqStatus := i } :=
  ⟨h.eng, h.fault, h.flushed, h.cleared, h.stopped, h.homed, h.pending, h.sequence, h.kept⟩

/-! ### The pulse (R101) -/

/-- A state that has the pulse of the counting stage begins none. -/
theorem pulseCountsOn_of {s t : State} (hp : t.pt = (counting s).pt) (hm : t.pmask = (counting s).pmask) : pulseCountsOn s t := by
  refine ⟨by rw [hp, counting_pt_toNat], ?_⟩
  rw [hm, (counting_pulse s).2.1]
  by_cases h : s.pt.toNat ≤ 1
  · rw [if_pos h, if_pos (by omega)]
  · rw [if_neg h, if_neg (by omega)]

end Sys2Proof.Machine
end

