-- ==== Sys2Proof/Laws/PerInstr.lean ====
section
/-! SUPPORT. Statements about every instruction, one lemma per constructor. `EncodingLegal`: the access that encodes a well-formed
instruction is a legal one, an aligned word access (R63, R81). -/

namespace Sys2Proof.Laws

/-- The access of a well-formed instruction has `bus_size` 2 and a word-aligned address. -/
def EncodingLegal.Statement (i : Instr) : Prop :=
  i.wellFormed = true → (encode i).size = 2#2 ∧ alignedAddr (encode i).addr = true

theorem EncodingLegal.rd (addr : Addr) : EncodingLegal.Statement (.rd addr) := fun h => ⟨rfl, h⟩

theorem EncodingLegal.wr (addr : Addr) (data : Word) : EncodingLegal.Statement (.wr addr data) := by
  intro h
  simp only [Instr.wellFormed, Bool.and_eq_true] at h
  exact ⟨rfl, h.1⟩

theorem EncodingLegal.nop : EncodingLegal.Statement .nop := fun _ => by decide

theorem EncodingLegal.push : EncodingLegal.Statement .push := fun _ => by decide

theorem EncodingLegal.update (slot : BitVec 6) : EncodingLegal.Statement (.update slot) := fun _ => ⟨rfl, by simp [encode, commandRequest, requestOfWord, alignedAddr]⟩

theorem EncodingLegal.estop : EncodingLegal.Statement .estop := fun _ => by decide

theorem EncodingLegal.qstop : EncodingLegal.Statement .qstop := fun _ => by decide

theorem EncodingLegal.babystep (axis : BitVec 4) (forward : Bool) : EncodingLegal.Statement (.babystep axis forward) := fun _ => ⟨rfl, by simp [encode, commandRequest, requestOfWord, alignedAddr]⟩

theorem EncodingLegal.clearHalt : EncodingLegal.Statement .clearHalt := fun _ => by decide

end Sys2Proof.Laws
end

