-- ==== Sys2Proof/Laws/Run.lean ====
section
/-! SUPPORT. What a run under fuel is: it stops at the first boundary at which a run ends, records one entry per cycle, and does not depend
on fuel it did not need. -/

namespace Sys2Proof.Machine

theorem runUnder_of_ended {s : State} (h : runEnded s = true) (n : Nat) :
    runUnder n s = { ended := true, final := s, trace := [], reads := [] } := by
  cases n with
  | zero => rw [runUnder, h]
  | succ n => rw [runUnder, if_pos h]

theorem runUnder_succ {s t : State} (h : runEnded s = false) (hs : step s = .next t) (n : Nat) :
    runUnder (n + 1) s = (runUnder n t).after s t := by
  rw [runUnder, if_neg (by simp [h]), hs]

/-- A run is over at once, or goes on with one step. -/
theorem runUnder_cases (n : Nat) (s : State) :
    (runEnded s = true ∧ runUnder (n + 1) s = { ended := true, final := s, trace := [], reads := [] })
    ∨ ∃ t, runEnded s = false ∧ step s = .next t ∧ runUnder (n + 1) s = (runUnder n t).after s t := by
  cases h : runEnded s
  · obtain ⟨t, ht⟩ := step_next s
    exact .inr ⟨t, rfl, ht, runUnder_succ h ht n⟩
  · exact .inl ⟨rfl, runUnder_of_ended h _⟩

/-- The run is reported ended exactly if R14's test holds of its last state. -/
theorem runUnder_ended_iff (n : Nat) (s : State) : (runUnder n s).ended = runEnded (runUnder n s).final := by
  induction n generalizing s with
  | zero => rfl
  | succ n ih =>
    rcases runUnder_cases n s with ⟨h, e⟩ | ⟨t, _, _, e⟩ <;> rw [e]
    · exact h.symm
    · exact ih t

/-- The run's states: every one before the last is not an end, the last is reached by one step per entry of the trace, and each entry
shows the outputs of its state. -/
theorem runUnder_first (n : Nat) (s : State) :
    ∃ σ : Nat → State, σ 0 = s ∧ σ (runUnder n s).trace.length = (runUnder n s).final
      ∧ ∀ j, (h : j < (runUnder n s).trace.length) →
          runEnded (σ j) = false ∧ step (σ j) = .next (σ (j + 1)) ∧ (runUnder n s).trace[j] = outputsOf (σ j) := by
  induction n generalizing s with
  | zero => exact ⟨fun _ => s, rfl, rfl, fun j h => absurd h (Nat.not_lt_zero j)⟩
  | succ n ih =>
    rcases runUnder_cases n s with ⟨_, e⟩ | ⟨t, hn, hs, e⟩ <;> simp only [e]
    · exact ⟨fun _ => s, rfl, rfl, fun j h => absurd h (Nat.not_lt_zero j)⟩
    · obtain ⟨σ, h0, hl, hj⟩ := ih t
      refine ⟨fun j => match j with | 0 => s | k + 1 => σ k, rfl, hl, fun j h => ?_⟩
      cases j with
      | zero => exact ⟨hn, hs.trans (congrArg _ h0.symm), rfl⟩
      | succ k => exact hj k (Nat.lt_of_succ_lt_succ h)

/-- More fuel than an ended run needed changes nothing. -/
theorem runUnder_fuel {n m : Nat} (s : State) (h : (runUnder n s).ended = true) (hm : n ≤ m) : runUnder m s = runUnder n s := by
  induction n generalizing s m with
  | zero => exact (runUnder_of_ended h m).trans (runUnder_of_ended h 0).symm
  | succ n ih =>
    rcases runUnder_cases n s with ⟨hr, e⟩ | ⟨t, hn, hs, e⟩
    · rw [e, runUnder_of_ended hr]
    · obtain ⟨m, rfl⟩ : ∃ k, m = k + 1 := ⟨m - 1, by omega⟩
      rw [e] at h ⊢
      rw [runUnder_succ hn hs, ih t h (by omega)]

end Sys2Proof.Machine
end

