-- ==== Sys2Proof/Tests/Slice0.lean ====
section
/-! SUPPORT. Tests, each a named theorem: ill-formed terms that WellFormed refuses, words written out from the encodings of R81 and R88,
one or two values of the spec's test vectors (95_test_vectors.md) per instruction, and for each statement of Certificates/Slice0 with
hypotheses a concrete state that meets them. -/

namespace Sys2Proof.Tests

open Sys2Proof.Machine

/-! ## Helpers -/

/-- The state of a `next` outcome. -/
def nextOf : Host.Outcome State Fault Refusal → State
  | .next t => t
  | .fault _ => State.reset
  | .refused _ => State.reset

/-- The reset state of CONFIG-T with the pins of its next cycle quiet. -/
def ready : State := { State.reset with pins := [Pins.quiet] }

/-- `s` with the emergency-stop pin high in its next cycle. -/
def withEstop (s : State) : State := { s with pins := [{ Pins.quiet with estopIn := true }] }

/-- `s` with the endstop of axis 0 high in its next cycle. -/
def withEndstop (s : State) : State := { s with pins := [{ Pins.quiet with endstopIn := 1#16 }] }

/-- The memory that lists the words `f 0 .. f 31` of slot `sl`. -/
def slotWords (sl : Nat) (f : Nat → Word) : Memory :=
  (List.range 32).flatMap fun w =>
    [(0x1000 + 0x80 * sl + 4 * w, (f w).extractLsb' 0 8), (0x1000 + 0x80 * sl + 4 * w + 1, (f w).extractLsb' 8 8),
     (0x1000 + 0x80 * sl + 4 * w + 2, (f w).extractLsb' 16 8), (0x1000 + 0x80 * sl + 4 * w + 3, (f w).extractLsb' 24 8)]

/-- The block of program P1: 5 steps of axis 0 and 3 of axis 1, forward, at 100,000 steps/s. -/
def blockP1 : Nat → Word
  | 0 => 0x0000000F#32
  | 1 => 100000#32
  | 2 => 100000#32
  | 3 => 100000#32
  | 6 => 5#32
  | 16 => 5#32
  | 17 => 3#32
  | _ => 0#32

/-- As `blockP1`, with word `i` replaced. -/
def blockWith (i : Nat) (v : Word) (w : Nat) : Word := if w = i then v else blockP1 w

/-- A state with the block in slot 0 and nothing running. -/
def queuedState (f : Nat → Word) : State := { ready with mem := slotWords 0 f, tail := 1#7 }

/-- A state with the block in slot 0 running, `i` steps done, every error term at its start value 3, and `c` cycles to the next step. -/
def runningState (f : Nat → Word) (i c : Word) : State :=
  { queuedState f with
    eng := .run, phase := .cruise, stepIndex := i, errTerm := Vector.replicate 16 3#32, rate := 100000#32, interval := 10#32, cd := c
    dirLat := 0b1111#23 }

/-- A HALTED state, after ESTOP. -/
def haltedState : State :=
  { ready with eng := .halted, fault := { cause := .estopCmd, check := 0#4, slot := 0#6, axes := 0#16 } }

/-- A state with a babystep sequence of axis 0 on its channel at position `k`, forward, not flipped. -/
def sequenceState (s : State) (flip : Bool) (len k : BitVec 18) : State :=
  { s with bs := { busy := true, axis := 0#4, ch := 0#5, dir := true, flip := flip, len := len, k := k } }

/-- CONFIG-T with three extruders, the part of R7's and R156's examples. -/
def threeExtruders : Params := { Params.configT with extruders := 3 }

/-- CONFIG-T without an extruder. -/
def bareParams : Params := { Params.configT with extruders := 0 }

/-- The states of a run from `s`. -/
def trail (s : State) : Nat → State
  | 0 => s
  | j + 1 => nextOf (step (trail s j))

theorem step_nextOf (s : State) : step s = .next (nextOf (step s)) := by
  obtain ⟨t, h⟩ := step_next s
  rw [h]; rfl

theorem step_trail (s : State) (j : Nat) : step (trail s j) = .next (trail s (j + 1)) := step_nextOf _

/-- The addresses of `m` rise from `lo`: a check in one pass. -/
def rising : Nat → Memory → Bool
  | _, [] => true
  | lo, c :: m => decide (lo ≤ c.1) && rising (c.1 + 1) m

theorem pairwise_of_rising (m : Memory) (lo : Nat) (h : rising lo m = true) :
    m.Pairwise (fun c d => c.1 < d.1) ∧ ∀ c ∈ m, lo ≤ c.1 := by
  induction m generalizing lo with
  | nil => simp
  | cons c m ih =>
    simp only [rising, Bool.and_eq_true, decide_eq_true_eq] at h
    obtain ⟨h1, h2⟩ := ih _ h.2
    refine ⟨List.pairwise_cons.2 ⟨fun d hd => h2 d hd, h1⟩, fun d hd => ?_⟩
    rcases List.mem_cons.1 hd with rfl | hd
    · exact h.1
    · have := h2 d hd
      omega

/-- The invariants of R55 from facts that evaluate. -/
theorem inv_of (s : State)
    (h : (rising 0 s.mem = true ∧ ∀ c ∈ s.mem, Memory.unlisted c.1 ≠ some c.2) ∧ 1 ≤ s.cfgPulseWidth.toNat ∧ 1 ≤ s.cfgMinRate.toNat ∧ s.depth ≤ s.params.N
      ∧ (s.eng = .run → 1 ≤ s.depth ∧ 1 ≤ s.cd.toNat ∧ s.phase ≠ .none ∧ s.cfgPulseWidth.toNat + 1 ≤ s.interval.toNat
          ∧ validate s.params s.headBlock = 0 ∧ s.stepIndex.toNat < s.headBlock.dominant s.params
          ∧ ∀ a : Axis, a.val < s.params.A → 1 ≤ s.errTerm[a].toNat ∧ s.errTerm[a].toNat ≤ s.headBlock.dominant s.params)
      ∧ (s.eng ≠ .run → s.cd = 0#32 ∧ s.phase = .none) ∧ (s.eng = .halted → s.depth = 0)
      ∧ (s.stopping = true → s.eng = .run ∧ s.phase = .decel) ∧ (s.pt = 0#16 → s.pmask = 0#23)
      ∧ (s.bs.busy = true → 1 ≤ s.bs.k.toNat ∧ s.bs.k.toNat ≤ s.bs.len.toNat) ∧ s.rem.toNat < s.params.fTimer) : Inv s := by
  obtain ⟨h1, h2, h3, h4, h5, h6, h7, h8, h9, h10, h11⟩ := h
  refine ⟨⟨(pairwise_of_rising _ _ h1.1).1, h1.2⟩, h2, h3, h4, fun hr => ?_, h6, h7, h8, h9, h10, h11, fun i j _ _ hi hj => ?_⟩
  · obtain ⟨r1, r2, r3, r4, r5, r6, r7⟩ := h5 hr
    exact ⟨r1, r2, r3, r4, r5, r6, r7⟩
  · simp only [State.busySlot, Bool.and_eq_true, decide_eq_true_eq] at hi hj
    omega

/-- The pulse invariants from facts that evaluate. -/
theorem pulseInv_of (s : State)
    (h : s.pt.toNat ≤ s.cfgPulseWidth.toNat ∧ (s.eng = .run → s.pt.toNat < s.cd.toNat) ∧ (s.bs.busy = true → s.pt = 0#16)
      ∧ (s.bs.busy = true → s.bs.len.toNat = babystepLength s s.bs.flip)
      ∧ (s.bs.busy = true → s.eng = .run → s.bs.len.toNat + 2 ≤ s.cd.toNat + s.bs.k.toNat)
      ∧ (s.eng = .halted → s.bs.busy = true → s.bs.flip = true → s.cfgDirSetup.toNat < s.bs.k.toNat)) : PulseInv s :=
  ⟨h.1, h.2.1, h.2.2.1, h.2.2.2.1, h.2.2.2.2.1, h.2.2.2.2.2⟩

/-! ## WellFormed refuses -/

/-- R63. -/
theorem test_misaligned_rd_refused : (Instr.rd 0x006#14).wellFormed = false := by decide
/-- R63. -/
theorem test_misaligned_wr_refused : (Instr.wr 0x041#14 0#32).wellFormed = false := by decide
/-- R88: this write is UPDATE of slot 1. -/
theorem test_command_as_wr_refused : (Instr.wr 0x010#14 0x00000102#32).wellFormed = false := by decide

/-! ## Words of the encodings -/

/-- R81: RD of STATUS, W = 0, SZ = 2, ADDR = 0x0008. -/
theorem test_decode_rd : decodeTableWord 24 0x08008 = some (.rd 0x008#14) := by decide
/-- R81: WR of STAGE[16], W = 1, SZ = 2, ADDR = 0x0840. -/
theorem test_decode_wr : decodeTableWord 24 0x18840 = some (.wr 0x840#14 0#32) := by decide
/-- R88. -/
theorem test_decode_nop : decodeTableWord 32 0x00 = some .nop := by decide
/-- R88. -/
theorem test_decode_push : decodeTableWord 32 0x01 = some .push := by decide
/-- R88: SLOT 1 in bits 13 to 8; and the highest slot. -/
theorem test_decode_update :
    decodeTableWord 32 0x0102 = some (.update 1#6) ∧ decodeTableWord 32 0x3F02 = some (.update 63#6) := by decide
/-- R88. -/
theorem test_decode_estop : decodeTableWord 32 0x03 = some .estop := by decide
/-- R88. -/
theorem test_decode_qstop : decodeTableWord 32 0x04 = some .qstop := by decide
/-- R88: AXIS in bits 11 to 8, BDIR in bit 12 (program P7 writes 0x1105). -/
theorem test_decode_babystep :
    decodeTableWord 32 0x1105 = some (.babystep 1#4 true) ∧ decodeTableWord 32 0x0305 = some (.babystep 3#4 false) := by decide
/-- R88. -/
theorem test_decode_clearHalt : decodeTableWord 32 0x06 = some .clearHalt := by decide
/-- R63, R81: SZ = 0 (program P8 writes 0x10800), SZ = 1, SZ = 3, and an address not a multiple of 4, are no instruction. -/
theorem test_decode_rejects :
    decodeTableWord 24 0x10800 = none ∧ decodeTableWord 24 0x04008 = none ∧ decodeTableWord 24 0x0C008 = none
      ∧ decodeTableWord 24 0x08009 = none := by decide
/-- R89: reserved bits and unknown opcodes stay writes to CMD. -/
theorem test_decode_bad_commands :
    decode (commandRequest 0x00000201#32) = .ok (.wr 0x010#14 0x00000201#32)
      ∧ decode (commandRequest 0x00004002#32) = .ok (.wr 0x010#14 0x00004002#32)
      ∧ decode (commandRequest 0x00002005#32) = .ok (.wr 0x010#14 0x00002005#32)
      ∧ decode (commandRequest 0x000000FF#32) = .ok (.wr 0x010#14 0x000000FF#32) := by decide

/-- R83's examples: 0x0800000E is axis 0 backward, axes 1 to 3 forward, dominant axis 0, homing; 0x00010003 is axes 0 and 1 forward, the others
backward, dominant axis 1. -/
theorem test_decode_flags :
    (let b := decodeBlock Params.configT (slotWords 0 (blockWith 0 0x0800000E#32)) 0;
      b.forward 0 = false ∧ b.forward 1 = true ∧ b.forward 3 = true ∧ b.dom = 0 ∧ b.homing = true)
    ∧ (let b := decodeBlock Params.configT (slotWords 0 (blockWith 0 0x00010003#32)) 0;
      b.forward 0 = true ∧ b.forward 1 = true ∧ b.forward 2 = false ∧ b.dom = 1 ∧ b.homing = false) := by decide

/-! ## One step of each instruction -/

/-- Program P8: STATUS reads 0x10AC (4268) when idle. -/
theorem test_rd_status : (nextOf (exec (.rd 0x008#14) ready)).busRdata = 4268#32 := by decide
/-- R21 for CONFIG-T. -/
theorem test_rd_params : (nextOf (exec (.rd 0x004#14) ready)).busRdata = 0x2104#32 := by decide
/-- Program P8: CFG_PULSE_WIDTH stores 1 for 0, and 5 for 0x10005. -/
theorem test_wr_pulse_width :
    (nextOf (exec (.wr 0x044#14 0#32) ready)).cfgPulseWidth = 1#16
      ∧ (nextOf (exec (.wr 0x044#14 0x00010005#32) ready)).cfgPulseWidth = 5#16 := by decide
/-- Program P8: the command word 0xFF leaves 65426 in CMDRES. -/
theorem test_wr_unknown_command : (nextOf (exec (.wr 0x010#14 0xFF#32) ready)).cmdres.word = 65426#32 := by decide
/-- R29, R173. -/
theorem test_nop : (nextOf (exec .nop ready)).cmdres.word = 0x001#32 := by decide
/-- Program P1: CMDRES is 257 after PUSH. R171: TAIL becomes 1. -/
theorem test_push : (nextOf (exec .push ready)).cmdres.word = 257#32 ∧ (nextOf (exec .push ready)).tail = 1#7 := by decide
/-- R172: slot 0 of an empty buffer is not queued: RESULT 2, REASON 4, opcode 2. -/
theorem test_update_rejected : (nextOf (exec (.update 0#6) ready)).cmdres.word = 0x0242#32 := by decide
/-- Program P2: FAULT is 2 after ESTOP, and ENG is 2. -/
theorem test_estop : (nextOf (exec .estop ready)).fault.word = 2#32 ∧ (nextOf (exec .estop ready)).eng.code = 2#2 := by decide
/-- R175 on an idle machine: QSTOP_DONE alone. -/
theorem test_qstop_idle : (nextOf (exec .qstop ready)).irqStatus = 0b10000#5 := by decide
/-- Program P7: the command 0x1105 counts one forward step for axis 1. -/
theorem test_babystep : (nextOf (exec (.babystep 1#4 true) ready)).bsPending[1] = 1#16 := by decide
/-- Program P8: CMDRES is 1537 after an accepted CLEAR_HALT. -/
theorem test_clearHalt : (nextOf (exec .clearHalt haltedState)).cmdres.word = 1537#32 := by decide
/-- R177 on a machine not HALTED: RESULT 2, REASON 7, opcode 6. -/
theorem test_clearHalt_rejected : (nextOf (exec .clearHalt ready)).cmdres.word = 0x0672#32 := by decide

/-! ## States that meet the hypotheses of the statements -/

/-- In a reset cycle. -/
theorem test_meets_ResetOverridesEverything : ({ ready with pins := [{ Pins.quiet with rst := true }] } : State).sample.rst = true := by decide

theorem resetValues_ready : ResetValues ready where
  eng := rfl
  phase := rfl
  stopping := rfl
  indices := ⟨rfl, rfl⟩
  fault := by decide
  cmdres := by decide
  stage := by decide
  stepIndex := rfl
  rates := ⟨rfl, rfl, rfl, rfl⟩
  pulse := ⟨rfl, rfl, rfl⟩
  outputs := ⟨rfl, rfl⟩
  homed := rfl
  axes := by decide
  bs := rfl
  events := ⟨rfl, rfl, rfl⟩
  masks := ⟨rfl, rfl, rfl, rfl, rfl⟩
  timing := ⟨rfl, rfl, rfl, rfl⟩

/-- The reset values, and addresses on both sides of STAGE. -/
theorem test_meets_ResetLeavesResetValues : ResetValues ready ∧ 0x7FF < 0x800 ∧ 0x880 ≤ 0x880 := ⟨resetValues_ready, by decide, by decide⟩

/-- A host with a legal access, none, an illegal one; and the three lines that use up a cycle. -/
theorem test_meets_StepRunsDecodedInstruction :
    (let s : State := { ready with host := [.access (encode .nop)] };
      hostRequest s.host = some (encode .nop) ∧ decode (encode .nop) = .ok .nop ∧ exec .nop s = .next (nextOf (exec .nop s)))
    ∧ hostRequest ready.host = none
    ∧ (let r := requestOfWord 0x10800#17 5#32;
      hostRequest [.access r] = some r ∧ decode r = .error .badSize)
    ∧ ({ ready with host := [.poll 0x008#14 0x80#32 0x80#32] } : State).host = .poll 0x008#14 0x80#32 0x80#32 :: []
    ∧ ({ ready with host := [.wait 1] } : State).host = .wait (0 + 1) :: []
    ∧ ({ ready with host := [.wait 0, .wait 1] } : State).host = .wait 0 :: [.wait 1] ∧ ready.host = [] :=
  ⟨⟨rfl, by decide, rfl⟩, by decide, by decide, rfl, rfl, rfl, rfl⟩

/-- The lowest and highest addresses, and CMD with a word that is no command. -/
theorem test_meets_DecodeEncodeRoundTrip :
    (Instr.rd 0x000#14).wellFormed = true ∧ (Instr.rd 0x3FFC#14).wellFormed = true ∧ (Instr.wr 0x3FFC#14 0xFFFFFFFF#32).wellFormed = true
      ∧ (Instr.wr 0x010#14 0x07#32).wellFormed = true ∧ (Instr.wr 0x014#14 0x01#32).wellFormed = true
      ∧ (Instr.update 63#6).wellFormed = true ∧ (Instr.babystep 15#4 false).wellFormed = true := by decide

/-- Accesses that decode, one of them a command. -/
theorem test_meets_EncodeOfDecodedAccess :
    decode (requestOfWord 0x08008#17 0x55#32) = .ok (.rd 0x008#14) ∧ decode (commandRequest 0x06#32) = .ok .clearHalt := by decide

/-- The first unknown opcode and the last; and the lowest reserved bit of NOP, UPDATE and BABYSTEP. -/
theorem test_meets_ReservedCommandWordsOnlyRecord :
    ready.sample.rst = false ∧ 7 ≤ ((0x07#32).extractLsb' 0 8).toNat ∧ 7 ≤ ((0xFF#32).extractLsb' 0 8).toNat
      ∧ (((0x100#32).extractLsb' 0 8).toNat < 7 ∧ (0x100#32).extractLsb' 0 8 = 0#8 ∧ 0x100#32 &&& 0xFFFFFF00#32 ≠ 0#32)
      ∧ (((0x4002#32).extractLsb' 0 8).toNat < 7 ∧ (0x4002#32).extractLsb' 0 8 = 2#8 ∧ 0x4002#32 &&& 0xFFFFC000#32 ≠ 0#32)
      ∧ (((0x2005#32).extractLsb' 0 8).toNat < 7 ∧ (0x2005#32).extractLsb' 0 8 = 5#8 ∧ 0x2005#32 &&& 0xFFFFE000#32 ≠ 0#32) := by
  decide

/-- The bytes next to a word. -/
theorem test_meets_WordsAreLittleEndian : 3 < 4 ∧ (0x7FF < 0x800 ∨ 0x800 + 4 ≤ 0x7FF) ∧ (0x804 < 0x800 ∨ 0x800 + 4 ≤ 0x804) := by decide

/-- The last axis and slot of CONFIG-T. -/
theorem test_meets_RegisterMap :
    (3 : Axis).val < Params.configT.A ∧ (3 : Fin 64).val < Params.configT.N ∧ Params.configT.A = 4 ∧ Params.configT.N = 4 := by decide

/-- An address of each kind of hole, at the ends of each range; and the axes past the last. -/
theorem test_meets_HolesAndAccessClasses :
    ((0x002#14).toNat % 4 ≠ 0 ∧ (0x07C#14).toNat = 0x07C ∧ 0x1CC ≤ (0x1CC#14).toNat ∧ (0x7FC#14).toNat < 0x800 ∧ 0x880 ≤ (0x880#14).toNat
      ∧ (0xFFC#14).toNat < 0x1000 ∧ 0x1000 + 0x80 * Params.configT.N ≤ (0x1200#14).toNat)
    ∧ Params.configT.A ≤ 4 ∧ 15 < 16 := by decide

theorem test_meets_BusErrorsOnlyRecord : ready.sample.rst = false ∧ regAt ready.params 0x07C#14 = none := by decide

theorem test_meets_ReadReturnsRegister :
    ready.sample.rst = false ∧ regAt ready.params 0x008#14 = some .status ∧ regAt ready.params 0x11FC#14 = some (.slot 3 31) := by decide

/-- No sequence, a sequence, and the ends of a word. -/
theorem test_meets_RegisterFormats :
    ready.bs.busy = false ∧ (sequenceState ready true 3#18 1#18).bs.busy = true ∧ 0 < 32 ∧ 31 < 32 := by decide

/-- A read-only register, and a locked one of a running machine. -/
theorem test_meets_RefusedWritesOnlyRecord :
    (let s := runningState blockP1 0#32 5#32;
      s.sample.rst = false ∧ ¬UnlockedState s ∧ regAt s.params 0x008#14 = some .status ∧ Reg.accessClass .status = .ro
        ∧ regAt s.params 0x044#14 = some .cfgPulseWidth ∧ Reg.accessClass .cfgPulseWidth = .rwLocked) := by decide

theorem test_meets_ConfigurationWritesStore :
    (ready.sample.rst = false ∧ UnlockedState ready) ∧ haltedState.sample.rst = false ∧ UnlockedState haltedState := by decide

theorem test_meets_PositionWritesStore :
    ready.sample.rst = false ∧ UnlockedState ready ∧ (0 : Axis).val < ready.params.A ∧ (3 : Axis).val < ready.params.A := by decide

theorem test_meets_StageWritesStore :
    ready.sample.rst = false ∧ 31 < 32 ∧ 31 ≠ (30 : Fin 32).val ∧ (0x803 < 0x800 + 4 * (1 : Fin 32).val ∨ 0x804 + 4 * (1 : Fin 32).val ≤ 0x803)
      ∧ (0x808 < 0x800 + 4 * (1 : Fin 32).val ∨ 0x804 + 4 * (1 : Fin 32).val ≤ 0x808) := by decide

/-- Also for EnableAndErrorWrites, EventsWinOverClears and NopOnlyAccepts. -/
theorem test_meets_outside_reset : ready.sample.rst = false := by decide

/-- From a running machine to an idle one, and from an idle one to the same. -/
theorem test_meets_EventsWinOverClears_idle :
    (IdleState ready ∧ ¬IdleState (runningState blockP1 0#32 5#32)) ∧ ¬(IdleState ready ∧ ¬IdleState ready) := by decide

/-- PUSH while HALTED, in a controlled stop, into a full buffer, and accepted; and a byte on each side of the slot. -/
theorem test_meets_PushAppendsStagedBlock :
    (haltedState.sample.rst = false ∧ (idleCycle haltedState).eng = .halted)
    ∧ (let s : State := { runningState blockP1 0#32 5#32 with stopping := true, phase := .decel };
      s.sample.rst = false ∧ (idleCycle s).eng ≠ .halted ∧ (idleCycle s).stopping = true)
    ∧ (let s : State := { runningState blockP1 0#32 5#32 with tail := 4#7 };
      s.sample.rst = false ∧ (idleCycle s).eng ≠ .halted ∧ (idleCycle s).stopping = false ∧ s.depth = s.params.N)
    ∧ (let s : State := { runningState blockP1 0#32 5#32 with tail := 3#7 };
      s.sample.rst = false ∧ (idleCycle s).eng ≠ .halted ∧ (idleCycle s).stopping = false ∧ s.depth ≠ s.params.N)
    ∧ (0xFFF < 0x1000 + 0x80 * 0 ∨ 0x1080 + 0x80 * 0 ≤ 0xFFF) ∧ (0x1080 < 0x1000 + 0x80 * 0 ∨ 0x1080 + 0x80 * 0 ≤ 0x1080) := by
  decide

/-- UPDATE of a slot past the last, while HALTED, of a slot not queued, of the busy slot, and accepted. -/
theorem test_meets_UpdateRewritesQueuedBlock :
    (ready.sample.rst = false ∧ ready.params.N ≤ (4#6).toNat)
    ∧ (haltedState.sample.rst = false ∧ (3#6).toNat < haltedState.params.N ∧ (idleCycle haltedState).eng = .halted)
    ∧ (let s : State := { runningState blockP1 0#32 5#32 with tail := 2#7 };
      s.sample.rst = false ∧ (idleCycle s).eng ≠ .halted
        ∧ (2 < s.params.N ∧ (s.queued 2 = false ∨ (idleCycle s).queued 2 = false))
        ∧ (0 < s.params.N ∧ ¬(s.queued 0 = false ∨ (idleCycle s).queued 0 = false) ∧ (s.busySlot 0 = true ∨ (idleCycle s).busySlot 0 = true))
        ∧ (1 < s.params.N ∧ ¬(s.queued 1 = false ∨ (idleCycle s).queued 1 = false)
          ∧ ¬(s.busySlot 1 = true ∨ (idleCycle s).busySlot 1 = true))) := by decide

theorem test_meets_EstopHalts :
    ready.sample.rst = false ∧ (withEstop ready).sample.rst = false ∧ (withEstop ready).sample.estopIn = true := by decide

/-- QSTOP while HALTED, while IDLE, at a rate equal to CFG_MIN_RATE, and one step/s above it. -/
theorem test_meets_QstopStops :
    (idleCycle haltedState).eng = .halted ∧ (idleCycle ready).eng = .idle
    ∧ (let s : State := { runningState blockP1 0#32 5#32 with rate := 1#32 };
      s.sample.rst = false ∧ (idleCycle s).eng = .run ∧ (idleCycle s).rate.toNat ≤ s.cfgMinRate.toNat)
    ∧ (let s : State := { runningState blockP1 0#32 5#32 with rate := 2#32 };
      s.sample.rst = false ∧ (idleCycle s).eng = .run ∧ s.cfgMinRate.toNat < (idleCycle s).rate.toNat) := by decide

/-- BABYSTEP of an axis past the last, while HALTED, past the greatest and the least count, and up to them. -/
theorem test_meets_BabystepCountsRequest :
    (ready.sample.rst = false ∧ ready.params.A ≤ (4#4).toNat)
    ∧ (haltedState.sample.rst = false ∧ (3#4).toNat < haltedState.params.A ∧ (idleCycle haltedState).eng = .halted)
    ∧ (let s : State := { runningState blockP1 0#32 2#32 with bsPending := (Vector.replicate 16 0#16).set 3 0x7FFF#16 };
      s.sample.rst = false ∧ (3#4).toNat < s.params.A ∧ (idleCycle s).eng ≠ .halted
        ∧ 32767 < (idleCycle s).bsPending[(3#4).toFin].toInt + 1)
    ∧ (let s : State := { runningState blockP1 0#32 2#32 with bsPending := (Vector.replicate 16 0#16).set 3 0x8000#16 };
      (idleCycle s).bsPending[(3#4).toFin].toInt + -1 < -32768)
    ∧ (let s : State := { runningState blockP1 0#32 2#32 with bsPending := (Vector.replicate 16 0#16).set 3 0x7FFE#16 };
      -32768 ≤ (idleCycle s).bsPending[(3#4).toFin].toInt + 1 ∧ (idleCycle s).bsPending[(3#4).toFin].toInt + 1 ≤ 32767)
    ∧ (let s : State := { runningState blockP1 0#32 2#32 with bsPending := (Vector.replicate 16 0#16).set 3 0x8001#16 };
      -32768 ≤ (idleCycle s).bsPending[(3#4).toFin].toInt + -1 ∧ (idleCycle s).bsPending[(3#4).toFin].toInt + -1 ≤ 32767) := by decide

theorem test_meets_ClearHaltReturnsToIdle :
    ((withEstop haltedState).sample.rst = false ∧ (withEstop haltedState).sample.estopIn = true)
    ∧ (ready.sample.rst = false ∧ ready.sample.estopIn = false ∧ ready.eng ≠ .halted)
    ∧ (haltedState.sample.rst = false ∧ haltedState.sample.estopIn = false ∧ haltedState.eng = .halted) := by decide

/-- Between two step events, idle with nothing queued, and HALTED. -/
theorem test_meets_EngineBetweenEvents :
    (let s := runningState blockP1 0#32 2#32;
      s.sample.rst = false ∧ s.sample.estopIn = false ∧ s.eng = .run ∧ s.cd ≠ 1#32)
    ∧ (ready.eng = .idle ∧ ready.depth = 0) ∧ haltedState.eng = .halted := by decide

set_option maxRecDepth 20000 in
/-- A part without and one with extruders (R7's example); and the dominant axis of a block, the last of the part, and one past it. -/
theorem test_meets_ClaimLoadsBlock_decode :
    bareParams.NE = 0 ∧ 1 ≤ Params.configT.NE
    ∧ (let b := (queuedState (blockWith 0 0x0003000F#32)).headBlock; (3 : Axis).val = b.dom ∧ (3 : Axis).val < Params.configT.A)
    ∧ Params.configT.A ≤ (queuedState (blockWith 0 0x0004000F#32)).headBlock.dom := by decide

set_option maxRecDepth 20000 in
/-- A claim that turns two axes, and one that turns none while a pulse is out. -/
theorem test_meets_ClaimLoadsBlock :
    (let s := queuedState blockP1;
      s.sample.rst = false ∧ s.sample.estopIn = false ∧ s.eng = .idle ∧ s.bs.busy = false ∧ s.depth ≠ 0
        ∧ validate s.params s.headBlock = 0 ∧ changesDirection s.params s.headBlock s.dirLat = true ∧ s.pt = 0#16)
    ∧ (let s : State := { queuedState blockP1 with dirLat := 0b11#23, pt := 1#16 };
      s.eng = .idle ∧ s.depth ≠ 0 ∧ validate s.params s.headBlock = 0 ∧ changesDirection s.params s.headBlock s.dirLat = false) := by
  decide

set_option maxRecDepth 20000 in
/-- A load held up by a sequence, and one held up by a pulse. -/
theorem test_meets_LoadWaits :
    (let s := sequenceState (queuedState blockP1) false 1#18 1#18;
      s.sample.rst = false ∧ s.sample.estopIn = false ∧ s.eng = .idle ∧ s.bs.busy = true ∧ s.depth ≠ 0)
    ∧ (let s : State := { queuedState blockP1 with pt := 1#16 };
      s.eng = .idle ∧ s.bs.busy = false ∧ validate s.params s.headBlock = 0 ∧ changesDirection s.params s.headBlock s.dirLat = true ∧ s.pt ≠ 0#16) := by
  decide

set_option maxRecDepth 20000 in
/-- A block that fails each check of R116, at the boundary of the check: DOM 4, D 0, an axis with D + 1 steps, DA = AU - 1, DA = D + 1, EXT 1. -/
theorem test_meets_BadBlockHalts :
    (∀ fc ∈ [(blockWith 0 0x0004000F#32, 1), (blockWith 16 0#32, 2), (blockWith 17 6#32, 3), (blockWith 5 6#32, 4), (blockWith 6 6#32, 5),
        (blockWith 0 0x0010000F#32, 6)],
      let s := queuedState fc.1;
      s.sample.rst = false ∧ s.sample.estopIn = false ∧ s.eng = .idle ∧ s.bs.busy = false ∧ s.depth ≠ 0
        ∧ validate s.params s.headBlock = fc.2)
    ∧ validate (queuedState blockP1).params (queuedState blockP1).headBlock = 0 := by decide

/-- The block of P1 with the HOMING flag. -/
def homingBlock : Nat → Word := blockWith 0 0x0800000F#32

/-- A step event of `f` in the next cycle, with the endstop of axis 0 enabled, in the direction of motion, and active. -/
def triggeredState (f : Nat → Word) : State := { withEndstop (runningState f 0#32 1#32) with cfgEsEn := 1#16, cfgEsDir := 1#16 }

set_option maxRecDepth 20000 in
theorem test_meets_EndstopFaultHalts :
    (let s := triggeredState blockP1;
      s.sample.rst = false ∧ s.sample.estopIn = false ∧ s.eng = .run ∧ s.cd = 1#32
        ∧ endstopSample s s.sample.endstopIn s.headBlock ≠ 0#16 ∧ s.headBlock.homing = false) := by decide

set_option maxRecDepth 20000 in
/-- A homing block that is the last queued; and one in a controlled stop. -/
theorem test_meets_HomingAbortRetiresBlock :
    (let s := triggeredState homingBlock;
      s.sample.rst = false ∧ s.sample.estopIn = false ∧ s.eng = .run ∧ s.cd = 1#32
        ∧ endstopSample s s.sample.endstopIn s.headBlock ≠ 0#16 ∧ s.headBlock.homing = true
        ∧ s.stopping = false ∧ depth s.params (nextIndex s.params s.head) s.tail = 0)
    ∧ (let s : State := { triggeredState homingBlock with stopping := true, phase := .decel };
      s.eng = .run ∧ s.cd = 1#32 ∧ endstopSample s s.sample.endstopIn s.headBlock ≠ 0#16 ∧ s.headBlock.homing = true ∧ s.stopping = true) := by
  decide

/-- A homing block about to abort, with the block `g` queued behind it. -/
def homingThen (g : Nat → Word) : State :=
  { triggeredState homingBlock with mem := slotWords 0 homingBlock ++ slotWords 1 g, tail := 2#7 }

set_option maxRecDepth 40000 in
/-- Behind the aborted block: one that keeps the directions, one that turns axis 0 with no pulse out and with one in its last cycle, one
held up by a sequence, and a bad one. -/
theorem test_meets_HomingAbortRetiresBlock_queued :
    (let s := homingThen blockP1;
      let b := decodeBlock s.params s.mem (slotOf s.params (nextIndex s.params s.head));
      s.sample.rst = false ∧ s.sample.estopIn = false ∧ s.eng = .run ∧ s.cd = 1#32
        ∧ endstopSample s s.sample.endstopIn s.headBlock ≠ 0#16 ∧ s.headBlock.homing = true ∧ s.stopping = false
        ∧ depth s.params (nextIndex s.params s.head) s.tail ≠ 0 ∧ s.bs.busy = false ∧ validate s.params b = 0
        ∧ changesDirection s.params b s.dirLat = false)
    ∧ (let s := homingThen (blockWith 0 0x0000000E#32);
      let b := decodeBlock s.params s.mem (slotOf s.params (nextIndex s.params s.head));
      validate s.params b = 0 ∧ changesDirection s.params b s.dirLat = true ∧ s.pt = 0#16
        ∧ ({ s with pt := 1#16, pmask := 1#23 } : State).pt ≠ 0#16)
    ∧ (sequenceState (homingThen blockP1) false 1#18 1#18).bs.busy = true
    ∧ (let s := homingThen (blockWith 6 6#32);
      let b := decodeBlock s.params s.mem (slotOf s.params (nextIndex s.params s.head));
      s.bs.busy = false ∧ validate s.params b ≠ 0) := by decide

set_option maxRecDepth 20000 in
/-- The invariants hold in a running state, 1 and 3 cycles before its step. -/
theorem inv_running : Inv (runningState blockP1 0#32 1#32) ∧ Inv (runningState blockP1 0#32 3#32) :=
  ⟨inv_of _ (by decide), inv_of _ (by decide)⟩

set_option maxRecDepth 20000 in
/-- The first step event of P1's block: axis 0, the dominant one, and axis 1 pulse, and axis 2, with no steps, does not. -/
theorem test_meets_StepEventEmits :
    (let s := runningState blockP1 0#32 1#32;
      Inv s ∧ s.sample.rst = false ∧ s.sample.estopIn = false ∧ s.eng = .run ∧ s.cd = 1#32
        ∧ endstopSample s s.sample.endstopIn s.headBlock = 0#16
        ∧ s.stepIndex.toNat + 1 < s.headBlock.dominant s.params ∧ (0 : Axis).val = s.headBlock.dom
        ∧ s.headBlock.dominant s.params < s.errTerm[(1 : Axis)].toNat + s.headBlock.steps[(1 : Axis)]
        ∧ s.headBlock.steps[(2 : Axis)] = 0) := ⟨inv_running.1, by decide⟩

/-- A state about to do the last step of P1's block, with the block `g` behind it. -/
def lastStepState (g : Nat → Word) (tail : QueueIndex) : State :=
  { runningState blockP1 4#32 1#32 with mem := slotWords 0 blockP1 ++ slotWords 1 g, tail := tail }

set_option maxRecDepth 40000 in
/-- The last step with nothing behind, a block behind that keeps the directions, one that turns axis 0, and a bad one. -/
theorem test_meets_LastStepRetiresBlock :
    (let s := lastStepState blockP1 1#7;
      s.sample.rst = false ∧ s.sample.estopIn = false ∧ s.eng = .run ∧ s.cd = 1#32 ∧ s.bs.busy = false
        ∧ endstopSample s s.sample.endstopIn s.headBlock = 0#16 ∧ s.stepIndex.toNat + 1 = s.headBlock.dominant s.params
        ∧ s.stopping = false ∧ s.depth = 1)
    ∧ (let s := lastStepState blockP1 2#7;
      let b := decodeBlock s.params s.mem (slotOf s.params (nextIndex s.params s.head));
      1 < s.depth ∧ validate s.params b = 0 ∧ changesDirection s.params b s.dirLat = false)
    ∧ (let s := lastStepState (blockWith 0 0x0000000E#32) 2#7;
      let b := decodeBlock s.params s.mem (slotOf s.params (nextIndex s.params s.head));
      1 < s.depth ∧ validate s.params b = 0 ∧ changesDirection s.params b s.dirLat = true)
    ∧ (let s := lastStepState (blockWith 6 6#32) 2#7;
      let b := decodeBlock s.params s.mem (slotOf s.params (nextIndex s.params s.head));
      1 < s.depth ∧ validate s.params b ≠ 0) := by decide

set_option maxRecDepth 40000 in
/-- The invariants hold there, in a controlled stop too. -/
theorem test_inv_LastStepRetiresBlock :
    Inv (lastStepState blockP1 2#7) ∧ Inv { lastStepState blockP1 2#7 with stopping := true, phase := .decel } :=
  ⟨inv_of _ (by decide), inv_of _ (by decide)⟩

/-- A step event of a controlled stop in which the rate falls from 100,000 by `acc` times 10 microseconds. -/
def stoppingState (acc : Word) : State := { runningState (blockWith 4 acc) 0#32 1#32 with stopping := true, phase := .decel }

set_option maxRecDepth 20000 in
/-- An ordinary event, one of a stop that goes on at rate 2, and one of a stop that ends at rate 1, CFG_MIN_RATE. -/
theorem test_meets_StepEventSchedulesNext :
    (let s := runningState blockP1 0#32 1#32;
      s.sample.rst = false ∧ s.sample.estopIn = false ∧ s.eng = .run ∧ s.cd = 1#32
        ∧ endstopSample s s.sample.endstopIn s.headBlock = 0#16 ∧ s.stepIndex.toNat + 1 ≠ s.headBlock.dominant s.params
        ∧ s.rem.toNat < s.params.fTimer ∧ s.stopping = false)
    ∧ (let s : State := { stoppingState 100000#32 with rate := 3#32 };
      endstopSample s s.sample.endstopIn s.headBlock = 0#16 ∧ s.stepIndex.toNat + 1 ≠ s.headBlock.dominant s.params
        ∧ s.rem.toNat < s.params.fTimer ∧ (rateUpdate s s.headBlock 0).1 = 2 ∧ s.cfgMinRate.toNat < (rateUpdate s s.headBlock 0).1)
    ∧ (let s : State := { stoppingState 100000#32 with rate := 2#32 };
      endstopSample s s.sample.endstopIn s.headBlock = 0#16 ∧ s.stopping = true ∧ (rateUpdate s s.headBlock 0).1 = 1
        ∧ (rateUpdate s s.headBlock 0).1 ≤ s.cfgMinRate.toNat) := by decide

set_option maxRecDepth 20000 in
/-- Rate updates below each clamp and at it. -/
theorem test_meets_RateUpdatesAreExact :
    (let s : State := { ready with interval := 10#32, rate := 5#32 };
      let b := { (queuedState (blockWith 4 100000#32)).headBlock with nominal := 7 };
      (accelUpdate s b).1 < b.nominal ∧ (accelUpdate s { b with nominal := 6 }).1 = 6
        ∧ min s.rate.toNat 3 < (decelUpdate s b 3).1 ∧ (decelUpdate s b 4).1 = min s.rate.toNat 4
        ∧ ({ s with phase := .accel } : State).phase = .accel ∧ ({ s with phase := .cruise } : State).phase = .cruise
        ∧ ({ s with phase := .decel } : State).phase = .decel) := by decide

/-- Quotients above, at and below the clamps, and rates on both sides of CFG_MIN_RATE. -/
theorem test_meets_IntervalIsClampedQuotient :
    (let s : State := { ready with cfgMinRate := 100#32, cfgMinInterval := 20#32 };
      let q (r : Nat) := s.params.fTimer / max r s.cfgMinRate.toNat;
      (s.cfgPulseWidth.toNat + 1 ≤ q 50000 ∧ s.cfgMinInterval.toNat ≤ q 50000)
        ∧ q 50000 ≤ max s.cfgMinInterval.toNat (s.cfgPulseWidth.toNat + 1) ∧ q 1000000 ≤ max s.cfgMinInterval.toNat (s.cfgPulseWidth.toNat + 1)
        ∧ 100 ≤ s.cfgMinRate.toNat ∧ 50000 ≤ 50001 ∧ 1 ≤ s.cfgMinRate.toNat) := by decide

set_option maxRecDepth 20000 in
/-- A block with AU = DA and one with DA = D. -/
theorem test_meets_PhasesPartitionTheBlock :
    (let b := (queuedState blockP1).headBlock;
      b.au ≤ b.da ∧ b.da ≤ 5)
    ∧ (let b := (queuedState (blockWith 5 5#32)).headBlock;
      b.au ≤ b.da ∧ b.da ≤ 5) := by decide

/-- A machine with one babystep pending on axis 1. -/
def pendingState : State := { ready with bsPending := (Vector.replicate 16 0#16).set 1 1#16 }

/-- A babystep that starts, one held up by a settle count of 2, and none pending. -/
theorem test_meets_BabystepStartsWhenItFits :
    (let s := pendingState;
      let t := idleCycle s;
      s.sample.rst = false ∧ s.sample.estopIn = false ∧ s.bs.busy = false ∧ s.pt = 0#16 ∧ t.eng ≠ .halted
        ∧ (1 : Axis).val < s.params.A ∧ s.bsPending[(1 : Axis)] ≠ 0#16 ∧ (∀ a : Axis, a.val < 1 → s.bsPending[a] = 0#16)
        ∧ t.pt = 0#16 ∧ t.settle = 0#16 ∧ (t.eng = .run → 1 + 1 ≤ t.cd.toNat) ∧ (t.eng ≠ .run → t.depth = 0))
    ∧ (let t := idleCycle { pendingState with settle := 2#16 };
      t.eng ≠ .halted ∧ t.settle ≠ 0#16)
    ∧ ((idleCycle ready).eng ≠ .halted ∧ ∀ a : Axis, a.val < ready.params.A → ready.bsPending[a] = 0#16)
    ∧ (let s : State := { pendingState with pt := 1#16, pmask := 1#23 };
      (idleCycle s).eng ≠ .halted ∧ s.bs.busy = false ∧ s.pt ≠ 0#16)
    ∧ (let s : State := { haltedState with bsPending := pendingState.bsPending };
      s.sample.rst = false ∧ s.sample.estopIn = false ∧ s.bs.busy = false ∧ (idleCycle s).eng = .halted ∧ s.eng = .halted) := by decide

set_option maxRecDepth 40000 in
/-- A babystep pending in the cycle in which the claim of a bad block halts the machine. -/
theorem test_meets_BabystepStartsWhenItFits_halt :
    let s : State := { queuedState (blockWith 6 6#32) with bsPending := pendingState.bsPending };
    s.sample.rst = false ∧ s.sample.estopIn = false ∧ s.bs.busy = false ∧ (idleCycle s).eng = .halted ∧ s.eng ≠ .halted := by decide

/-- A sequence that moves on and one at its end, while RUN, IDLE and HALTED. -/
theorem test_meets_BabystepAdvancesAndCounts :
    (let s := sequenceState ready false 2#18 1#18;
      s.sample.rst = false ∧ s.sample.estopIn = false ∧ s.bs.busy = true ∧ s.eng = .idle ∧ s.bs.k ≠ s.bs.len)
    ∧ (let s := sequenceState haltedState false 2#18 2#18;
      s.sample.rst = false ∧ s.sample.estopIn = false ∧ s.bs.busy = true ∧ s.eng = .halted ∧ s.bs.k = s.bs.len)
    ∧ (let s := sequenceState (runningState blockP1 0#32 2#32) false 1#18 1#18;
      s.sample.rst = false ∧ s.sample.estopIn = false ∧ s.bs.busy = true ∧ s.eng = .run ∧ s.cd ≠ 1#32) := by decide

/-- A sequence at position `k`, with PW = 2 and DS = 3. -/
def drivingState (flip : Bool) (k : BitVec 18) : State :=
  sequenceState { ready with cfgPulseWidth := 2#16, cfgDirSetup := 3#16 } flip (if flip then 8#18 else 2#18) k

/-- The first and last position of each part of a sequence. -/
theorem test_meets_BabystepSequenceDrives :
    (Inv (drivingState true 1#18) ∧ PulseInv (drivingState true 1#18) ∧ (drivingState true 1#18).bs.busy = true)
    ∧ (Inv (drivingState true 3#18) ∧ PulseInv (drivingState true 3#18) ∧ (drivingState true 3#18).bs.k.toNat ≤ 3)
    ∧ (Inv (drivingState true 4#18) ∧ PulseInv (drivingState true 4#18) ∧ 3 + 1 ≤ (drivingState true 4#18).bs.k.toNat)
    ∧ (Inv (drivingState true 5#18) ∧ PulseInv (drivingState true 5#18) ∧ (drivingState true 5#18).bs.k.toNat ≤ 3 + 2)
    ∧ (Inv (drivingState true 6#18) ∧ PulseInv (drivingState true 6#18) ∧ 3 + 2 + 1 ≤ (drivingState true 6#18).bs.k.toNat)
    ∧ (Inv (drivingState false 2#18) ∧ PulseInv (drivingState false 2#18) ∧ (drivingState false 2#18).bs.flip = false) :=
  ⟨⟨inv_of _ (by decide), pulseInv_of _ (by decide), by decide⟩, ⟨inv_of _ (by decide), pulseInv_of _ (by decide), by decide⟩,
    ⟨inv_of _ (by decide), pulseInv_of _ (by decide), by decide⟩, ⟨inv_of _ (by decide), pulseInv_of _ (by decide), by decide⟩,
    ⟨inv_of _ (by decide), pulseInv_of _ (by decide), by decide⟩, ⟨inv_of _ (by decide), pulseInv_of _ (by decide), by decide⟩⟩

/-- Two running machines, one with a sequence, between step events; and two idle ones that differ in what is pending. -/
theorem test_meets_BabystepsDoNotPerturb :
    (let s := runningState blockP1 0#32 5#32;
      let s' := sequenceState s false 1#18 1#18;
      s' = { s with bs := s'.bs, bsPending := s'.bsPending, bsCount := s'.bsCount } ∧ s.sample.rst = false ∧ s.eng = .run ∧ s.cd ≠ 1#32)
    ∧ pendingState = { ready with bs := pendingState.bs, bsPending := pendingState.bsPending, bsCount := pendingState.bsCount }
    ∧ ready.sample.rst = false ∧ ready.bs.busy = false ∧ pendingState.bs.busy = false :=
  ⟨⟨rfl, by decide, rfl, by decide⟩, rfl, by decide, rfl, rfl⟩

/-- No sequence, and a sequence on channel 0 seen from channel 1. -/
theorem test_meets_PinsFollowState : ready.bs.busy = false ∧ (drivingState true 1#18).bs.ch.toNat ≠ 1 := by decide

/-- R7's and R156's example, `A = 4` and `NE = 3`: its last axis under extruder 2, and the axis before; and a part with no extruder. -/
theorem test_meets_PinsFollowState_channels :
    (1 ≤ threeExtruders.NE ∧ 3 = threeExtruders.A - 1 ∧ 2 < threeExtruders.NE ∧ 2 ≠ threeExtruders.A - 1 ∧ 2 < threeExtruders.A)
      ∧ bareParams.NE = 0 := by decide

/-- R7's example: `P = 6` and `ch(3, 2) = 5`. -/
theorem test_channel_map : channels threeExtruders = 6 ∧ channelOf threeExtruders 3 2 = 5 := by decide

theorem pulseInv_running : PulseInv (runningState blockP1 0#32 1#32) := pulseInv_of _ (by decide)

set_option maxRecDepth 20000 in
theorem bresenham_running : BresenhamInv (runningState blockP1 0#32 1#32) := by unfold BresenhamInv; decide

theorem fieldInv_running : FieldInv (runningState blockP1 0#32 1#32) where
  head_lt := by decide
  tail_lt := by decide
  pulse_bits := by decide
  dir_bits := by decide
  step_inv := by decide
  dir_inv := by decide
  es_en := by decide
  es_dir := by decide
  es_inv := by decide
  homed_bits := by decide
  ext_lt := by decide
  ext_zero := by decide
  bs_axis_lt := by decide
  bs_ch_lt := by decide

/-- A step from a running machine, for the statements about every step (StepKeepsInvariants, StepKeepsPulsesApart, StepKeepsFieldsLegal,
StepKeepsErrorTerms, BusyBlockIsFrozen, QueueIndicesMoveInOrder, LockProtectsConfiguration). -/
theorem test_meets_StepKeeps :
    let s := runningState blockP1 0#32 1#32;
    Inv s ∧ PulseInv s ∧ FieldInv s ∧ BresenhamInv s ∧ (∃ t, step s = .next t) ∧ s.eng = .run ∧ s.sample.rst = false ∧ ¬UnlockedState s
      ∧ 0x1000 + 0x80 * slotOf s.params s.head ≤ 0x1000 ∧ 0x107F < 0x1080 + 0x80 * slotOf s.params s.head ∧ 3 < s.params.N :=
  ⟨inv_running.1, pulseInv_running, fieldInv_running, bresenham_running, step_next _, rfl, by decide, by decide,
    by decide, by decide, by decide⟩

/-- A block of one step. -/
def oneStepBlock (w : Nat) : Word := if w = 6 ∨ w = 16 then 1#32 else if w = 17 then 0#32 else blockP1 w

/-- The start of that block, one cycle before its step. -/
def oneStepState : State := { runningState oneStepBlock 0#32 1#32 with errTerm := Vector.replicate 16 1#32 }

set_option maxRecDepth 20000 in
theorem inv_oneStep : Inv oneStepState ∧ BresenhamInv oneStepState := ⟨inv_of _ (by decide), by unfold BresenhamInv; decide⟩

/-- A run with quiet pins from the state `c` cycles before the first step of P1's block. -/
def run (c : Word) : Nat → State := trail { runningState blockP1 0#32 c with pins := List.replicate 4 Pins.quiet }

set_option maxRecDepth 20000 in
theorem inv_run : Inv (run 1#32 0) ∧ BresenhamInv (run 1#32 0) := ⟨inv_of _ (by decide), by unfold BresenhamInv; decide⟩

set_option maxRecDepth 40000 in
/-- A run over a step event that leaves the block busy; and the run of no steps before a block's last step. -/
theorem test_meets_PositionsAreExact :
    (Inv (run 1#32 0) ∧ BresenhamInv (run 1#32 0) ∧ (run 1#32 0).stepIndex = 0#32
      ∧ (∀ j, j < 1 → step (run 1#32 j) = .next (run 1#32 (j + 1)))
      ∧ (∀ j, j ≤ 1 → (run 1#32 j).eng = .run ∧ (run 1#32 j).head = (run 1#32 0).head))
    ∧ (Inv oneStepState ∧ BresenhamInv oneStepState ∧ oneStepState.stepIndex = 0#32 ∧ oneStepState.eng = .run
      ∧ (∃ t, step oneStepState = .next t) ∧ oneStepState.sample.rst = false ∧ oneStepState.estopNow = false ∧ oneStepState.cd = 1#32
      ∧ endstopSample oneStepState oneStepState.sample.endstopIn oneStepState.headBlock = 0#16
      ∧ oneStepState.stepIndex.toNat + 1 = oneStepState.headBlock.dominant oneStepState.params) :=
  ⟨⟨inv_run.1, inv_run.2, rfl, fun j _ => step_trail _ j, by decide⟩,
    inv_oneStep.1, inv_oneStep.2, rfl, rfl, step_next _, by decide, by decide, rfl, by decide, by decide⟩

set_option maxRecDepth 40000 in
/-- Three cycles to the next step. -/
theorem test_meets_StepEventsKeepSpacing :
    (run 3#32 0).eng = .run ∧ (run 3#32 0).cd.toNat = 3
      ∧ (∀ j, j + 1 < 3 → step (run 3#32 j) = .next (run 3#32 (j + 1)) ∧ (run 3#32 j).sample.rst = false ∧ (run 3#32 j).estopNow = false
          ∧ (run 3#32 j).onBus ≠ some .qstop) :=
  ⟨rfl, rfl, fun j hj => ⟨step_trail _ j, by
    have h : ∀ j, j < 2 → (run 3#32 j).sample.rst = false ∧ (run 3#32 j).estopNow = false ∧ (run 3#32 j).onBus ≠ some .qstop := by decide
    exact h j (by omega)⟩⟩

/-- An idle machine with a pulse of width 2 just begun on channel 0. -/
def pulsedState : State := { ready with cfgPulseWidth := 2#16, pt := 2#16, pmask := 1#23, pins := [Pins.quiet, Pins.quiet] }

theorem inv_pulsed : Inv pulsedState ∧ PulseInv pulsedState := ⟨inv_of _ (by decide), pulseInv_of _ (by decide)⟩

theorem test_meets_PulsesLastTheirWidth :
    Inv (trail pulsedState 0) ∧ PulseInv (trail pulsedState 0) ∧ (trail pulsedState 0).pt = (trail pulsedState 0).cfgPulseWidth
      ∧ (∀ j, j < 2 → step (trail pulsedState j) = .next (trail pulsedState (j + 1)) ∧ (trail pulsedState j).sample.rst = false) :=
  ⟨inv_pulsed.1, inv_pulsed.2, rfl, fun j hj => ⟨step_trail _ j, by
    have h : ∀ j, j < 2 → (trail pulsedState j).sample.rst = false := by decide
    exact h j hj⟩⟩

/-- The pin goes high while a pulse is out, and the pulse is still out after the cycle. -/
theorem test_meets_EmergencyStopBound :
    let s := { pulsedState with pins := [{ Pins.quiet with estopIn := true }] };
    Inv s ∧ PulseInv s ∧ step s = .next (nextOf (step s)) ∧ s.estopNow = true ∧ pulseActive (nextOf (step s)) 0 = true :=
  ⟨inv_of _ (by decide), pulseInv_of _ (by decide), step_nextOf _, by decide, by decide⟩

theorem test_meets_DirectionStableDuringPulse :
    Inv pulsedState ∧ PulseInv pulsedState ∧ step pulsedState = .next (nextOf (step pulsedState)) ∧ pulseActive pulsedState 0 = true
      ∧ pulseActive (nextOf (step pulsedState)) 0 = true :=
  ⟨inv_pulsed.1, inv_pulsed.2, step_nextOf _, by decide, by decide⟩

set_option maxRecDepth 40000 in
/-- The claim of P1's block from reset turns two axes. -/
theorem test_meets_DirectionLatchesChangeAtClaims :
    let s := queuedState blockP1;
    step s = .next (nextOf (step s)) ∧ s.sample.rst = false ∧ (nextOf (step s)).dirLat ≠ s.dirLat :=
  ⟨step_nextOf _, by decide, by decide⟩

set_option maxRecDepth 40000 in
/-- So does the claim, in a step event that aborts a homing block, of the block behind it that turns axis 0. -/
theorem test_meets_DirectionLatchesChangeAtClaims_run :
    let s := homingThen (blockWith 0 0x0000000E#32);
    step s = .next (nextOf (step s)) ∧ s.sample.rst = false ∧ s.eng = .run ∧ (nextOf (step s)).dirLat ≠ s.dirLat :=
  ⟨step_nextOf _, by decide, rfl, by decide⟩

theorem test_meets_HaltedUntilClearHalt : (∃ t, step haltedState = .next t) ∧ haltedState.sample.rst = false ∧ haltedState.eng = .halted :=
  ⟨step_next _, by decide, rfl⟩

/-! ## Runs (R14) -/

/-- A program of one RD of ID (R20) ends after its one cycle, in which every output is low; with no fuel it has not ended. -/
theorem test_run_reads_id :
    let o := runUnder 3 { ready with host := [HostLine.ofInstr (.rd 0x000#14)] };
    o.ended = true ∧ o.reads = [0x53504731#32] ∧ o.trace = [{ stepOut := [false, false, false, false]
                                                              dirOut := [false, false, false, false], irqOut := false }]
      ∧ (runUnder 0 { ready with host := [HostLine.ofInstr (.rd 0x000#14)] }).ended = false := by decide

end Sys2Proof.Tests
end

/-! Proof of O15. STATUS (R27) is one concatenation; each field is read off it at its bits, its neighbours below peeled away by the append
rules, and IS_IDLE and CFG_UNLOCKED go on to R54's predicates. The outermost append is peeled by `rw`, which sees the sum of the field widths
in the 32 of `Word`; `simp` peels the rest, with the widths kept as sums (`-Nat.reduceAdd`). -/

namespace Sys2Proof.Machine

/-- The bound behind the width of STATUS.DEPTH: `2N` is at most 128 on every part. -/
theorem State.depth_lt_128 (s : State) : s.depth < 128 := by
  have hdepth : s.depth < 2 * s.params.N := depth_lt s.params s.head s.tail
  rcases capacity_cases s.params with h | h | h | h | h | h <;> omega

/-! ### The fields of more than one bit -/

theorem statusWord_eng (s : State) (estopIn : Bool) : (statusWord s estopIn).extractLsb' 0 2 = s.eng.code :=
  BitVec.extractLsb'_append_eq_right

theorem statusWord_phase (s : State) (estopIn : Bool) : (statusWord s estopIn).extractLsb' 2 2 = s.phase.code := by
  rw [statusWord, BitVec.extractLsb'_append_eq_of_le (by decide), BitVec.extractLsb'_append_eq_right]

theorem statusWord_reservedLow (s : State) (estopIn : Bool) : (statusWord s estopIn).extractLsb' 13 3 = 0#3 := by
  rw [statusWord, BitVec.extractLsb'_append_eq_of_le (by decide)]
  simp [-Nat.reduceAdd, BitVec.extractLsb'_append_eq_of_le, BitVec.extractLsb'_append_eq_right]

theorem statusWord_depth (s : State) (estopIn : Bool) : (statusWord s estopIn).extractLsb' 16 7 = BitVec.ofNat 7 s.depth := by
  rw [statusWord, BitVec.extractLsb'_append_eq_of_le (by decide)]
  simp [-Nat.reduceAdd, BitVec.extractLsb'_append_eq_of_le, BitVec.extractLsb'_append_eq_right]

theorem statusWord_reservedHigh (s : State) (estopIn : Bool) : (statusWord s estopIn).extractLsb' 23 9 = 0#9 := by
  rw [statusWord, BitVec.extractLsb'_append_eq_of_le (by decide)]
  simp [-Nat.reduceAdd, BitVec.extractLsb'_append_eq_of_le]

/-- STATUS.DEPTH holds the whole depth: 7 bits lose nothing. -/
theorem statusWord_depth_toNat (s : State) (estopIn : Bool) : ((statusWord s estopIn).extractLsb' 16 7).toNat = s.depth := by
  rw [statusWord_depth, BitVec.toNat_ofNat, Nat.mod_eq_of_lt s.depth_lt_128]

/-! ### The flags -/

/-- Bits 4 to 12, in their order. -/
theorem statusWord_flags (s : State) (estopIn : Bool) :
    let v := statusWord s estopIn
    v.getLsbD 4 = s.stopping
    ∧ v.getLsbD 5 = decide (s.depth = 0)
    ∧ v.getLsbD 6 = decide (s.depth = s.params.N)
    ∧ v.getLsbD 7 = s.isIdle
    ∧ v.getLsbD 8 = decide (0 < s.pt.toNat)
    ∧ v.getLsbD 9 = s.bs.busy
    ∧ v.getLsbD 10 = estopIn
    ∧ v.getLsbD 11 = (decide (s.eng = .idle) && decide (0 < s.depth))
    ∧ v.getLsbD 12 = s.unlocked := by
  dsimp only
  rw [statusWord]
  refine ⟨?_, ?_, ?_, ?_, ?_, ?_, ?_, ?_, ?_⟩ <;> rw [BitVec.getLsbD_append] <;>
    simp [-Nat.reduceAdd, -BitVec.getLsbD_eq_getElem, BitVec.getLsbD_append]

/-! ### The statement -/

/-- Settles O15: field by field from the layout above, with the two codes written out and the two predicate flags turned into R54's
conditions by `isIdle_iff` and `unlocked_iff`. -/
theorem statusFields : Obligations.StatusFields := by
  intro s estopIn v quiet
  have heng : s.eng.code = (match s.eng with | .idle => 0#2 | .run => 1#2 | .halted => 2#2) := by cases s.eng <;> rfl
  have hphase : s.phase.code = (match s.phase with | .accel => 0#2 | .cruise => 1#2 | .decel => 2#2 | .none => 3#2) := by
    cases s.phase <;> rfl
  obtain ⟨hstopping, hempty, hfull, hidle, hpulse, hbusy, hestop, hwait, hunlocked⟩ := statusWord_flags s estopIn
  have hidleBit : v.getLsbD 7 = true ↔ s.eng = .idle ∧ quiet := hidle ▸ isIdle_iff s
  have hunlockedBit : v.getLsbD 12 = true ↔ (s.eng = .idle ∨ s.eng = .halted) ∧ quiet := hunlocked ▸ unlocked_iff s
  exact ⟨(statusWord_eng s estopIn).trans heng, (statusWord_phase s estopIn).trans hphase, hstopping, hempty, hfull, hidleBit, hpulse, hbusy,
    hestop, hwait, hunlockedBit, statusWord_reservedLow s estopIn, statusWord_depth_toNat s estopIn, statusWord_reservedHigh s estopIn,
    isIdle_iff s, unlocked_iff s⟩

end Sys2Proof.Machine

/-! Proof of O40. R112's upper clamp never acts on a legal machine, since F_TIMER, CFG_MIN_INTERVAL and CFG_PULSE_WIDTH + 1 are all below
2^32. So the interval is the larger of the quotient and one floor, and each clause is a fact about that maximum. -/

namespace Sys2Proof.Machine

/-- The upper clamp of R112 is only a statement of range. -/
theorem ivl_eq_max (S : State) (r : Nat) :
    ivl S r = max (S.params.fTimer / max r S.cfgMinRate.toNat) (max S.cfgMinInterval.toNat (S.cfgPulseWidth.toNat + 1)) := by
  have hquot : S.params.fTimer / max r S.cfgMinRate.toNat ≤ S.params.fTimer := Nat.div_le_self _ _
  have htimer := timer_lt S.params
  have hmin := S.cfgMinInterval.isLt
  have hwidth := S.cfgPulseWidth.isLt
  rw [ivl, max_assoc, min_eq_left]
  omega

theorem minInterval_le_ivl (S : State) (r : Nat) : S.cfgMinInterval.toNat ≤ ivl S r := by
  rw [ivl_eq_max]
  exact (le_max_left _ _).trans (le_max_right _ _)

/-- A rate at or below CFG_MIN_RATE has the longest interval, that of rate 0. -/
theorem ivl_of_le_minRate (S : State) {r : Nat} (h : r ≤ S.cfgMinRate.toNat) : ivl S r = ivl S 0 := by
  rw [ivl, ivl, max_eq_right h, max_eq_right (Nat.zero_le _)]

/-- A higher rate is never slower. CFG_MIN_RATE at least 1 (WARL) is needed: at a divisor of 0 the quotient would be 0. -/
theorem ivl_antitone (S : State) (hmin : 1 ≤ S.cfgMinRate.toNat) : Antitone (ivl S) := by
  intro r r' hr
  have hdivisor : max r S.cfgMinRate.toNat ≤ max r' S.cfgMinRate.toNat := max_le_max_right _ hr
  have hquot : S.params.fTimer / max r' S.cfgMinRate.toNat ≤ S.params.fTimer / max r S.cfgMinRate.toNat :=
    Nat.div_le_div_left hdivisor (hmin.trans (le_max_right _ _))
  rw [ivl_eq_max, ivl_eq_max]
  exact max_le_max_right _ hquot

/-- Settles O40: the two clauses about the quotient compare it with the floor in `ivl_eq_max`. -/
theorem intervalIsClampedQuotient : Obligations.IntervalIsClampedQuotient := by
  intro s r q
  have hmax : ivl s r = max q (max s.cfgMinInterval.toNat (s.cfgPulseWidth.toNat + 1)) := ivl_eq_max s r
  exact ⟨ivl_ge s r, minInterval_le_ivl s r, ivl_le s r,
    fun hwidth hinterval => hmax.trans (max_eq_left (max_le hinterval hwidth)),
    fun hfloor => hmax.trans (max_eq_right hfloor),
    ivl_of_le_minRate s,
    fun _ hr hmin => ivl_antitone s hmin hr⟩

end Sys2Proof.Machine

/-! Proof of O41. Each phase holds exactly on an interval of step indices, and the steps of a phase are counted as the size of that interval. -/

namespace Sys2Proof.Machine

theorem phaseOf_eq_accel_iff (i : Nat) (b : Block) : phaseOf i b = .accel ↔ i < b.au := by
  simp only [phaseOf]
  split_ifs with haccel hcruise <;> simp [haccel]

theorem phaseOf_eq_cruise_iff (i : Nat) (b : Block) : phaseOf i b = .cruise ↔ b.au ≤ i ∧ i < b.da := by
  simp only [phaseOf]
  split_ifs with haccel hcruise <;> simp <;> omega

/-- DECEL needs `au ≤ da` (check 4 of R116): otherwise the indices from `da` below `au` are ACCEL. -/
theorem phaseOf_eq_decel_iff (i : Nat) {b : Block} (hb : b.au ≤ b.da) : phaseOf i b = .decel ↔ b.da ≤ i := by
  simp only [phaseOf]
  split_ifs with haccel hcruise <;> simp <;> omega

/-- A phase that holds exactly on `[lo, hi)` among the first `d` step indices has `hi - lo` steps. -/
theorem countP_phaseOf {b : Block} {ph : Phase} {lo hi d : Nat} (hd : hi ≤ d)
    (hph : ∀ i, i < d → (phaseOf i b = ph ↔ lo ≤ i ∧ i < hi)) :
    (List.range d).countP (fun i => phaseOf i b == ph) = hi - lo := by
  have hset : (Finset.range d).filter (fun i => phaseOf i b = ph) = Finset.Ico lo hi := by
    ext i
    rw [Finset.mem_filter, Finset.mem_range, Finset.mem_Ico]
    exact ⟨fun ⟨hid, h⟩ => (hph i hid).1 h, fun h => ⟨h.2.trans_le hd, (hph i (h.2.trans_le hd)).2 h⟩⟩
  calc (List.range d).countP (fun i => phaseOf i b == ph)
      = Nat.count (fun i => phaseOf i b = ph) d := rfl
    _ = ((Finset.range d).filter (fun i => phaseOf i b = ph)).card := Nat.count_eq_card_filter_range _ _
    _ = hi - lo := by rw [hset, Nat.card_Ico]

/-- Settles O41: the three phases hold on `[0, au)`, `[au, da)` and `[da, D)`. -/
theorem phasesPartitionTheBlock : Obligations.PhasesPartitionTheBlock := by
  intro b d hau hda
  refine ⟨?accel, ?cruise, ?decel, fun i => ⟨phaseOf_eq_accel_iff i b, phaseOf_eq_cruise_iff i b, phaseOf_eq_decel_iff i hau⟩⟩
  case accel => exact countP_phaseOf (lo := 0) (hau.trans hda) fun i _ => by simp [phaseOf_eq_accel_iff]
  case cruise => exact countP_phaseOf hda fun i _ => phaseOf_eq_cruise_iff i b
  case decel => exact countP_phaseOf le_rfl fun i hid => by simp [phaseOf_eq_decel_iff i hau, hid]

end Sys2Proof.Machine

/-! Proof of O34. The endstop sample is R132's mask read bit by bit. The fault is one outcome of the step event; a cycle whose engine stage
halts ends in that halt, since no babystep starts in a HALTED machine and the interrupt stage writes IRQ_STATUS alone. -/

namespace Sys2Proof.Machine

/-! ### The endstop sample (R132) -/

theorem endstopSample_bit_iff (S : State) (es : AxisMask) (b : Block) (a : Axis) :
    (endstopSample S es b).getLsbD a.val = true ↔ a.val < S.params.A ∧ 0 < b.steps[a] ∧ S.cfgEsEn.getLsbD a.val = true
      ∧ b.forward a = S.cfgEsDir.getLsbD a.val ∧ (es.getLsbD a.val ^^ S.cfgEsInv.getLsbD a.val) = true := by
  rw [endstopSample, getLsbD_axisMask]
  simp only [Block.moves, Bool.and_eq_true, decide_eq_true_eq, beq_iff_eq, and_assoc]

/-! ### A cycle whose engine stage halts -/

/-- What the counting stage hands to the engine stage (R100). -/
def counted (S : State) : Work := { st := counting S, ev := 0#5 }

/-- Without an emergency stop the stages before the bus are counting, the engine and the babystep start. -/
theorem beforeBus_of_no_estop {S : State} (he : S.sample.estopIn = false) :
    beforeBus S false =
      { engine S S.sample.endstopIn (counted S) with
        st := babystepStart S false (engine S S.sample.endstopIn (counted S)).st } := by
  simp only [beforeBus, he, Bool.or_false, Bool.false_eq_true, if_false, counted]

/-- A halt by the engine is the last thing the stages before the bus do. -/
theorem beforeBus_of_engine_halt {S : State} {c : Cause} {k sl : Nat} {ax : AxisMask} (he : S.sample.estopIn = false)
    (hengine : engine S S.sample.endstopIn (counted S) = halt S c k sl ax (counted S)) :
    beforeBus S false = halt S c k sl ax (counted S) := by
  rw [beforeBus_of_no_estop he, hengine, babystepStart_halted S false (halt_eng S c k sl ax (counted S))]

theorem idleCycle_of_no_reset {S : State} (hr : S.sample.rst = false) : idleCycle S = irqUpdate S 0#5 (beforeBus S false) := by
  simp only [idleCycle, cycleWith, hr, Bool.false_eq_true, if_false, id]

/-- An engine halt straight from the counted state: the halt procedure of R200, with the pulse counting on and the step index, error terms
and positions as they were before the cycle. -/
theorem idleCycle_of_engine_halt {s : State} {c : Cause} {k sl : Nat} {ax : AxisMask} (hr : s.sample.rst = false)
    (he : s.sample.estopIn = false) (hrun : s.eng ≠ .halted)
    (hengine : engine s s.sample.endstopIn (counted s) = halt s c k sl ax (counted s)) :
    let t := idleCycle s
    HaltedBy s { cause := c, check := BitVec.ofNat 4 k, slot := BitVec.ofNat 6 sl, axes := ax } t
    ∧ pulseCountsOn s t ∧ t.stepIndex = s.stepIndex ∧ t.errTerm = s.errTerm ∧ t.pos = s.pos ∧ s.engineEvents = 0b00001#5 := by
  have hstages : beforeBus s false = halt s c k sl ax (counted s) := beforeBus_of_engine_halt he hengine
  have hcycle : idleCycle s = irqUpdate s 0#5 (halt s c k sl ax (counted s)) := by rw [idleCycle_of_no_reset hr, hstages]
  have hkeep : EngineSide s (counted s).st := counting_engineSide s
  have hhost : HostSide s (counted s).st := counting_hostSide s
  have hevents : s.engineEvents = 0b00001#5 := by rw [State.engineEvents, hstages, halt_ev, if_neg hrun]; exact BitVec.zero_or
  rw [hcycle]
  exact ⟨haltedBy_rest (halt_haltedBy hrun hhost.tail rfl hkeep.dirLat hkeep.extSel c k sl ax) _, pulseCountsOn_of rfl rfl,
    hkeep.stepIndex, hkeep.errTerm, hkeep.pos, hevents⟩

/-! ### The endstop fault (R134) -/

/-- A step event of a block without HOMING in which an axis triggers does nothing but halt. -/
theorem stepEvent_of_endstop_fault {S : State} {es : AxisMask} (w : Work) (htrig : endstopSample S es S.headBlock ≠ 0#16)
    (hhoming : S.headBlock.homing = false) :
    stepEvent S es w = halt S .endstop 0 S.headSlot (endstopSample S es S.headBlock) w := by
  rcases stepEvent_cases S es w with ⟨_, hhome, _⟩ | ⟨_, _, hhalt⟩ | ⟨hnone, _⟩ | ⟨hnone, _⟩
  · exact absurd hhome (by simp [hhoming])
  · exact hhalt
  · exact absurd hnone htrig
  · exact absurd hnone htrig

theorem engine_of_step_due {S : State} (es : AxisMask) (w : Work) (hrun : S.eng = .run) (hcd : S.cd = 1#32) :
    engine S es w = stepEvent S es w := by
  simp only [engine, hrun, hcd, if_true]

/-- Settles O34: the sample bit by bit, and the step event's fault as an engine halt. -/
theorem endstopFaultHalts : Obligations.EndstopFaultHalts := by
  intro s b trig
  refine ⟨endstopSample_bit_iff s s.sample.endstopIn b, fun hr he hrun hcd htrig hhoming => ?_⟩
  have hengine : engine s s.sample.endstopIn (counted s) = halt s .endstop 0 s.headSlot trig (counted s) :=
    (engine_of_step_due _ _ hrun hcd).trans (stepEvent_of_endstop_fault _ htrig hhoming)
  exact idleCycle_of_engine_halt hr he (by simp [hrun]) hengine

end Sys2Proof.Machine

/-! What an access changes in its cycle: the cycle with the access against the same cycle without it. A bus stage that writes neither a field
of R54's predicates nor the events keeps IRQ_STATUS, so its writes are the only difference, and the two interrupt stages agree by `rfl`. -/

namespace Sys2Proof.Machine

/-! ### The cycle with an access and the cycle without -/

theorem exec_of_no_reset {s : State} {i : Instr} (hr : s.sample.rst = false) (he : isEstop i = false) :
    exec i s = .next (irqUpdate s (clears s i) (busStage s i (beforeBus s false))) := by
  rw [exec_eq_cycle, cycleWith, hr, he, if_neg Bool.false_ne_true]

/-- The cycle of an access that is no emergency stop and clears no event, from what its bus stage makes. -/
theorem exec_of_busStage {s : State} {i : Instr} {w : Work} (hr : s.sample.rst = false) (he : isEstop i = false) (hc : clears s i = 0#5)
    (hbus : busStage s i (beforeBus s false) = w) : exec i s = .next (irqUpdate s 0#5 w) := by
  rw [exec_of_no_reset hr he, hc, hbus]

/-- The interrupt stage (R104) with the IDLE event apart from the events of the earlier stages. -/
theorem irqUpdate_eq_idleEvent (S : State) (clear : BitVec 5) (w : Work) :
    irqUpdate S clear w = { w.st with irqStatus := (S.irqStatus &&& ~~~clear) ||| w.ev ||| idleEvent S w.st } := by
  unfold irqUpdate idleEvent
  split <;> simp [BitVec.or_assoc]

theorem irqUpdate_of_no_clear (S : State) (w : Work) :
    irqUpdate S 0#5 w = { w.st with irqStatus := S.irqStatus ||| w.ev ||| idleEvent S w.st } := by
  rw [irqUpdate_eq_idleEvent, BitVec.not_zero, BitVec.and_allOnes]

/-- The interrupt stage after a bus stage that has raised `e` over the events `ev` of the engine. -/
theorem irqUpdate_of_raised (S : State) {ev e : BitVec 5} {w : Work} (hev : w.ev = ev ||| e) :
    irqUpdate S 0#5 w = { w.st with irqStatus := S.irqStatus ||| ev ||| e ||| idleEvent S w.st } := by
  rw [irqUpdate_of_no_clear, hev, ← BitVec.or_assoc S.irqStatus]

/-- A command's answer is seen in CMDRES alone. -/
theorem irqUpdate_answer (S : State) (clear : BitVec 5) (op : Byte) (r : CommandResult) (w : Work) :
    irqUpdate S clear (answer op r w) = { irqUpdate S clear w with cmdres := { result := r, opcode := op } } := rfl

/-- An access whose bus stage only answers differs from no access in CMDRES alone (R165). -/
theorem exec_of_answer {s : State} {i : Instr} {op : Byte} {r : CommandResult} (hr : s.sample.rst = false) (he : isEstop i = false)
    (hc : clears s i = 0#5) (hbus : busStage s i (beforeBus s false) = answer op r (beforeBus s false)) :
    exec i s = .next { idleCycle s with cmdres := { result := r, opcode := op } } := by
  rw [exec_of_busStage hr he hc hbus, irqUpdate_answer, idleCycle_of_no_reset hr]

/-! ### Register writes -/

theorem regAt_cmdAddr (p : Params) : regAt p cmdAddr = some .cmd := rfl

theorem regAt_irqStatus (p : Params) : regAt p 0x020#14 = some .irqStatus := rfl

theorem regAt_irqEnable (p : Params) : regAt p 0x024#14 = some .irqEnable := rfl

theorem regAt_err (p : Params) : regAt p 0x028#14 = some .err := rfl

theorem regAt_stage (p : Params) (w : Fin 32) : regAt p (BitVec.ofNat 14 (0x800 + 4 * w.val)) = some (.stage w) := by
  have hw := w.isLt
  have ha : (BitVec.ofNat 14 (0x800 + 4 * w.val)).toNat = 0x800 + 4 * w.val := by rw [BitVec.toNat_ofNat]; omega
  have hi : (0x800 + 4 * w.val - 0x800) / 4 = w.val := by omega
  simp only [regAt, ha, hi]
  rw [if_neg (by omega), if_neg (by omega), if_neg (by omega), if_neg (by omega), if_neg (by omega), if_neg (by omega), if_neg (by omega),
    if_neg (by omega), if_pos (by omega), Fin.ofNat_val_eq_self]

/-- Only a write to CMD can stop the machine (R102). -/
theorem isEstopWrite_of_reg {p : Params} {x : Addr} {r : Reg} (hreg : regAt p x = some r) (hcmd : r ≠ .cmd) (v : Word) :
    isEstopWrite x v = false := by
  have hx : x ≠ cmdAddr := by
    rintro rfl
    exact hcmd (Option.some.inj (hreg.symm.trans (regAt_cmdAddr p)))
  simp [isEstopWrite, hx]

/-- Only a write to IRQ_STATUS clears its bits (R166). -/
theorem irqClear_of_reg {p : Params} {x : Addr} {r : Reg} (hreg : regAt p x = some r) (hirq : r ≠ .irqStatus) (v : Word) :
    irqClear p x v = 0#5 :=
  if_neg fun h => hirq (Option.some.inj (hreg.symm.trans h))

theorem busWrite_of_storing {S : State} {x : Addr} {v : Word} {r : Reg} (hreg : regAt S.params x = some r) (hro : r.accessClass ≠ .ro)
    (hwo : r.accessClass ≠ .wo) (w : Work) : busWrite S x v w = storeReg S v r w := by
  simp only [busWrite, hreg]
  cases hclass : r.accessClass
  case ro => exact absurd hclass hro
  case wo => exact absurd hclass hwo
  all_goals rfl

/-- A write of a register that is neither read-only nor CMD is its store in the stages' state (R162). -/
theorem exec_wr_of_storing {s : State} {x : Addr} {v : Word} {r : Reg} (hr : s.sample.rst = false) (hreg : regAt s.params x = some r)
    (hro : r.accessClass ≠ .ro) (hwo : r.accessClass ≠ .wo) :
    exec (.wr x v) s = .next (irqUpdate s (irqClear s.params x v) (storeReg s v r (beforeBus s false))) := by
  have hcmd : r ≠ .cmd := by rintro rfl; exact hwo rfl
  have hestop : isEstop (.wr x v) = false := isEstopWrite_of_reg hreg hcmd v
  rw [← busWrite_of_storing hreg hro hwo]
  exact exec_of_no_reset hr hestop

end Sys2Proof.Machine

/-! Proof of O8. A reserved command word is never the ESTOP word and clears no interrupt, and the parse of R164 only answers it. -/

namespace Sys2Proof.Machine

theorem decodeCommand_unknown {v : Word} (h : 7 ≤ (commandOp v).toNat) : decodeCommand v = .error .unknown := if_pos h

theorem decodeCommand_reservedBits {v : Word} (hop : (commandOp v).toNat < 7) (hbits : v &&& reservedMask (commandOp v) ≠ 0#32) :
    decodeCommand v = .error .reservedBits := by
  rw [decodeCommand, if_neg (by omega), if_pos hbits]

/-- A write of a word that is no command only answers, whatever the answer: in particular it is no emergency stop. -/
theorem exec_wr_cmd_of_error {s : State} {v : Word} {e : CommandError} {r : CommandResult} (hr : s.sample.rst = false)
    (herror : decodeCommand v = .error e) (hanswer : ∀ w, command s v w = answer (commandOp v) r w) :
    exec (.wr cmdAddr v) s = .next { idleCycle s with cmdres := { result := r, opcode := commandOp v } } := by
  have hestop : isEstopWrite cmdAddr v = false := by
    have hv : v ≠ 0x00000003#32 := by
      rintro rfl
      cases (show decodeCommand 0x00000003#32 = .ok .estop by decide).symm.trans herror
    simp [isEstopWrite, hv]
  have hclears : irqClear s.params cmdAddr v = 0#5 := irqClear_of_reg (regAt_cmdAddr _) (by decide) v
  exact exec_of_answer hr hestop hclears (hanswer _)

/-- Settles O8: one case per error of the command parse. -/
theorem reservedCommandWordsOnlyRecord : Obligations.ReservedCommandWordsOnlyRecord := by
  intro s v hr
  refine ⟨fun hop => ?unknown, fun hop hbits => ?reservedBits⟩
  case unknown =>
    have herror : decodeCommand v = .error .unknown := decodeCommand_unknown hop
    exact exec_wr_cmd_of_error hr herror fun w => by rw [command, herror]
  case reservedBits =>
    have herror : decodeCommand v = .error .reservedBits := decodeCommand_reservedBits hop hbits
    exact exec_wr_cmd_of_error hr herror fun w => by rw [command, herror]

end Sys2Proof.Machine

/-! Proof of O20 and O21. The stores of STAGE, IRQ_ENABLE and ERR change one field that no stage before the bus has written. -/

namespace Sys2Proof.Machine

/-- Settles O20: the store is one word write, so the other words and bytes are the frame of that write. -/
theorem stageWritesStore : Obligations.StageWritesStore := by
  intro s v w hr t
  have hreg := regAt_stage s.params w
  refine ⟨?exec, readWord_writeWord_same _ _ _, fun i hi hne => ?words, fun x hx => byteAt_writeWord_of_outside _ _ _ _ (by omega)⟩
  case exec =>
    have hmem : (beforeBus s false).st.mem = s.mem := (beforeBus_hostSide s false).mem
    rw [exec_wr_of_storing hr hreg nofun nofun, irqClear_of_reg hreg nofun]
    simp only [storeReg, hmem, t, idleCycle_of_no_reset hr]
    rfl
  case words =>
    exact readWord_writeWord_of_disjoint _ _ _ _ (by unfold stageAddr; omega)

/-- Settles O21: both registers are stored in every state, ERR over the flags it had before the cycle. -/
theorem enableAndErrorWrites : Obligations.EnableAndErrorWrites := by
  intro s v hr
  constructor
  · rw [exec_wr_of_storing hr (regAt_irqEnable _) (by decide) (by decide), irqClear_of_reg (regAt_irqEnable _) (by decide),
      idleCycle_of_no_reset hr]
    rfl
  · have herr : (beforeBus s false).st.errFlags = s.errFlags := (beforeBus_hostSide s false).errFlags
    rw [exec_wr_of_storing hr (regAt_err _) (by decide) (by decide), irqClear_of_reg (regAt_err _) (by decide), idleCycle_of_no_reset hr]
    simp only [storeReg, herr]
    rfl

end Sys2Proof.Machine

/-! Proof of O22. The interrupt stage joins the events after the clear. IDLE is its own event: no stage before it raises that bit. -/

namespace Sys2Proof.Machine

/-! ### The IDLE event -/

theorem idleEvent_of_becomes_idle {s t : State} (h : IdleState t ∧ ¬IdleState s) : idleEvent s t = evIdle := by
  rw [← isIdle_iff, ← isIdle_iff, Bool.not_eq_true] at h
  obtain ⟨hnext, hbefore⟩ := h
  rw [idleEvent, hnext, hbefore]
  rfl

theorem idleEvent_of_not_becomes_idle {s t : State} (h : ¬(IdleState t ∧ ¬IdleState s)) : idleEvent s t = 0#5 := by
  rw [← isIdle_iff, ← isIdle_iff] at h
  exact if_neg (by simpa using h)

/-! ### The stages before the bus -/

/-- The events so far leave the IDLE bit to the interrupt stage. -/
def Work.LacksIdle (w : Work) : Prop := w.ev &&& evIdle = 0#5

/-- A further event that is not IDLE. -/
theorem or_lacksIdle {e x : BitVec 5} (he : e &&& evIdle = 0#5) (hx : x &&& evIdle = 0#5) : (e ||| x) &&& evIdle = 0#5 := by
  rw [BitVec.and_comm, BitVec.and_or_distrib_left, BitVec.and_comm, he, BitVec.and_comm, hx]
  rfl

theorem halt_lacksIdle {w : Work} (h : w.LacksIdle) (S : State) (c : Cause) (k sl : Nat) (ax : AxisMask) :
    (halt S c k sl ax w).LacksIdle := by
  rw [Work.LacksIdle, halt_ev]
  split
  · exact h
  · exact or_lacksIdle h (by decide)

theorem finishStop_lacksIdle {w : Work} (h : w.LacksIdle) (S : State) : (finishStop S w).LacksIdle := or_lacksIdle h (by decide)

theorem retire_lacksIdle {w : Work} (h : w.LacksIdle) (S : State) : (retire S w).LacksIdle := or_lacksIdle h (by decide)

theorem afterHoming_lacksIdle {w : Work} (h : w.LacksIdle) (S : State) (trig : AxisMask) : (afterHoming S trig w).LacksIdle :=
  or_lacksIdle (or_lacksIdle h (by decide)) (by decide)

theorem loadAttempt_lacksIdle {w : Work} (h : w.LacksIdle) (S : State) (i : QueueIndex) : (loadAttempt S i w).LacksIdle := by
  rcases loadAttempt_cases S i w with ⟨e, _⟩ | ⟨_, _, _, e⟩ | ⟨_, _, _, _, e⟩ <;> rw [e]
  · exact h
  · exact halt_lacksIdle h S _ _ _ _
  · exact h

theorem stepEvent_lacksIdle {w : Work} (h : w.LacksIdle) (S : State) (es : AxisMask) : (stepEvent S es w).LacksIdle := by
  have hemit : (emitStep S S.headBlock w).LacksIdle := h
  rcases stepEvent_cases S es w with ⟨_, _, e⟩ | ⟨_, _, e⟩ | ⟨_, _, e⟩ | ⟨_, _, e⟩ <;> rw [e]
  · rcases homingAbort_cases S (endstopSample S es S.headBlock) w with ⟨_, e⟩ | ⟨_, e⟩ <;> rw [e]
    · exact finishStop_lacksIdle (afterHoming_lacksIdle h S _) S
    · exact loadAttempt_lacksIdle (afterHoming_lacksIdle h S _) S _
  · exact halt_lacksIdle h S _ _ _ _
  · rcases complete_cases S (emitStep S S.headBlock w) with ⟨_, e⟩ | ⟨_, e⟩ <;> rw [e]
    · exact finishStop_lacksIdle (retire_lacksIdle hemit S) S
    · exact loadAttempt_lacksIdle (retire_lacksIdle hemit S) S _
  · have hscheduled : (scheduled S S.headBlock (S.stepIndex.toNat + 1) (emitStep S S.headBlock w)).LacksIdle := hemit
    rcases nextInterval_cases S S.headBlock (S.stepIndex.toNat + 1) (emitStep S S.headBlock w) with ⟨_, _, e⟩ | ⟨_, e⟩ <;> rw [e]
    · exact finishStop_lacksIdle hscheduled S
    · exact hscheduled

theorem engine_lacksIdle {w : Work} (h : w.LacksIdle) (S : State) (es : AxisMask) : (engine S es w).LacksIdle := by
  rcases engine_cases S es w with ⟨_, _, e⟩ | ⟨_, _, e⟩ | ⟨_, e⟩ | ⟨_, e⟩ <;> rw [e]
  · exact stepEvent_lacksIdle h S es
  · exact h
  · exact loadAttempt_lacksIdle h S _
  · exact h

theorem beforeBus_lacksIdle (S : State) (e : Bool) : (beforeBus S e).LacksIdle := by
  have hcounted : (counted S).LacksIdle := BitVec.zero_and
  show (afterEngine S e).LacksIdle
  unfold afterEngine
  split
  · exact halt_lacksIdle hcounted S _ _ _ _
  · exact engine_lacksIdle hcounted S _

/-! ### The statement -/

/-- Settles O22: the interrupt stage with and without a clear, then the IDLE event by R54's predicate and apart from the others. -/
theorem eventsWinOverClears : Obligations.EventsWinOverClears := by
  intro s v hr ev
  have hidle : idleCycle s = irqUpdate s 0#5 (beforeBus s false) := idleCycle_of_no_reset hr
  refine ⟨?noAccess, ?clear, fun t => ⟨idleEvent_of_becomes_idle, idleEvent_of_not_becomes_idle⟩, beforeBus_lacksIdle s false⟩
  case noAccess =>
    have hstages : idleCycle s = _ := hidle.trans (irqUpdate_of_no_clear s _)
    rw [congrArg State.irqStatus hstages]
    simp only [ev, hidle]
    exact BitVec.or_assoc _ _ _
  case clear =>
    have hclear : irqClear s.params 0x020#14 v = v.extractLsb' 0 5 := rfl
    rw [exec_wr_of_storing hr (regAt_irqStatus _) (by decide) (by decide), hclear, irqUpdate_eq_idleEvent, BitVec.or_assoc]
    simp only [ev, hidle]
    rfl

end Sys2Proof.Machine

/-! Proof of O25. The tests of R172 are R26's `queued` and R30's `busy`, read off the slot's offset from the head. -/

namespace Sys2Proof.Machine

theorem queued_eq_false_iff (s : State) (sl : Nat) : s.queued sl = false ↔ s.depth ≤ slotOffset s.params sl s.head := by
  simp [State.queued]

theorem busySlot_iff {s : State} {sl : Nat} (hsl : sl < s.params.N) :
    s.busySlot sl = true ↔ s.eng = .run ∧ slotOffset s.params sl s.head = 0 := by
  rw [slotOffset_eq_zero _ _ _ hsl, State.busySlot, State.headSlot, Bool.and_eq_true, decide_eq_true_eq, decide_eq_true_eq]

/-- R172 with its tests by name, from a working state with the parameters and the tail of `S`. -/
theorem commandUpdate_eq {S : State} {w : Work} (hw : HostSide S w.st) (slot : BitVec 6) :
    commandUpdate S slot w =
      if S.params.N ≤ slot.toNat then answer 0x02#8 .badArg w
      else if w.st.eng = .halted then answer 0x02#8 .halted w
      else if S.queued slot.toNat = false ∨ w.st.queued slot.toNat = false then answer 0x02#8 .notQueued w
      else if S.busySlot slot.toNat = true ∨ w.st.busySlot slot.toNat = true then answer 0x02#8 .busy w
      else answer 0x02#8 .accepted { w with st := { w.st with mem := updateSlot S slot.toNat w.st.mem } } := by
  by_cases hsl : S.params.N ≤ slot.toNat
  · rw [commandUpdate, if_pos hsl, if_pos hsl]
  · have hbefore := busySlot_iff (s := S) (Nat.lt_of_not_le hsl)
    have hafter := busySlot_iff (s := w.st) (sl := slot.toNat) (by rw [hw.params]; omega)
    simp only [commandUpdate, hbefore, hafter, queued_eq_false_iff, State.depth, hw.params, hw.tail]

section
variable {S : State} {w : Work} {slot : BitVec 6}

theorem commandUpdate_of_badArg (hw : HostSide S w.st) (hbad : S.params.N ≤ slot.toNat) :
    commandUpdate S slot w = answer 0x02#8 .badArg w := by
  rw [commandUpdate_eq hw, if_pos hbad]

theorem commandUpdate_of_halted (hw : HostSide S w.st) (hslot : slot.toNat < S.params.N) (hhalt : w.st.eng = .halted) :
    commandUpdate S slot w = answer 0x02#8 .halted w := by
  rw [commandUpdate_eq hw, if_neg hslot.not_ge, if_pos hhalt]

theorem commandUpdate_of_notQueued (hw : HostSide S w.st) (hslot : slot.toNat < S.params.N) (hhalt : w.st.eng ≠ .halted)
    (hqueue : S.queued slot.toNat = false ∨ w.st.queued slot.toNat = false) : commandUpdate S slot w = answer 0x02#8 .notQueued w := by
  rw [commandUpdate_eq hw, if_neg hslot.not_ge, if_neg hhalt, if_pos hqueue]

theorem commandUpdate_of_busy (hw : HostSide S w.st) (hslot : slot.toNat < S.params.N) (hhalt : w.st.eng ≠ .halted)
    (hqueue : ¬(S.queued slot.toNat = false ∨ w.st.queued slot.toNat = false))
    (hbusy : S.busySlot slot.toNat = true ∨ w.st.busySlot slot.toNat = true) : commandUpdate S slot w = answer 0x02#8 .busy w := by
  rw [commandUpdate_eq hw, if_neg hslot.not_ge, if_neg hhalt, if_neg hqueue, if_pos hbusy]

theorem commandUpdate_of_accepted (hw : HostSide S w.st) (hslot : slot.toNat < S.params.N) (hhalt : w.st.eng ≠ .halted)
    (hqueue : ¬(S.queued slot.toNat = false ∨ w.st.queued slot.toNat = false))
    (hbusy : ¬(S.busySlot slot.toNat = true ∨ w.st.busySlot slot.toNat = true)) :
    commandUpdate S slot w = answer 0x02#8 .accepted { w with st := { w.st with mem := updateSlot S slot.toNat S.mem } } := by
  rw [commandUpdate_eq hw, if_neg hslot.not_ge, if_neg hhalt, if_neg hqueue, if_neg hbusy, hw.mem]

end

/-- Settles O25: the five outcomes of R172, then the slot's words and bytes after the rewrite. What the stages before the bus have made
stays the opaque state `w`: its engine, head and memory are those of `n`. -/
theorem updateRewritesQueuedBlock : Obligations.UpdateRewritesQueuedBlock := by
  intro s slot hr
  have hhost : HostSide s (beforeBus s false).st := beforeBus_hostSide s false
  have hexec : ∀ w, commandUpdate s slot (beforeBus s false) = w → exec (.update slot) s = .next (irqUpdate s 0#5 w) :=
    fun _ => exec_of_busStage (i := .update slot) hr rfl rfl
  rw [idleCycle_of_no_reset hr]
  generalize beforeBus s false = w at hhost hexec ⊢
  refine ⟨fun hbad => ?badArg, fun hsl hhalt => ?halted, fun hsl hhalt hq => ?notQueued, fun hsl hhalt hq hb => ?busy,
    fun hsl hhalt hq hb => ?accepted, slot_updateSlot s _ s.mem,
    fun x hx => byteAt_updateSlot_of_outside s _ s.mem x (by unfold slotAddr; omega)⟩
  case badArg => exact hexec _ (commandUpdate_of_badArg hhost hbad)
  case halted => exact hexec _ (commandUpdate_of_halted hhost hsl hhalt)
  case notQueued => exact hexec _ (commandUpdate_of_notQueued hhost hsl hhalt hq)
  case busy => exact hexec _ (commandUpdate_of_busy hhost hsl hhalt hq hb)
  case accepted => exact hexec _ (commandUpdate_of_accepted hhost hsl hhalt hq hb)

end Sys2Proof.Machine

/-! Proof of O27. Each outcome of QSTOP in the state the stages before the bus have made. A flush and a finished stop move the head, so
their IDLE event is that of the new state; a stop begun leaves R54's predicates alone. -/

namespace Sys2Proof.Machine

theorem commandQstop_of_halted {S : State} {w : Work} (h : w.st.eng = .halted) : commandQstop S w = answer 0x04#8 .halted w := by
  rw [commandQstop, h]

theorem commandQstop_of_idle {S : State} {w : Work} (h : w.st.eng = .idle) :
    commandQstop S w = answer 0x04#8 .accepted { st := { w.st with head := S.tail }, ev := w.ev ||| evQstopDone } := by
  rw [commandQstop, h]

theorem commandQstop_of_slow {S : State} {w : Work} (h : w.st.eng = .run) (hrate : w.st.rate.toNat ≤ S.cfgMinRate.toNat) :
    commandQstop S w = answer 0x04#8 .accepted (finishStop S w) := by
  simp only [commandQstop, h, if_pos hrate]

theorem commandQstop_of_fast {S : State} {w : Work} (h : w.st.eng = .run) (hrate : S.cfgMinRate.toNat < w.st.rate.toNat) :
    commandQstop S w = answer 0x04#8 .accepted (beginStop w) := by
  simp only [commandQstop, h, if_neg (Nat.not_le.2 hrate)]

/-- Settles O27: the four cases of R175, each by its equation, over the opaque state `w` the stages before the bus have made. -/
theorem qstopStops : Obligations.QstopStops := by
  intro s hr
  have hexec : ∀ w, commandQstop s (beforeBus s false) = w → exec .qstop s = .next (irqUpdate s 0#5 w) :=
    fun _ => exec_of_busStage (i := .qstop) hr rfl rfl
  have hevents : s.engineEvents = (beforeBus s false).ev := rfl
  rw [idleCycle_of_no_reset hr, hevents]
  generalize beforeBus s false = w at hexec ⊢
  refine ⟨fun hhalt => ?halted, fun hstill => ?idle, fun hrun hslow => ?finish, fun hrun hfast => ?begin⟩
  case halted => exact hexec _ (commandQstop_of_halted hhalt)
  case idle => exact (hexec _ (commandQstop_of_idle hstill)).trans (congrArg _ (irqUpdate_of_raised s rfl))
  case finish => exact (hexec _ (commandQstop_of_slow hrun hslow)).trans (congrArg _ (irqUpdate_of_raised s (ev := w.ev) rfl))
  case begin => exact hexec _ (commandQstop_of_fast hrun hfast)

end Sys2Proof.Machine

/-! Proof of O23. NOP is an answer and nothing else. -/

namespace Sys2Proof.Machine

/-- Settles O23: the bus stage of NOP is the answer itself. -/
theorem nopOnlyAccepts : Obligations.NopOnlyAccepts := by
  intro s hr t
  have hword : CommandRecord.word { result := .accepted, opcode := 0x00#8 } = 0x00000001#32 := by decide
  exact ⟨exec_of_answer (i := .nop) hr rfl rfl rfl, fun _ => hword⟩

end Sys2Proof.Machine

/-! The engine stage as one list of outcomes (R102, R103): which state it starts from, and under which conditions it halts, waits, claims,
finishes a stop or schedules the next step. Every invariant below is proved over this list. -/

namespace Sys2Proof.Machine

/-- The block in the slot that the queue index `h` names. -/
abbrev State.blockAt (S : State) (h : QueueIndex) : Block := decodeBlock S.params S.mem (slotOf S.params h)

/-- The axes whose endstop triggers in this cycle's step event. -/
abbrev State.triggered (S : State) : AxisMask := endstopSample S S.sample.endstopIn S.headBlock

/-- The working state after the Bresenham step of the head block. -/
abbrev State.emitted (S : State) : Work := emitStep S S.headBlock (counted S)

/-- The states from which the engine attempts to load the block at `h`: IDLE, or a step event that has retired its block with no stop in
progress. -/
inductive LoadBase (S : State) : QueueIndex → Work → Prop
  | idle (hidle : S.eng = .idle) : LoadBase S S.head (counted S)
  | homing (hrun : S.eng = .run) (hcd : S.cd = 1#32) (hstop : S.stopping = false) (htrig : S.triggered ≠ 0#16)
      (hhoming : S.headBlock.homing = true) : LoadBase S (nextIndex S.params S.head) (afterHoming S S.triggered (counted S))
  | complete (hrun : S.eng = .run) (hcd : S.cd = 1#32) (hstop : S.stopping = false) (htrig : S.triggered = 0#16)
      (hlast : S.stepIndex.toNat + 1 = S.headBlock.dominant S.params) :
      LoadBase S (nextIndex S.params S.head) (retire S S.emitted)

/-- The states of a step event from which a controlled stop finishes (R205). -/
inductive StopBase (S : State) : Work → Prop
  | homing (htrig : S.triggered ≠ 0#16) (hhoming : S.headBlock.homing = true) : StopBase S (afterHoming S S.triggered (counted S))
  | complete (htrig : S.triggered = 0#16) (hlast : S.stepIndex.toNat + 1 = S.headBlock.dominant S.params) :
      StopBase S (retire S S.emitted)
  | slow (htrig : S.triggered = 0#16) (hmore : S.stepIndex.toNat + 1 ≠ S.headBlock.dominant S.params)
      (hslow : (nextRate S S.headBlock (nextPhase S S.headBlock (S.stepIndex.toNat + 1))).1 ≤ S.cfgMinRate.toNat) :
      StopBase S (scheduled S S.headBlock (S.stepIndex.toNat + 1) S.emitted)

/-- What the emergency stop (`true`) or the engine stage (`false`) makes of the counted state. -/
inductive EngineEffect (S : State) : Bool → Work → Prop
  | estop : EngineEffect S true (estopHalt S (counted S))
  | count (hrun : S.eng = .run) (hcd : S.cd ≠ 1#32) :
      EngineEffect S false { counted S with st := { counting S with cd := S.cd - 1#32 } }
  | rest (hhalt : S.eng = .halted) : EngineEffect S false (counted S)
  | wait {h : QueueIndex} {w : Work} (hbase : LoadBase S h w)
      (hwait : S.bs.busy = true ∨ depth S.params h S.tail = 0
        ∨ (validate S.params (S.blockAt h) = 0 ∧ changesDirection S.params (S.blockAt h) S.dirLat = true
          ∧ (S.pt ≠ 0#16 ∨ w.st.pt ≠ 0#16))) :
      EngineEffect S false w
  | bad {h : QueueIndex} {w : Work} (hbase : LoadBase S h w) (hbusy : S.bs.busy = false) (hdepth : depth S.params h S.tail ≠ 0)
      (hbad : validate S.params (S.blockAt h) ≠ 0) :
      EngineEffect S false (halt S .badBlock (validate S.params (S.blockAt h)) (slotOf S.params h) 0#16 w)
  | claim {h : QueueIndex} {w : Work} (hbase : LoadBase S h w) (hbusy : S.bs.busy = false) (hdepth : depth S.params h S.tail ≠ 0)
      (hvalid : validate S.params (S.blockAt h) = 0)
      (hpulse : changesDirection S.params (S.blockAt h) S.dirLat = true → S.pt = 0#16 ∧ w.st.pt = 0#16) :
      EngineEffect S false (claim S (S.blockAt h) (changesDirection S.params (S.blockAt h) S.dirLat) w)
  | fault (hrun : S.eng = .run) (hcd : S.cd = 1#32) (htrig : S.triggered ≠ 0#16) (hhoming : S.headBlock.homing = false) :
      EngineEffect S false (halt S .endstop 0 S.headSlot S.triggered (counted S))
  | finish {w : Work} (hrun : S.eng = .run) (hcd : S.cd = 1#32) (hstop : S.stopping = true) (hbase : StopBase S w) :
      EngineEffect S false (finishStop S w)
  | schedule (hrun : S.eng = .run) (hcd : S.cd = 1#32) (htrig : S.triggered = 0#16)
      (hmore : S.stepIndex.toNat + 1 ≠ S.headBlock.dominant S.params)
      (hgo : S.stopping = false ∨ S.cfgMinRate.toNat < (nextRate S S.headBlock (nextPhase S S.headBlock (S.stepIndex.toNat + 1))).1) :
      EngineEffect S false (scheduled S S.headBlock (S.stepIndex.toNat + 1) S.emitted)

/-! ### The state a load starts from -/

/-- The engine's registers that neither the homing abort nor the Bresenham step nor a retire writes. -/
structure LoadKeeps (S n : State) : Prop where
  dirLat : n.dirLat = S.dirLat
  extSel : n.extSel = S.extSel
  bsPending : n.bsPending = S.bsPending
  rate : n.rate = S.rate
  rem : n.rem = S.rem
  interval : n.interval = S.interval
  fault : n.fault = S.fault
  stopping : n.stopping = S.stopping

/-- The counters a load starts with: the counting stage's. -/
structure LoadCounts (S n : State) : Prop where
  bs : n.bs = (counting S).bs
  settle : n.settle = (counting S).settle
  bsCount : n.bsCount = (counting S).bsCount

theorem LoadBase.engineSide {S : State} {h : QueueIndex} {w : Work} (hbase : LoadBase S h w) : LoadKeeps S w.st := by
  have hkeep := counting_engineSide S
  cases hbase <;> exact ⟨hkeep.dirLat, hkeep.extSel, hkeep.bsPending, hkeep.rate, hkeep.rem, hkeep.interval, hkeep.fault, hkeep.stopping⟩

theorem LoadBase.hostSide {S : State} {h : QueueIndex} {w : Work} (hbase : LoadBase S h w) : HostSide S w.st := by
  have hhost := counting_hostSide S
  cases hbase with
  | idle => exact hhost
  | homing => exact afterHoming_hostSide _ hhost
  | complete => exact retire_hostSide (emitStep_hostSide _ hhost)

theorem LoadBase.counts {S : State} {h : QueueIndex} {w : Work} (hbase : LoadBase S h w) : LoadCounts S w.st := by
  cases hbase <;> exact ⟨rfl, rfl, rfl⟩

theorem LoadBase.head {S : State} {h : QueueIndex} {w : Work} (hbase : LoadBase S h w) : w.st.head = h ∧ w.st.eng = .idle := by
  have hkeep := counting_engineSide S
  cases hbase with
  | idle hidle => exact ⟨hkeep.head, hkeep.eng.trans hidle⟩
  | homing => exact ⟨rfl, rfl⟩
  | complete => exact ⟨rfl, rfl⟩

theorem LoadBase.not_halted {S : State} {h : QueueIndex} {w : Work} (hbase : LoadBase S h w) : S.eng ≠ .halted := by
  cases hbase with
  | idle hidle => exact fun hhalt => absurd (hidle.symm.trans hhalt) nofun
  | homing hrun => exact fun hhalt => absurd (hrun.symm.trans hhalt) nofun
  | complete hrun => exact fun hhalt => absurd (hrun.symm.trans hhalt) nofun

/-- A busy block between its events loads nothing. -/
theorem LoadBase.event_due {S : State} {h : QueueIndex} {w : Work} (hbase : LoadBase S h w) (hrun : S.eng = .run) : S.cd = 1#32 := by
  cases hbase with
  | idle hidle => exact absurd (hidle.symm.trans hrun) nofun
  | homing _ hcd => exact hcd
  | complete _ hcd => exact hcd

/-- The load attempt from one of its states. -/
theorem loadAttempt_effect {S : State} {h : QueueIndex} {w : Work} (hbase : LoadBase S h w) : EngineEffect S false (loadAttempt S h w) := by
  have hdir := hbase.engineSide.dirLat
  rcases loadAttempt_cases S h w with ⟨e, hwait⟩ | ⟨hbusy, hdepth, hbad, e⟩ | ⟨hbusy, hdepth, hvalid, hpulse, e⟩ <;> rw [e]
  · exact .wait hbase (hdir ▸ hwait)
  · exact .bad hbase hbusy hdepth hbad
  · rw [hdir] at hpulse ⊢
    exact .claim hbase hbusy hdepth hvalid hpulse

theorem stepEvent_effect {S : State} (hrun : S.eng = .run) (hcd : S.cd = 1#32) :
    EngineEffect S false (stepEvent S S.sample.endstopIn (counted S)) := by
  rcases stepEvent_cases S S.sample.endstopIn (counted S) with
    ⟨htrig, hhoming, e⟩ | ⟨htrig, hhoming, e⟩ | ⟨htrig, hlast, e⟩ | ⟨htrig, hmore, e⟩ <;> rw [e]
  · rcases homingAbort_cases S S.triggered (counted S) with ⟨hstop, e⟩ | ⟨hstop, e⟩ <;> rw [e]
    · exact .finish hrun hcd hstop (.homing htrig hhoming)
    · exact loadAttempt_effect (.homing hrun hcd hstop htrig hhoming)
  · exact .fault hrun hcd htrig hhoming
  · rcases complete_cases S S.emitted with ⟨hstop, e⟩ | ⟨hstop, e⟩ <;> rw [e]
    · exact .finish hrun hcd hstop (.complete htrig hlast)
    · exact loadAttempt_effect (.complete hrun hcd hstop htrig hlast)
  · rcases nextInterval_cases S S.headBlock (S.stepIndex.toNat + 1) S.emitted with ⟨hstop, hslow, e⟩ | ⟨hgo, e⟩ <;> rw [e]
    · exact .finish hrun hcd hstop (.slow htrig hmore hslow)
    · exact .schedule hrun hcd htrig hmore hgo


/-- Every cycle outside reset has one of the listed outcomes before its babystep start. -/
theorem afterEngine_effect (S : State) (e : Bool) : EngineEffect S (S.sample.estopIn || e) (afterEngine S e) := by
  unfold afterEngine
  cases S.sample.estopIn || e with
  | true => exact .estop
  | false =>
    rcases engine_cases S S.sample.endstopIn (counted S) with ⟨hrun, hcd, h⟩ | ⟨hrun, hcd, h⟩ | ⟨hidle, h⟩ | ⟨hhalt, h⟩
    · exact h ▸ stepEvent_effect hrun hcd
    · exact h ▸ .count hrun hcd
    · exact h ▸ loadAttempt_effect (.idle hidle)
    · exact h ▸ .rest hhalt

end Sys2Proof.Machine

/-! Proof of O47, first half: the stages before the bus keep the invariants of R55. Each point is read off the list of outcomes. -/

namespace Sys2Proof.Machine

/-! ### Reading a state whose host side is that of `S` -/

theorem HostSide.depth_eq {S n : State} (hhost : HostSide S n) : n.depth = depth S.params n.head S.tail := by
  rw [State.depth, hhost.params, hhost.tail]

theorem HostSide.headBlock_eq {S n : State} (hhost : HostSide S n) : n.headBlock = S.blockAt n.head := by
  rw [State.headBlock, State.headSlot, hhost.params, hhost.mem]

theorem EngineEffect.hostSide {S : State} {e : Bool} {w : Work} (h : EngineEffect S e w) : HostSide S w.st := by
  have hhost := counting_hostSide S
  cases h with
  | estop => exact halt_hostSide _ _ _ _ hhost
  | count => exact ⟨hhost.params, hhost.tail, hhost.cmdres, hhost.mem, hhost.home, hhost.irqStatus, hhost.irqEnable, hhost.errFlags,
      hhost.cfgStepInv, hhost.cfgDirInv, hhost.cfgEsEn, hhost.cfgEsDir, hhost.cfgEsInv, hhost.cfgPulseWidth, hhost.cfgDirSetup,
      hhost.cfgMinInterval, hhost.cfgMinRate, hhost.busRdata, hhost.pins, hhost.host, hhost.cycle⟩
  | rest => exact hhost
  | wait hbase => exact hbase.hostSide
  | bad hbase => exact halt_hostSide _ _ _ _ hbase.hostSide
  | claim hbase => exact claim_hostSide _ _ hbase.hostSide
  | fault => exact halt_hostSide _ _ _ _ hhost
  | finish _ _ _ hbase =>
    cases hbase with
    | homing => exact finishStop_hostSide (afterHoming_hostSide _ hhost)
    | complete => exact finishStop_hostSide (retire_hostSide (emitStep_hostSide _ hhost))
    | slow => exact finishStop_hostSide (scheduled_hostSide _ _ (emitStep_hostSide _ hhost))
  | schedule => exact scheduled_hostSide _ _ (emitStep_hostSide _ hhost)

/-! ### The pulse and the sequencer -/

/-- The pulse counter and mask of a cycle: the pulse counts on (R101), or a step event begins one (R137). -/
def PulseOutcome (S : State) (pt : BitVec 16) (pmask : ChannelMask) : Prop :=
  (pt = (counting S).pt ∧ pmask = (counting S).pmask)
  ∨ (S.eng = .run ∧ S.cd = 1#32 ∧ S.triggered = 0#16 ∧ pt = S.cfgPulseWidth
      ∧ pmask = channelMask S.params S.headBlock.ext (pulses S S.headBlock))

theorem counted_pulse (S : State) : PulseOutcome S (counted S).st.pt (counted S).st.pmask := .inl ⟨rfl, rfl⟩

theorem emitted_pulse {S : State} (hrun : S.eng = .run) (hcd : S.cd = 1#32) (htrig : S.triggered = 0#16) :
    PulseOutcome S S.emitted.st.pt S.emitted.st.pmask :=
  .inr ⟨hrun, hcd, htrig, emitStep_pt _ _ _, emitStep_pmask _ _ _⟩

theorem scheduled_pulse (S : State) (b : Block) (i : Nat) (w : Work) :
    (scheduled S b i w).st.pt = w.st.pt ∧ (scheduled S b i w).st.pmask = w.st.pmask := ⟨rfl, rfl⟩

theorem LoadBase.pulse {S : State} {h : QueueIndex} {w : Work} (hbase : LoadBase S h w) : PulseOutcome S w.st.pt w.st.pmask := by
  cases hbase with
  | idle => exact counted_pulse S
  | homing => exact counted_pulse S
  | complete hrun hcd _ htrig => rw [retire_pt, retire_pmask]; exact emitted_pulse hrun hcd htrig

theorem StopBase.pulse {S : State} {w : Work} (hrun : S.eng = .run) (hcd : S.cd = 1#32) (hbase : StopBase S w) :
    PulseOutcome S w.st.pt w.st.pmask := by
  cases hbase with
  | homing => exact counted_pulse S
  | complete htrig => rw [retire_pt, retire_pmask]; exact emitted_pulse hrun hcd htrig
  | slow htrig => rw [(scheduled_pulse _ _ _ _).1, (scheduled_pulse _ _ _ _).2]; exact emitted_pulse hrun hcd htrig

theorem EngineEffect.pulse {S : State} {e : Bool} {w : Work} (h : EngineEffect S e w) : PulseOutcome S w.st.pt w.st.pmask := by
  cases h with
  | estop => exact counted_pulse S
  | count => exact counted_pulse S
  | rest => exact counted_pulse S
  | wait hbase => exact hbase.pulse
  | bad hbase => rw [halt_pt, halt_pmask]; exact hbase.pulse
  | claim hbase => rw [claim_pt, claim_pmask]; exact hbase.pulse
  | fault => exact counted_pulse S
  | finish hrun hcd _ hbase => rw [finishStop_pt, finishStop_pmask]; exact hbase.pulse hrun hcd
  | schedule hrun hcd htrig => rw [(scheduled_pulse _ _ _ _).1, (scheduled_pulse _ _ _ _).2]; exact emitted_pulse hrun hcd htrig

/-- The sequencer is the counting stage's, but for one a halt aborts (R219). -/
theorem EngineEffect.sequencer {S : State} {e : Bool} {w : Work} (h : EngineEffect S e w) :
    (w.st.bs = (counting S).bs ∧ (w.st.eng = .halted → S.eng ≠ .halted → S.babystepNotPulsed = false))
    ∨ (S.babystepNotPulsed = true ∧ w.st.eng = .halted ∧ w.st.bs = { (counting S).bs with busy := false }) := by
  have hhalted : ∀ (c : Cause) (k sl : Nat) (ax : AxisMask) {v : Work}, v.st.bs = (counting S).bs →
      ((halt S c k sl ax v).st.bs = (counting S).bs
          ∧ ((halt S c k sl ax v).st.eng = .halted → S.eng ≠ .halted → S.babystepNotPulsed = false))
        ∨ (S.babystepNotPulsed = true ∧ (halt S c k sl ax v).st.eng = .halted
          ∧ (halt S c k sl ax v).st.bs = { (counting S).bs with busy := false }) := by
    intro c k sl ax v hv
    rcases halt_bs_cases S c k sl ax v with ⟨habort, e⟩ | ⟨habort, e⟩ <;> rw [e, hv]
    · exact .inr ⟨habort, rfl, rfl⟩
    · exact .inl ⟨rfl, fun _ _ => habort⟩
  have hkeep := counting_engineSide S
  cases h with
  | estop => exact hhalted _ _ _ _ rfl
  | count hrun => exact .inl ⟨rfl, fun hw => absurd (hkeep.eng.symm.trans hw) (by simp [hrun])⟩
  | rest hhalt => exact .inl ⟨rfl, fun _ hn => absurd hhalt hn⟩
  | wait hbase => exact .inl ⟨hbase.counts.bs, fun hw => absurd (hbase.head.2.symm.trans hw) (by decide)⟩
  | bad hbase => exact hhalted _ _ _ _ hbase.counts.bs
  | claim hbase => exact .inl ⟨hbase.counts.bs, nofun⟩
  | fault => exact hhalted _ _ _ _ rfl
  | finish _ _ _ hbase => cases hbase <;> exact .inl ⟨rfl, nofun⟩
  | schedule hrun => exact .inl ⟨rfl, fun hw => absurd (hkeep.eng.symm.trans hw) (by simp [hrun])⟩

theorem counting_pulse_mask (S : State) : (counting S).pt = 0#16 → (counting S).pmask = 0#23 := by
  intro hpt
  have hnat : S.pt.toNat - 1 = 0 := by rw [← counting_pt_toNat, hpt]; rfl
  rw [(counting_pulse S).2.1, if_pos hnat]

theorem counting_sequence {S : State} (hS : Inv S) :
    (counting S).bs.busy = true → 1 ≤ (counting S).bs.k.toNat ∧ (counting S).bs.k.toNat ≤ (counting S).bs.len.toNat := by
  rcases counting_bs_cases S with ⟨hb, e⟩ | ⟨_, _, e⟩ | ⟨hb, hk, e⟩ <;> rw [e]
  · simp [hb]
  · exact nofun
  · obtain ⟨h1, h2⟩ := hS.sequence hb
    have hne : S.bs.k.toNat ≠ S.bs.len.toNat := fun h => hk (BitVec.eq_of_toNat_eq h)
    have hlen := S.bs.len.isLt
    intro _
    simp only [BitVec.toNat_add, BitVec.toNat_ofNat]
    omega

theorem EngineEffect.pulse_mask {S : State} {e : Bool} {w : Work} (hS : Inv S) (h : EngineEffect S e w) :
    w.st.pt = 0#16 → w.st.pmask = 0#23 := by
  rcases h.pulse with ⟨hpt, hmask⟩ | ⟨_, _, _, hpt, _⟩ <;> rw [hpt]
  · rw [hmask]; exact counting_pulse_mask S
  · intro hzero
    have hpos := hS.width_pos
    simp [hzero] at hpos

theorem EngineEffect.sequence {S : State} {e : Bool} {w : Work} (hS : Inv S) (h : EngineEffect S e w) :
    w.st.bs.busy = true → 1 ≤ w.st.bs.k.toNat ∧ w.st.bs.k.toNat ≤ w.st.bs.len.toNat := by
  rcases h.sequencer with ⟨hbs, _⟩ | ⟨_, _, hbs⟩ <;> rw [hbs]
  · exact counting_sequence hS
  · exact nofun

/-! ### The queue -/

/-- A load takes no block on: the depth is that of `S`, or one less after a retire. -/
theorem LoadBase.depth_le {S : State} {h : QueueIndex} {w : Work} (hS : Inv S) (hbase : LoadBase S h w) :
    depth S.params h S.tail ≤ S.depth := by
  have hretired : S.eng = .run → depth S.params (nextIndex S.params S.head) S.tail ≤ S.depth := by
    intro hrun
    rw [depth_nextIndex_head _ _ _ (hS.running hrun).depth_pos]
    exact Nat.sub_le _ _
  cases hbase with
  | idle => exact Nat.le_refl _
  | homing hrun => exact hretired hrun
  | complete hrun => exact hretired hrun

/-- The engine stage takes no block on, and a halt flushes the queue (R200). -/
theorem EngineEffect.queue {S : State} {e : Bool} {w : Work} (hS : Inv S) (h : EngineEffect S e w) :
    w.st.depth ≤ S.depth ∧ (w.st.eng = .halted → w.st.depth = 0) := by
  have hkeep := counting_engineSide S
  rw [h.hostSide.depth_eq]
  have hflushed : depth S.params S.tail S.tail ≤ S.depth ∧ (w.st.eng = .halted → depth S.params S.tail S.tail = 0) := by simp
  cases h with
  | estop => exact hflushed
  | count hrun =>
    show depth S.params (counting S).head S.tail ≤ S.depth ∧ _
    exact ⟨Nat.le_of_eq (by rw [hkeep.head]; rfl), fun hw => absurd (hkeep.eng.symm.trans hw) (by simp [hrun])⟩
  | rest hhalt =>
    have hhead : (counted S).st.head = S.head := hkeep.head
    rw [hhead]
    exact ⟨Nat.le_refl _, fun _ => hS.halted_empty hhalt⟩
  | wait hbase =>
    rw [hbase.head.1]
    exact ⟨hbase.depth_le hS, fun hw => absurd (hbase.head.2.symm.trans hw) (by decide)⟩
  | bad => exact hflushed
  | claim hbase =>
    rw [claim_head, hbase.head.1]
    exact ⟨hbase.depth_le hS, nofun⟩
  | fault => exact hflushed
  | finish => exact hflushed
  | schedule hrun =>
    show depth S.params (counting S).head S.tail ≤ S.depth ∧ _
    exact ⟨Nat.le_of_eq (by rw [hkeep.head]; rfl), fun hw => absurd (hkeep.eng.symm.trans hw) (by simp [hrun])⟩

/-! ### The engine's registers -/

/-- While the engine is not RUN its countdown, phase and stop are clear (R55.3). -/
theorem EngineEffect.still {S : State} {e : Bool} {w : Work} (hS : Inv S) (h : EngineEffect S e w) (hrun : w.st.eng ≠ .run) :
    w.st.cd = 0#32 ∧ w.st.phase = .none ∧ w.st.stopping = false := by
  have hkeep := counting_engineSide S
  have hcounted : S.eng ≠ .run → (counting S).cd = 0#32 ∧ (counting S).phase = .none ∧ (counting S).stopping = false := by
    intro hS'
    have hstop : S.stopping = false := by
      by_contra hs
      exact hS' (hS.stopping_run (by simpa using hs)).1
    exact ⟨hkeep.cd.trans (hS.not_running hS').1, hkeep.phase.trans (hS.not_running hS').2, hkeep.stopping.trans hstop⟩
  cases h with
  | estop => exact ⟨rfl, rfl, rfl⟩
  | count hr => exact absurd (hkeep.eng.trans hr) hrun
  | rest hhalt => exact hcounted (by simp [hhalt])
  | wait hbase =>
    cases hbase with
    | idle hidle => exact hcounted (by simp [hidle])
    | homing _ _ hstop => exact ⟨rfl, rfl, hkeep.stopping.trans hstop⟩
    | complete _ _ hstop => exact ⟨rfl, rfl, hkeep.stopping.trans hstop⟩
  | bad => exact ⟨rfl, rfl, rfl⟩
  | claim => exact absurd rfl hrun
  | fault => exact ⟨rfl, rfl, rfl⟩
  | finish => exact ⟨rfl, rfl, rfl⟩
  | schedule hr => exact absurd (hkeep.eng.trans hr) hrun

theorem EngineEffect.rem_lt {S : State} {e : Bool} {w : Work} (hS : Inv S) (h : EngineEffect S e w) :
    w.st.rem.toNat < S.params.fTimer := by
  have hkeep := counting_engineSide S
  have hcounted : (counting S).rem.toNat < S.params.fTimer := hkeep.rem ▸ hS.rem_lt
  have hzero : (0#32 : Word).toNat < S.params.fTimer := timer_pos S.params
  cases h with
  | estop => exact hzero
  | count => exact hcounted
  | rest => exact hcounted
  | wait hbase => rw [hbase.engineSide.rem]; exact hS.rem_lt
  | bad => exact hzero
  | claim => exact hzero
  | fault => exact hzero
  | finish => exact hzero
  | schedule =>
    have hlt := nextRate_rem_lt S S.headBlock (nextPhase S S.headBlock (S.stepIndex.toNat + 1)) hS.rem_lt
    exact Nat.lt_of_le_of_lt (Nat.mod_le _ _) hlt

/-- A claimed block satisfies R55.2 from its first cycle. -/
theorem claim_runInv {S : State} {h : QueueIndex} {w : Work} (hbase : LoadBase S h w)
    (hdepth : depth S.params h S.tail ≠ 0) (hvalid : validate S.params (S.blockAt h) = 0) (chg : Bool) :
    RunInv (claim S (S.blockAt h) chg w).st := by
  have hhost := claim_hostSide (S.blockAt h) chg hbase.hostSide
  have hhead : (claim S (S.blockAt h) chg w).st.head = h := hbase.head.1
  have hblock := hhost.headBlock_eq.trans (congrArg S.blockAt hhead)
  have hpos := ((validate_eq_zero _ _).1 hvalid).dominant_pos
  have hD : (S.blockAt h).dominant S.params < 2 ^ 31 := decodeBlock_dominant_lt S.params S.mem (slotOf S.params h)
  have hfirst := ivl_ge S (S.blockAt h).initial
  have hfirst' := ivl_le S (S.blockAt h).initial
  have hsetup := S.cfgDirSetup.isLt
  refine ⟨?_, ?_, ?_, ?_, ?_, ?_, fun a ha => ?_⟩
  · rw [hhost.depth_eq, hhead]; omega
  · rw [claim_cd, BitVec.toNat_ofNat]; split <;> omega
  · show phaseOf 0 _ ≠ _
    unfold phaseOf; split_ifs <;> decide
  · rw [claim_interval, ivl_toNat, hhost.cfgPulseWidth]; exact hfirst
  · rw [hblock, hhost.params]; exact hvalid
  · rw [hblock, hhost.params]; exact hpos
  · rw [hhost.params] at ha
    rw [hblock, hhost.params, claim_errTerm, update_get, if_pos ha, BitVec.toNat_ofNat]
    omega

/-- A step event that is not the last leaves R55.2, for the next event. -/
theorem scheduled_runInv {S : State} (hS : Inv S) (hrun : S.eng = .run)
    (hmore : S.stepIndex.toNat + 1 ≠ S.headBlock.dominant S.params) :
    RunInv (scheduled S S.headBlock (S.stepIndex.toNat + 1) S.emitted).st := by
  have hr := hS.running hrun
  have hvalid := (validate_eq_zero _ _).1 hr.block_valid
  have hhost : HostSide S (scheduled S S.headBlock (S.stepIndex.toNat + 1) S.emitted).st :=
    scheduled_hostSide _ _ (emitStep_hostSide _ (counting_hostSide S))
  have hhead : (scheduled S S.headBlock (S.stepIndex.toNat + 1) S.emitted).st.head = S.head := (counting_engineSide S).head
  have hblock := hhost.headBlock_eq.trans (congrArg S.blockAt hhead)
  have hD : S.headBlock.dominant S.params < 2 ^ 31 := decodeBlock_dominant_lt S.params S.mem (slotOf S.params S.head)
  have hindex := hr.index_lt
  refine ⟨?_, ?_, ?_, ?_, ?_, ?_, fun a ha => ?_⟩
  · rw [hhost.depth_eq, hhead]; exact hr.depth_pos
  · show 1 ≤ (BitVec.ofNat 32 (ivl S _)).toNat
    rw [ivl_toNat]; exact Nat.le_trans (Nat.le_add_left _ _) (ivl_ge S _)
  · show nextPhase S _ _ ≠ _
    unfold nextPhase phaseOf; split_ifs <;> decide
  · show _ ≤ (BitVec.ofNat 32 (ivl S _)).toNat
    rw [ivl_toNat, hhost.cfgPulseWidth]; exact ivl_ge S _
  · rw [hblock, hhost.params]; exact hr.block_valid
  · rw [hblock, hhost.params]
    show (S.stepIndex + 1#32).toNat < S.headBlock.dominant S.params
    rw [BitVec.toNat_add, BitVec.toNat_ofNat]
    omega
  · rw [hhost.params] at ha
    rw [hblock, hhost.params]
    show 1 ≤ S.emitted.st.errTerm[a].toNat ∧ S.emitted.st.errTerm[a].toNat ≤ S.headBlock.dominant S.params
    obtain ⟨h1, h2⟩ := hr.err_range a ha
    rw [emitStep_errTerm_toNat S S.headBlock _ a ha (hvalid.steps_le a ha) hD h2]
    exact bresenham_range _ _ _ (hvalid.steps_le a ha) h1 h2

/-- The engine stage leaves R55.2 wherever it leaves RUN. -/
theorem EngineEffect.running {S : State} {e : Bool} {w : Work} (hS : Inv S) (h : EngineEffect S e w) (hw : w.st.eng = .run) :
    RunInv w.st ∧ (w.st.stopping = true → w.st.phase = .decel) := by
  have hkeep := counting_engineSide S
  have hhost := h.hostSide
  cases h with
  | estop => exact absurd hw nofun
  | count hrun hcd =>
    have hr := hS.running hrun
    have hblock := hhost.headBlock_eq.trans (congrArg S.blockAt hkeep.head)
    have hcd' : S.cd.toNat ≠ 1 := fun hc => hcd (BitVec.eq_of_toNat_eq hc)
    have hpos := hr.cd_pos
    have hlt := S.cd.isLt
    refine ⟨⟨?_, ?_, ?_, ?_, ?_, ?_, fun a ha => ?_⟩, fun hstop => ?_⟩
    · rw [hhost.depth_eq]; show 1 ≤ depth S.params (counting S).head S.tail; rw [hkeep.head]; exact hr.depth_pos
    · show 1 ≤ (S.cd - 1#32).toNat
      rw [BitVec.toNat_sub, BitVec.toNat_ofNat]; omega
    · show (counting S).phase ≠ _; rw [hkeep.phase]; exact hr.phase_some
    · rw [hhost.cfgPulseWidth]; show _ ≤ (counting S).interval.toNat; rw [hkeep.interval]; exact hr.interval_min
    · rw [hblock, hhost.params]; exact hr.block_valid
    · rw [hblock, hhost.params]; show (counting S).stepIndex.toNat < _; rw [hkeep.stepIndex]; exact hr.index_lt
    · rw [hhost.params] at ha
      rw [hblock, hhost.params]
      show 1 ≤ (counting S).errTerm[a].toNat ∧ (counting S).errTerm[a].toNat ≤ _
      rw [hkeep.errTerm]; exact hr.err_range a ha
    · exact hkeep.phase.trans (hS.stopping_run (hkeep.stopping.symm.trans hstop)).2
  | rest hhalt => exact absurd (hkeep.eng.symm.trans hw) (by simp [hhalt])
  | wait hbase => exact absurd (hbase.head.2.symm.trans hw) (by decide)
  | bad => exact absurd hw nofun
  | claim hbase hbusy hdepth hvalid =>
    refine ⟨claim_runInv hbase hdepth hvalid _, fun hstop => ?_⟩
    have hS' : S.stopping = true := hbase.engineSide.stopping.symm.trans hstop
    cases hbase with
    | idle hidle => exact absurd (hS.stopping_run hS').1 (by simp [hidle])
    | homing _ _ hno => exact absurd hS' (by simp [hno])
    | complete _ _ hno => exact absurd hS' (by simp [hno])
  | fault => exact absurd hw nofun
  | finish => exact absurd hw nofun
  | schedule hrun _ _ hmore =>
    refine ⟨scheduled_runInv hS hrun hmore, fun hstop => ?_⟩
    have hS' : S.stopping = true := hkeep.stopping.symm.trans hstop
    show nextPhase S _ _ = _
    simp [nextPhase, hS']

/-! ### The invariants before the bus -/

/-- Only the head slot is busy, so no two are (R55.9). -/
theorem busySlot_unique (s : State) (i j : Nat) (hi : s.busySlot i = true) (hj : s.busySlot j = true) : i = j := by
  simp only [State.busySlot, Bool.and_eq_true, decide_eq_true_eq] at hi hj
  exact hi.2.trans hj.2.symm

theorem EngineEffect.inv {S : State} {e : Bool} {w : Work} (hS : Inv S) (h : EngineEffect S e w) : Inv w.st where
  mem_wf := h.hostSide.mem ▸ hS.mem_wf
  width_pos := h.hostSide.cfgPulseWidth ▸ hS.width_pos
  rate_min_pos := h.hostSide.cfgMinRate ▸ hS.rate_min_pos
  depth_le := h.hostSide.params ▸ Nat.le_trans (h.queue hS).1 hS.depth_le
  running := fun hw => (h.running hS hw).1
  not_running := fun hw => ⟨(h.still hS hw).1, (h.still hS hw).2.1⟩
  halted_empty := (h.queue hS).2
  stopping_run := fun hstop => by
    by_cases hw : w.st.eng = .run
    · exact ⟨hw, (h.running hS hw).2 hstop⟩
    · exact absurd hstop (by simp [(h.still hS hw).2.2])
  pulse_mask := h.pulse_mask hS
  sequence := h.sequence hS
  rem_lt := h.hostSide.params ▸ h.rem_lt hS
  one_busy := fun i j _ _ => busySlot_unique w.st i j

/-- A sequence is at most 196,605 cycles long, so 18 bits hold it. -/
theorem babystepLength_toNat (S : State) (flip : Bool) : (BitVec.ofNat 18 (babystepLength S flip)).toNat = babystepLength S flip := by
  have h1 := S.cfgDirSetup.isLt
  have h2 := S.cfgPulseWidth.isLt
  rw [BitVec.toNat_ofNat]
  unfold babystepLength
  split <;> omega

theorem babystepLength_ge (S : State) (flip : Bool) : S.cfgPulseWidth.toNat ≤ babystepLength S flip := by
  unfold babystepLength; split <;> omega

/-- The invariants do not read the pending babysteps, and of the sequencer only the range of its counter. -/
theorem inv_of_sequencer {n : State} (hn : Inv n) (q : Babystep) (r : PerAxis (BitVec 16))
    (hq : q.busy = true → 1 ≤ q.k.toNat ∧ q.k.toNat ≤ q.len.toNat) : Inv { n with bs := q, bsPending := r } :=
  ⟨hn.mem_wf, hn.width_pos, hn.rate_min_pos, hn.depth_le,
    fun hrun => have hr := hn.running hrun
      ⟨hr.depth_pos, hr.cd_pos, hr.phase_some, hr.interval_min, hr.block_valid, hr.index_lt, hr.err_range⟩,
    hn.not_running, hn.halted_empty, hn.stopping_run, hn.pulse_mask, hq, hn.rem_lt, fun i j _ _ => busySlot_unique _ i j⟩

theorem beforeBus_inv {S : State} (hS : Inv S) (e : Bool) : Inv (beforeBus S e).st := by
  have hn := (afterEngine_effect S e).inv hS
  rw [beforeBus_eq]
  rcases babystepStart_cases S (S.sample.estopIn || e) (afterEngine S e).st with h | ⟨a, _, _, _, _, _, _, _, _, h⟩ <;> simp only [h]
  · exact hn
  · refine inv_of_sequencer hn _ _ fun _ => ⟨Nat.le_refl 1, ?_⟩
    rw [babystepLength_toNat]
    exact Nat.le_trans hS.width_pos (babystepLength_ge _ _)

end Sys2Proof.Machine

/-! What an access leaves alone, in the terms of `BusEffect`: the engine's counters and latches always, the configuration while locked, the
engine's control state while RUN, and the head slot while its block is busy. -/

namespace Sys2Proof.Machine

/-! ### Registers no access writes -/

/-- `m` agrees with `n` on the parameters and the registers that only the engine and the sequencer write. -/
structure BusKept (n m : State) : Prop where
  params : m.params = n.params
  stepIndex : m.stepIndex = n.stepIndex
  errTerm : m.errTerm = n.errTerm
  interval : m.interval = n.interval
  pt : m.pt = n.pt
  pmask : m.pmask = n.pmask
  settle : m.settle = n.settle
  dirLat : m.dirLat = n.dirLat
  extSel : m.extSel = n.extSel
  homed : m.homed = n.homed
  bs : m.bs = n.bs
  bsCount : m.bsCount = n.bsCount

/-- `m` agrees with `n` on the engine's control state and the queue (R22 to R26, R34, R36). -/
structure ControlKept (n m : State) : Prop where
  eng : m.eng = n.eng
  phase : m.phase = n.phase
  stopping : m.stopping = n.stopping
  head : m.head = n.head
  cd : m.cd = n.cd
  rate : m.rate = n.rate
  rem : m.rem = n.rem
  fault : m.fault = n.fault

/-- `m` agrees with `n` on the registers that are locked outside the unlocked states (R67, R268). -/
structure LockedKept (n m : State) : Prop where
  cfgStepInv : m.cfgStepInv = n.cfgStepInv
  cfgDirInv : m.cfgDirInv = n.cfgDirInv
  cfgEsEn : m.cfgEsEn = n.cfgEsEn
  cfgEsDir : m.cfgEsDir = n.cfgEsDir
  cfgEsInv : m.cfgEsInv = n.cfgEsInv
  cfgPulseWidth : m.cfgPulseWidth = n.cfgPulseWidth
  cfgDirSetup : m.cfgDirSetup = n.cfgDirSetup
  cfgMinInterval : m.cfgMinInterval = n.cfgMinInterval
  cfgMinRate : m.cfgMinRate = n.cfgMinRate
  home : m.home = n.home
  pos : m.pos = n.pos

theorem storeLocked_kept (v : Word) (n : State) (r : Reg) : BusKept n (storeLocked v n r) := by
  cases r <;> exact ⟨rfl, rfl, rfl, rfl, rfl, rfl, rfl, rfl, rfl, rfl, rfl, rfl⟩

theorem storeLocked_control (v : Word) (n : State) (r : Reg) :
    ControlKept n (storeLocked v n r) ∧ (storeLocked v n r).tail = n.tail ∧ (storeLocked v n r).mem = n.mem := by
  cases r <;> exact ⟨⟨rfl, rfl, rfl, rfl, rfl, rfl, rfl, rfl⟩, rfl, rfl⟩

theorem BusEffect.kept {S : State} {w w' : Work} (h : BusEffect S w w') : BusKept w.st w'.st := by
  cases h with
  | locked r v => exact storeLocked_kept v w.st r
  | _ => exact ⟨rfl, rfl, rfl, rfl, rfl, rfl, rfl, rfl, rfl, rfl, rfl, rfl⟩

theorem BusEffect.lockedKept {S : State} {w w' : Work} (h : BusEffect S w w') (hlock : S.unlocked = false) : LockedKept w.st w'.st := by
  cases h with
  | locked r v hopen => rw [hlock] at hopen; exact absurd hopen nofun
  | _ => exact ⟨rfl, rfl, rfl, rfl, rfl, rfl, rfl, rfl, rfl, rfl, rfl⟩

/-- The control state after an access: kept, or changed by QSTOP or CLEAR_HALT. -/
theorem BusEffect.control {S : State} {w w' : Work} (h : BusEffect S w w') :
    ControlKept w.st w'.st
    ∨ (w.st.eng = .idle ∧ w'.st.eng = .idle ∧ w'.st.head = S.tail)
    ∨ (w.st.eng = .run ∧ w'.st.eng = .idle ∧ w'.st.head = S.tail)
    ∨ (w.st.eng = .run ∧ w'.st.eng = .run ∧ w'.st.head = w.st.head ∧ w'.st.cd = w.st.cd ∧ w'.st.phase = .decel)
    ∨ (S.eng = .halted ∧ S.sample.estopIn = false ∧ w'.st.eng = .idle ∧ w'.st.head = w.st.head) := by
  cases h with
  | locked r v => exact .inl (storeLocked_control v w.st r).1
  | flush _ hidle => exact .inr (.inl ⟨hidle, hidle, rfl⟩)
  | finish _ _ hrun => exact .inr (.inr (.inl ⟨hrun, rfl, rfl⟩))
  | stop _ _ hrun => exact .inr (.inr (.inr (.inl ⟨hrun, hrun, rfl, rfl, rfl⟩)))
  | clearHalt _ _ hpin hhalt => exact .inr (.inr (.inr (.inr ⟨hhalt, hpin, rfl, rfl⟩)))
  | _ => exact .inl ⟨rfl, rfl, rfl, rfl, rfl, rfl, rfl, rfl⟩

/-- An access leaves RUN only where it found it, with the block and its countdown as they were. -/
theorem BusEffect.of_run {S : State} {w w' : Work} (h : BusEffect S w w') (hrun : w'.st.eng = .run) :
    w.st.eng = .run ∧ w'.st.head = w.st.head ∧ w'.st.cd = w.st.cd := by
  rcases h.control with hk | ⟨_, hi, _⟩ | ⟨_, hi, _⟩ | ⟨hr, _, hh, hc, _⟩ | ⟨_, _, hi, _⟩
  · exact ⟨hk.eng.symm.trans hrun, hk.head, hk.cd⟩
  · exact absurd (hi.symm.trans hrun) (by decide)
  · exact absurd (hi.symm.trans hrun) (by decide)
  · exact ⟨hr, hh, hc⟩
  · exact absurd (hi.symm.trans hrun) (by decide)

/-! ### The busy slot -/

/-- An access writes no byte of slot `sl`, if PUSH and UPDATE are kept off it by their tests. -/
theorem BusEffect.slot_frozen {S : State} {w w' : Work} (h : BusEffect S w w') {sl : Nat}
    (hpush : S.depth ≠ S.params.N → slotOf S.params S.tail ≠ sl)
    (hupdate : ∀ i, i < S.params.N → ¬(S.eng = .run ∧ slotOffset S.params i S.head = 0) →
      ¬(w.st.eng = .run ∧ slotOffset S.params i w.st.head = 0) → i ≠ sl)
    (x : Nat) (hlo : slotAddr sl 0 ≤ x) (hhi : x < slotAddr sl 0 + 128) :
    Memory.byteAt w'.st.mem x = Memory.byteAt w.st.mem x := by
  unfold slotAddr at hlo hhi
  cases h with
  | stage i v => exact byteAt_writeWord_of_outside _ _ _ _ (by unfold stageAddr; omega)
  | locked r v => rw [(storeLocked_control v w.st r).2.2]
  | push c _ _ hfull =>
    have hne := hpush hfull
    exact byteAt_push_of_outside _ _ _ _ _ (by unfold slotAddr; omega)
  | update c i hi _ h3 h4 =>
    have hne := hupdate i hi h3 h4
    exact byteAt_updateSlot_of_outside _ _ _ _ (by unfold slotAddr; omega)
  | _ => rfl

/-- The head slot of `S` while RUN (R68, R73). -/
theorem BusEffect.head_frozen {S : State} {w w' : Work} (hS : Inv S) (hrun : S.eng = .run) (h : BusEffect S w w') (x : Nat)
    (hlo : slotAddr S.headSlot 0 ≤ x) (hhi : x < slotAddr S.headSlot 0 + 128) :
    Memory.byteAt w'.st.mem x = Memory.byteAt w.st.mem x := by
  have hpos := (hS.running hrun).depth_pos
  have hle := hS.depth_le
  refine h.slot_frozen (fun hfull => slotOf_tail_ne_head _ _ _ hpos ?_) (fun i hi hne _ hsl => hne ⟨hrun, ?_⟩) x hlo hhi
  · exact Nat.lt_of_le_of_ne hle hfull
  · exact (slotOffset_eq_zero _ _ _ hi).2 hsl

/-- The head slot of the state before the bus while that is RUN. -/
theorem BusEffect.next_head_frozen {S : State} {w w' : Work} (hS : Inv S) (hw : Inv w.st) (hhost : HostSide S w.st)
    (hdepth : w.st.depth ≤ S.depth) (hrun : w.st.eng = .run) (h : BusEffect S w w') (x : Nat)
    (hlo : slotAddr w.st.headSlot 0 ≤ x) (hhi : x < slotAddr w.st.headSlot 0 + 128) :
    Memory.byteAt w'.st.mem x = Memory.byteAt w.st.mem x := by
  have hpos := (hw.running hrun).depth_pos
  have hle := hS.depth_le
  have hslot : w.st.headSlot = slotOf S.params w.st.head := by rw [State.headSlot, hhost.params]
  rw [hslot] at hlo hhi
  rw [hhost.depth_eq] at hpos hdepth
  refine h.slot_frozen (fun hfull => slotOf_tail_ne_head _ _ _ hpos ?_) (fun i hi _ hne hsl => hne ⟨hrun, ?_⟩) x hlo hhi
  · exact Nat.lt_of_le_of_lt hdepth (Nat.lt_of_le_of_ne hle hfull)
  · exact (slotOffset_eq_zero _ _ _ hi).2 hsl

theorem headBlock_congr {n m : State} (hp : m.params = n.params) (hh : m.head = n.head)
    (hmem : ∀ x, slotAddr n.headSlot 0 ≤ x → x < slotAddr n.headSlot 0 + 128 → Memory.byteAt m.mem x = Memory.byteAt n.mem x) :
    m.headBlock = n.headBlock := by
  have hslot : m.headSlot = n.headSlot := by rw [State.headSlot, hp, hh]; rfl
  rw [State.headBlock, State.headBlock, hslot, hp]
  exact decodeBlock_congr _ fun w hw => slot_congr hmem hw

/-! ### An unlocked machine -/

/-- An unlocked machine is not RUN, and no pulse, sequence or pending babystep is there (R54). -/
theorem unlocked_facts {S : State} (h : S.unlocked = true) :
    S.eng ≠ .run ∧ S.depth = 0 ∧ S.pt = 0#16 ∧ S.bs.busy = false ∧ ∀ a : Axis, a.val < S.params.A → S.bsPending[a] = 0#16 := by
  obtain ⟨heng, hquiet⟩ := (unlocked_iff S).1 h
  exact ⟨by rcases heng with h | h <;> simp [h], hquiet⟩

theorem unlocked_of_not {S : State} (h : ¬(S.eng ≠ .run ∧ S.pt = 0#16 ∧ S.bs.busy = false)) : S.unlocked = false := by
  by_contra hu
  obtain ⟨h1, _, h2, h3, _⟩ := unlocked_facts (by simpa using hu)
  exact h ⟨h1, h2, h3⟩

/-- The stages before the bus start nothing in an unlocked machine. -/
theorem EngineEffect.of_unlocked {S : State} {e : Bool} {w : Work} (hS : S.unlocked = true) (h : EngineEffect S e w) :
    w.st.eng ≠ .run ∧ w.st.pt = 0#16 ∧ w.st.bs.busy = false := by
  obtain ⟨hrun, hdepth, hpt, hbusy, _⟩ := unlocked_facts hS
  have hpt' : w.st.pt = 0#16 := by
    rcases h.pulse with ⟨hp, _⟩ | ⟨hr, _⟩
    · rw [hp, (counting_pulse S).1, hpt]; rfl
    · exact absurd hr hrun
  have hbs' : w.st.bs.busy = false := by
    have hc : (counting S).bs = S.bs := by rw [counting_bs, if_neg (by simp [hbusy])]
    rcases h.sequencer with ⟨hb, _⟩ | ⟨_, _, hb⟩ <;> rw [hb, hc]
    exact hbusy
  refine ⟨?_, hpt', hbs'⟩
  cases h with
  | estop => exact nofun
  | count hr => exact absurd hr hrun
  | rest hhalt => exact fun hw => absurd ((counting_engineSide S).eng.symm.trans hw) hrun
  | wait hbase => rw [hbase.head.2]; decide
  | bad => exact nofun
  | claim hbase _ hd =>
    cases hbase with
    | idle => exact absurd hdepth hd
    | homing hr => exact absurd hr hrun
    | complete hr => exact absurd hr hrun
  | fault hr => exact absurd hr hrun
  | finish hr => exact absurd hr hrun
  | schedule hr => exact absurd hr hrun

theorem beforeBus_of_unlocked {S : State} (hS : S.unlocked = true) (e : Bool) :
    (beforeBus S e).st.eng ≠ .run ∧ (beforeBus S e).st.pt = 0#16 ∧ (beforeBus S e).st.bs.busy = false := by
  have h := (afterEngine_effect S e).of_unlocked hS
  obtain ⟨_, _, _, _, hpend⟩ := unlocked_facts hS
  rw [beforeBus_eq]
  rcases babystepStart_cases S (S.sample.estopIn || e) (afterEngine S e).st with hb | ⟨a, ha, _⟩
  · simp only [hb]; exact h
  · have hmem := List.mem_of_find?_eq_some ha
    have hne := List.find?_some ha
    simp [hpend a ((mem_axes _ _).1 hmem)] at hne

end Sys2Proof.Machine

/-! Proof of O47, second half: the bus stage, the interrupt stage and the reset cycle keep the invariants of R55. -/

namespace Sys2Proof.Machine

theorem EngineEffect.of_halted {S : State} {e : Bool} {w : Work} (hhalt : S.eng = .halted) (h : EngineEffect S e w) :
    w.st.eng = .halted := by
  cases h with
  | estop => rfl
  | rest => exact (counting_engineSide S).eng.trans hhalt
  | wait hbase => exact absurd hhalt hbase.not_halted
  | bad => rfl
  | claim hbase => exact absurd hhalt hbase.not_halted
  | fault => rfl
  | count hrun => simp [hhalt] at hrun
  | finish hrun => simp [hhalt] at hrun
  | schedule hrun => simp [hhalt] at hrun

theorem beforeBus_eng (S : State) (e : Bool) : (beforeBus S e).st.eng = (afterEngine S e).st.eng := by
  rw [beforeBus_eq, babystepStart_writes]

theorem beforeBus_depth (S : State) (e : Bool) : (beforeBus S e).st.depth = (afterEngine S e).st.depth := by
  rw [beforeBus_eq, babystepStart_writes]; rfl

theorem beforeBus_halted {S : State} (hhalt : S.eng = .halted) (e : Bool) : (beforeBus S e).st.eng = .halted := by
  rw [beforeBus_eng]; exact (afterEngine_effect S e).of_halted hhalt

/-- The invariants after a change of the memory, the tail, the pending babysteps or the records alone. -/
theorem inv_of_kept {n m : State} (hn : Inv n) (hk : BusKept n m) (hc : ControlKept n m) (hpw : m.cfgPulseWidth = n.cfgPulseWidth)
    (hmr : m.cfgMinRate = n.cfgMinRate) (hwf : m.mem.wf) (hlo : n.depth ≤ m.depth) (hhi : m.depth ≤ m.params.N)
    (hhalt : n.eng = .halted → m.depth = 0) (hblock : n.eng = .run → m.headBlock = n.headBlock) : Inv m where
  mem_wf := hwf
  width_pos := hpw ▸ hn.width_pos
  rate_min_pos := hmr ▸ hn.rate_min_pos
  depth_le := hhi
  running := fun hrun => by
    have hrun' := hc.eng.symm.trans hrun
    have hr := hn.running hrun'
    have hb := hblock hrun'
    refine ⟨Nat.le_trans hr.depth_pos hlo, ?_, ?_, ?_, ?_, ?_, fun a ha => ?_⟩
    · rw [hc.cd]; exact hr.cd_pos
    · rw [hc.phase]; exact hr.phase_some
    · rw [hpw, hk.interval]; exact hr.interval_min
    · rw [hb, hk.params]; exact hr.block_valid
    · rw [hb, hk.params, hk.stepIndex]; exact hr.index_lt
    · rw [hk.params] at ha
      rw [hb, hk.params, hk.errTerm]; exact hr.err_range a ha
  not_running := fun hrun => by rw [hc.cd, hc.phase]; exact hn.not_running (hc.eng ▸ hrun)
  halted_empty := fun hh => hhalt (hc.eng.symm.trans hh)
  stopping_run := fun hs => by rw [hc.eng, hc.phase]; exact hn.stopping_run (hc.stopping.symm.trans hs)
  pulse_mask := fun hp => hk.pmask.trans (hn.pulse_mask (hk.pt.symm.trans hp))
  sequence := fun hb => by rw [hk.bs] at hb ⊢; exact hn.sequence hb
  rem_lt := by rw [hc.rem, hk.params]; exact hn.rem_lt
  one_busy := fun i j _ _ => busySlot_unique m i j

/-- The invariants of a state whose engine has stopped with its registers clear: nothing of R55.2 is left to show. -/
theorem inv_of_idle {n m : State} (hn : Inv n) (hk : BusKept n m) (hwf : m.mem.wf) (hwidth : 1 ≤ m.cfgPulseWidth.toNat)
    (hrate : 1 ≤ m.cfgMinRate.toNat) (hdepth : m.depth ≤ m.params.N) (heng : m.eng ≠ .run) (hhalt : m.eng = .halted → m.depth = 0)
    (hclear : m.cd = 0#32 ∧ m.phase = .none) (hstop : m.stopping = false) (hrem : m.rem.toNat < m.params.fTimer) : Inv m where
  mem_wf := hwf
  width_pos := hwidth
  rate_min_pos := hrate
  depth_le := hdepth
  running := fun hrun => absurd hrun heng
  not_running := fun _ => hclear
  halted_empty := hhalt
  stopping_run := fun hs => absurd hs (by simp [hstop])
  pulse_mask := fun hp => hk.pmask.trans (hn.pulse_mask (hk.pt.symm.trans hp))
  sequence := fun hb => by rw [hk.bs] at hb ⊢; exact hn.sequence hb
  rem_lt := hrem
  one_busy := fun i j _ _ => busySlot_unique m i j

/-- The two WARL bounds hold of every configuration write (R169). -/
theorem storeLocked_bounds (v : Word) (n : State) (r : Reg) (hw : 1 ≤ n.cfgPulseWidth.toNat) (hr : 1 ≤ n.cfgMinRate.toNat) :
    1 ≤ (storeLocked v n r).cfgPulseWidth.toNat ∧ 1 ≤ (storeLocked v n r).cfgMinRate.toNat := by
  have hpos : ∀ {k : Nat} {x : BitVec k}, x ≠ 0#k → 1 ≤ x.toNat := fun hx =>
    Nat.pos_of_ne_zero fun h0 => hx (BitVec.eq_of_toNat_eq (by simpa using h0))
  cases r with
  | cfgPulseWidth =>
    refine ⟨?_, hr⟩
    show 1 ≤ (if v.setWidth 16 = 0#16 then 1#16 else v.setWidth 16).toNat
    split
    · decide
    · exact hpos (by assumption)
  | cfgMinRate =>
    refine ⟨hw, ?_⟩
    show 1 ≤ (if v = 0#32 then 1#32 else v).toNat
    split
    · decide
    · exact hpos (by assumption)
  | _ => exact ⟨hw, hr⟩

theorem not_stopping_of_idle {n : State} (hn : Inv n) (heng : n.eng ≠ .run) : n.stopping = false := by
  by_contra hs
  exact heng (hn.stopping_run (by simpa using hs)).1

/-- Every change an access can make keeps the invariants. -/
theorem BusEffect.inv {S : State} {w w' : Work} (hS : Inv S) (hw : Inv w.st) (hhost : HostSide S w.st) (hdepth : w.st.depth ≤ S.depth)
    (hopen : S.unlocked = true → w.st.eng ≠ .run) (hhalt : S.eng = .halted → w.st.eng = .halted) (h : BusEffect S w w') :
    Inv w'.st := by
  have hk := h.kept
  have hblock : w'.st.head = w.st.head → w.st.eng = .run → w'.st.headBlock = w.st.headBlock := fun hhead hrun =>
    headBlock_congr hk.params hhead (h.next_head_frozen hS hw hhost hdepth hrun)
  have hflushed : ∀ m : State, m.params = w.st.params → m.head = S.tail → m.tail = w.st.tail → m.depth = 0 := by
    intro m hp hh ht
    rw [State.depth, hp, hh, ht, hhost.tail, depth_self]
  cases h with
  | record =>
    exact inv_of_kept hw hk ⟨rfl, rfl, rfl, rfl, rfl, rfl, rfl, rfl⟩ rfl rfl hw.mem_wf (Nat.le_refl _)
      hw.depth_le hw.halted_empty fun _ => rfl
  | stage i v =>
    exact inv_of_kept hw hk ⟨rfl, rfl, rfl, rfl, rfl, rfl, rfl, rfl⟩ rfl rfl (writeWord_wf _ _ hw.mem_wf) (Nat.le_refl _)
      hw.depth_le hw.halted_empty (hblock rfl)
  | locked r v hu =>
    obtain ⟨hc, htail, hmem⟩ := storeLocked_control v w.st r
    obtain ⟨hwidth, hrate⟩ := storeLocked_bounds v w.st r hw.width_pos hw.rate_min_pos
    have hd : (storeLocked v w.st r).depth = w.st.depth := by rw [State.depth, hk.params, hc.head, htail]; rfl
    have hrun := hopen hu
    refine inv_of_idle hw hk (hmem ▸ hw.mem_wf) hwidth hrate ?_ (hc.eng ▸ hrun) (fun hh => ?_) ?_ ?_ ?_
    · rw [hd, hk.params]; exact hw.depth_le
    · rw [hd]; exact hw.halted_empty (hc.eng.symm.trans hh)
    · rw [hc.cd, hc.phase]; exact hw.not_running hrun
    · exact hc.stopping.trans (not_stopping_of_idle hw hrun)
    · rw [hc.rem, hk.params]; exact hw.rem_lt
  | push c hne hstop hfull =>
    have hlt : w.st.depth < w.st.params.N := hhost.params ▸ Nat.lt_of_le_of_lt hdepth (Nat.lt_of_le_of_ne hS.depth_le hfull)
    have hd := depth_nextIndex_tail w.st.params w.st.head w.st.tail (by rw [State.depth] at hlt; omega)
    rw [hhost.tail, hhost.params] at hd
    have hd' : depth w.st.params w.st.head (nextIndex S.params S.tail) = w.st.depth + 1 := by rw [hhost.params, hd, hhost.depth_eq]
    refine inv_of_kept hw hk ⟨rfl, rfl, rfl, rfl, rfl, rfl, rfl, rfl⟩ rfl rfl (writeWords_wf _ _ hw.mem_wf) ?_ ?_
      (fun hh => absurd hh hne) (hblock rfl)
    · show w.st.depth ≤ depth w.st.params w.st.head (nextIndex S.params S.tail); omega
    · show depth w.st.params w.st.head (nextIndex S.params S.tail) ≤ w.st.params.N; omega
  | update =>
    exact inv_of_kept hw hk ⟨rfl, rfl, rfl, rfl, rfl, rfl, rfl, rfl⟩ rfl rfl (updateSlot_wf _ _ hw.mem_wf) (Nat.le_refl _)
      hw.depth_le hw.halted_empty (hblock rfl)
  | flush _ hidle =>
    have hrun : w.st.eng ≠ .run := by simp [hidle]
    have hstop := not_stopping_of_idle hw hrun
    have hd : ({ w.st with head := S.tail } : State).depth = 0 := hflushed _ rfl rfl rfl
    exact inv_of_idle hw hk hw.mem_wf hw.width_pos hw.rate_min_pos (hd.trans_le (Nat.zero_le _)) hrun (fun _ => hd)
      (hw.not_running hrun) hstop hw.rem_lt
  | finish _ _ hrun =>
    have hd : (finishStop S w).st.depth = 0 := hflushed _ rfl rfl rfl
    exact inv_of_idle hw hk hw.mem_wf hw.width_pos hw.rate_min_pos (hd.trans_le (Nat.zero_le _)) nofun (fun _ => hd) ⟨rfl, rfl⟩ rfl
      (timer_pos w.st.params)
  | stop _ _ hrun =>
    have hr := hw.running hrun
    have hrem : (if w.st.phase = .decel then w.st.rem else 0#32).toNat < w.st.params.fTimer := by
      split
      · exact hw.rem_lt
      · exact timer_pos w.st.params
    exact ⟨hw.mem_wf, hw.width_pos, hw.rate_min_pos, hw.depth_le,
      fun _ => ⟨hr.depth_pos, hr.cd_pos, nofun, hr.interval_min, hr.block_valid, hr.index_lt, hr.err_range⟩,
      fun hne => absurd hrun hne, hw.halted_empty, fun _ => ⟨hrun, rfl⟩, hw.pulse_mask, hw.sequence, hrem,
      fun i j _ _ => busySlot_unique _ i j⟩
  | babystep =>
    exact inv_of_kept hw hk ⟨rfl, rfl, rfl, rfl, rfl, rfl, rfl, rfl⟩ rfl rfl hw.mem_wf (Nat.le_refl _)
      hw.depth_le hw.halted_empty fun _ => rfl
  | clearHalt _ _ _ hS' =>
    have hrun : w.st.eng ≠ .run := by simp [hhalt hS']
    have hstop := not_stopping_of_idle hw hrun
    exact inv_of_idle hw hk hw.mem_wf hw.width_pos hw.rate_min_pos hw.depth_le nofun nofun (hw.not_running hrun)
      hstop hw.rem_lt

/-- The interrupt stage and the host program touch no invariant. -/
theorem inv_of_events {n : State} (hn : Inv n) (i : BitVec 5) (l : List HostLine) : Inv { n with irqStatus := i, host := l } :=
  ⟨hn.mem_wf, hn.width_pos, hn.rate_min_pos, hn.depth_le,
    fun hrun => have hr := hn.running hrun
      ⟨hr.depth_pos, hr.cd_pos, hr.phase_some, hr.interval_min, hr.block_valid, hr.index_lt, hr.err_range⟩,
    hn.not_running, hn.halted_empty, hn.stopping_run, hn.pulse_mask, hn.sequence, hn.rem_lt, fun i j _ _ => busySlot_unique _ i j⟩

theorem resetCycle_inv {S : State} (hS : Inv S) : Inv (resetCycle S) where
  mem_wf := clearStage_wf hS.mem_wf
  width_pos := Nat.le_refl 1
  rate_min_pos := Nat.le_refl 1
  depth_le := (depth_self S.params 0#7).trans_le (Nat.zero_le _)
  running := nofun
  not_running := fun _ => ⟨rfl, rfl⟩
  halted_empty := nofun
  stopping_run := nofun
  pulse_mask := fun _ => rfl
  sequence := nofun
  rem_lt := timer_pos S.params
  one_busy := fun i j _ _ => busySlot_unique _ i j

/-- The state of a cycle outside reset after its bus stage. -/
theorem busEffect_inv {S : State} (hS : Inv S) {e : Bool} {w : Work} (h : BusEffect S (beforeBus S e) w) : Inv w.st :=
  h.inv hS (beforeBus_inv hS e) (beforeBus_hostSide S e) (beforeBus_depth S e ▸ ((afterEngine_effect S e).queue hS).1)
    (fun hu => (beforeBus_of_unlocked hu e).1) (fun hhalt => beforeBus_halted hhalt e)

/-- Settles O47: a reset cycle, or the stages before the bus, one effect of the bus and the interrupt stage. -/
theorem stepKeepsInvariants : Obligations.StepKeepsInvariants := by
  intro s t hs hstep
  rcases step_effect hstep with ⟨_, rfl⟩ | ⟨_, e, clear, w, _, _, hbus, rfl⟩
  · exact inv_of_events (resetCycle_inv hs) _ _
  · exact inv_of_events (busEffect_inv hs hbus) _ _

end Sys2Proof.Machine

/-! Proof of O48. A step event cannot meet a running sequence, since the sequence was started to end before it; so the pulse of a step event
and the babystep pulse stay apart, and each counter runs against the countdown it was started under. -/

namespace Sys2Proof.Machine

/-- A sequence that is still running after the counting stage was running before it, one position earlier (R218). -/
theorem counting_running {S : State} (hS : Inv S) (hbusy : (counting S).bs.busy = true) :
    S.bs.busy = true ∧ (counting S).bs = { S.bs with k := S.bs.k + 1#18 } ∧ (counting S).bs.k.toNat = S.bs.k.toNat + 1 := by
  rcases counting_bs_cases S with ⟨hb, e⟩ | ⟨_, _, e⟩ | ⟨hb, hk, e⟩
  · rw [e] at hbusy; exact absurd hbusy (by simp [hb])
  · rw [e] at hbusy; exact absurd hbusy nofun
  · refine ⟨hb, e, ?_⟩
    have hle := (hS.sequence hb).2
    have hne : S.bs.k.toNat ≠ S.bs.len.toNat := fun h => hk (BitVec.eq_of_toNat_eq h)
    have hlt := S.bs.len.isLt
    rw [e]
    simp only [BitVec.toNat_add, BitVec.toNat_ofNat]
    omega

/-- No sequence runs in the cycle of a step event (R220). -/
theorem no_sequence_at_event {S : State} (hS : Inv S) (hP : PulseInv S) (hrun : S.eng = .run) (hcd : S.cd = 1#32) :
    S.bs.busy = false := by
  by_contra hb
  have hb' : S.bs.busy = true := by simpa using hb
  have hfits := hP.fits hb' hrun
  have hlen := (hS.sequence hb').2
  have h1 : S.cd.toNat = 1 := by rw [hcd]; rfl
  omega

/-- A sequence that the engine stage hands on is the counting stage's, and it was running before the cycle. -/
theorem EngineEffect.running_sequence {S : State} {e : Bool} {w : Work} (hS : Inv S) (h : EngineEffect S e w)
    (hbusy : w.st.bs.busy = true) :
    S.bs.busy = true ∧ w.st.bs = { S.bs with k := S.bs.k + 1#18 } ∧ w.st.bs.k.toNat = S.bs.k.toNat + 1
      ∧ (w.st.eng = .halted → S.eng ≠ .halted → S.babystepNotPulsed = false) := by
  rcases h.sequencer with ⟨hbs, habort⟩ | ⟨_, _, hbs⟩
  · rw [hbs] at hbusy ⊢
    obtain ⟨h1, h2, h3⟩ := counting_running hS hbusy
    exact ⟨h1, h2, h3, habort⟩
  · rw [hbs] at hbusy; exact absurd hbusy nofun

theorem babystepLength_congr {n S : State} (hhost : HostSide S n) (flip : Bool) : babystepLength n flip = babystepLength S flip := by
  rw [babystepLength, babystepLength, hhost.cfgDirSetup, hhost.cfgPulseWidth]

/-- While RUN the engine stage leaves a countdown above the pulse counter, and above what is left of a sequence. -/
theorem EngineEffect.countdown {S : State} {e : Bool} {w : Work} (hS : Inv S) (h : EngineEffect S e w) (hrun : w.st.eng = .run) :
    S.cfgPulseWidth.toNat < w.st.cd.toNat
      ∨ (S.eng = .run ∧ w.st.pt = (counting S).pt ∧ w.st.cd.toNat = S.cd.toNat - 1 ∧ 2 ≤ S.cd.toNat) := by
  cases h with
  | estop => exact absurd hrun nofun
  | count hr hcd =>
    have hpos := (hS.running hr).cd_pos
    have hne : S.cd.toNat ≠ 1 := fun h => hcd (BitVec.eq_of_toNat_eq h)
    have hlt := S.cd.isLt
    refine .inr ⟨hr, rfl, ?_, by omega⟩
    show (S.cd - 1#32).toNat = _
    rw [BitVec.toNat_sub, BitVec.toNat_ofNat]; omega
  | rest hhalt => exact absurd ((counting_engineSide S).eng.symm.trans hrun) (by simp [hhalt])
  | wait hbase => exact absurd (hbase.head.2.symm.trans hrun) (by decide)
  | bad => exact absurd hrun nofun
  | @claim h =>
    left
    have hfirst := ivl_ge S (S.blockAt h).initial
    have hfirst' := ivl_le S (S.blockAt h).initial
    have hsetup := S.cfgDirSetup.isLt
    rw [claim_cd, BitVec.toNat_ofNat]
    split <;> omega
  | fault => exact absurd hrun nofun
  | finish => exact absurd hrun nofun
  | schedule =>
    left
    show _ < (BitVec.ofNat 32 (ivl S _)).toNat
    rw [ivl_toNat]; exact ivl_ge S _

theorem EngineEffect.pulse_le {S : State} {e : Bool} {w : Work} (hP : PulseInv S) (h : EngineEffect S e w) :
    w.st.pt.toNat ≤ S.cfgPulseWidth.toNat := by
  rcases h.pulse with ⟨hpt, _⟩ | ⟨_, _, _, hpt, _⟩ <;> rw [hpt]
  rw [counting_pt_toNat]
  exact Nat.le_trans (Nat.sub_le _ _) hP.width_le

theorem EngineEffect.pulseInv {S : State} {e : Bool} {w : Work} (hS : Inv S) (hP : PulseInv S) (h : EngineEffect S e w) :
    PulseInv w.st := by
  have hhost := h.hostSide
  have hle := h.pulse_le hP
  refine ⟨hhost.cfgPulseWidth ▸ hle, fun hrun => ?ends, fun hbusy => ?apart, fun hbusy => ?length, fun hbusy hrun => ?fits,
    fun hhalt hbusy hflip => ?begun⟩
  case ends =>
    rcases h.countdown hS hrun with hcd | ⟨hr, hpt, hcd, h2⟩
    · exact Nat.lt_of_le_of_lt hle hcd
    · have hends := hP.ends_first hr
      rw [hpt, counting_pt_toNat, hcd]; omega
  case apart =>
    obtain ⟨hb, _⟩ := h.running_sequence hS hbusy
    rcases h.pulse with ⟨hpt, _⟩ | ⟨hr, hcd, _⟩
    · rw [hpt, (counting_pulse S).1, hP.apart hb]; rfl
    · exact absurd hb (by simp [no_sequence_at_event hS hP hr hcd])
  case length =>
    obtain ⟨hb, hbs, _⟩ := h.running_sequence hS hbusy
    rw [babystepLength_congr hhost, hbs]
    exact hP.length hb
  case fits =>
    obtain ⟨hb, hbs, hk, _⟩ := h.running_sequence hS hbusy
    have hlen : w.st.bs.len = S.bs.len := by rw [hbs]
    cases h with
    | estop => exact absurd hrun nofun
    | count hr hcd =>
      have hfits := hP.fits hb hr
      have hpos := (hS.running hr).cd_pos
      have hlt := S.cd.isLt
      have hcd' : (S.cd - 1#32).toNat = S.cd.toNat - 1 := by rw [BitVec.toNat_sub, BitVec.toNat_ofNat]; omega
      rw [hlen, hk]
      show _ ≤ (S.cd - 1#32).toNat + _
      omega
    | rest hhalt => exact absurd ((counting_engineSide S).eng.symm.trans hrun) (by simp [hhalt])
    | wait hbase => exact absurd (hbase.head.2.symm.trans hrun) (by decide)
    | bad => exact absurd hrun nofun
    | claim _ hfree => exact absurd hb (by simp [hfree])
    | fault => exact absurd hrun nofun
    | finish => exact absurd hrun nofun
    | schedule hr hcd => exact absurd hb (by simp [no_sequence_at_event hS hP hr hcd])
  case begun =>
    obtain ⟨hb, hbs, hk, habort⟩ := h.running_sequence hS hbusy
    have hflip' : S.bs.flip = true := by rw [hbs] at hflip; exact hflip
    rw [hhost.cfgDirSetup, hk]
    by_cases hS' : S.eng = .halted
    · exact Nat.lt_succ_of_lt (hP.begun hS' hb hflip')
    · have hnot := habort hhalt hS'
      simp only [State.babystepNotPulsed, hb, hflip', Bool.true_and, decide_eq_false_iff_not] at hnot
      omega

/-- The sequencer's start keeps the pulses apart: it waits for the pulse and leaves room before the next step event (R216). -/
theorem babystepStart_pulseInv {S n : State} {e : Bool} (hhost : HostSide S n) (hn : PulseInv n) : PulseInv (babystepStart S e n) := by
  rcases babystepStart_cases S e n with h | ⟨a, _, hne, _, _, _, hpt, _, hfits, h⟩ <;> rw [h]
  · exact hn
  · refine ⟨hn.width_le, hn.ends_first, fun _ => hpt, fun _ => ?_, fun _ hrun => ?_, fun hhalt => absurd hhalt hne⟩
    · exact (babystepLength_toNat S _).trans (babystepLength_congr hhost _).symm
    · have hrun' : n.eng = .run := hrun
      simp only [babystepFits, hrun', if_true, decide_eq_true_eq] at hfits
      show (BitVec.ofNat 18 (babystepLength S _)).toNat + 2 ≤ n.cd.toNat + 1
      rw [babystepLength_toNat]
      omega

theorem beforeBus_pulseInv {S : State} (hS : Inv S) (hP : PulseInv S) (e : Bool) : PulseInv (beforeBus S e).st := by
  have h := afterEngine_effect S e
  exact babystepStart_pulseInv h.hostSide (h.pulseInv hS hP)

/-- An access HALTS nothing. -/
theorem BusEffect.of_halted {S : State} {w w' : Work} (h : BusEffect S w w') (hhalt : w'.st.eng = .halted) : w.st.eng = .halted := by
  rcases h.control with hk | ⟨_, hi, _⟩ | ⟨_, hi, _⟩ | ⟨_, hi, _⟩ | ⟨_, _, hi, _⟩
  · exact hk.eng.symm.trans hhalt
  all_goals exact absurd (hi.symm.trans hhalt) (by decide)

/-- An access keeps the pulses apart. It can change CFG_PULSE_WIDTH and CFG_DIR_SETUP only where there is no pulse and no sequence. -/
theorem BusEffect.pulseInv {S : State} {w w' : Work} (hw : PulseInv w.st)
    (hopen : S.unlocked = true → w.st.eng ≠ .run ∧ w.st.pt = 0#16 ∧ w.st.bs.busy = false) (h : BusEffect S w w') : PulseInv w'.st := by
  have hk := h.kept
  cases hu : S.unlocked with
  | true =>
    obtain ⟨hrun, hpt, hbusy⟩ := hopen hu
    rw [← hk.pt] at hpt
    rw [← hk.bs] at hbusy
    have hidle : ∀ {p : Prop}, w'.st.bs.busy = true → p := fun hb => absurd hb (by simp [hbusy])
    exact ⟨by rw [hpt]; exact Nat.zero_le _, fun hr => absurd (h.of_run hr).1 hrun, fun _ => hpt, hidle, hidle, fun _ => hidle⟩
  | false =>
    have hc := h.lockedKept hu
    have hlen : ∀ flip, babystepLength w'.st flip = babystepLength w.st flip := fun flip => by
      rw [babystepLength, babystepLength, hc.cfgDirSetup, hc.cfgPulseWidth]
    refine ⟨?_, fun hr => ?_, ?_, ?_, fun hb hr => ?_, fun hh => ?_⟩
    · rw [hk.pt, hc.cfgPulseWidth]; exact hw.width_le
    · obtain ⟨hr', _, hcd⟩ := h.of_run hr
      rw [hk.pt, hcd]; exact hw.ends_first hr'
    · rw [hk.bs, hk.pt]; exact hw.apart
    · rw [hk.bs, hlen]; exact hw.length
    · obtain ⟨hr', _, hcd⟩ := h.of_run hr
      rw [hk.bs] at hb ⊢
      rw [hcd]; exact hw.fits hb hr'
    · rw [hk.bs, hc.cfgDirSetup]; exact hw.begun (h.of_halted hh)

theorem busEffect_pulseInv {S : State} (hS : Inv S) (hP : PulseInv S) {e : Bool} {w : Work} (h : BusEffect S (beforeBus S e) w) :
    PulseInv w.st :=
  h.pulseInv (beforeBus_pulseInv hS hP e) fun hu => beforeBus_of_unlocked hu e

/-- Settles O48: a reset cycle has no pulse and no sequence; the rest is the stages before the bus and one effect of the bus. -/
theorem stepKeepsPulsesApart : Obligations.StepKeepsPulsesApart := by
  intro s t hs hp hstep
  rcases step_effect hstep with ⟨_, rfl⟩ | ⟨_, e, clear, w, _, _, hbus, rfl⟩
  · exact ⟨Nat.zero_le _, nofun, nofun, nofun, nofun, nofun⟩
  · have hw := busEffect_pulseInv hs hp hbus
    exact ⟨hw.width_le, hw.ends_first, hw.apart, hw.length, hw.fits, hw.begun⟩

end Sys2Proof.Machine

/-! Proof of O49. The masks the engine writes are built over the axes and channels of the part, under a block whose extruder passed
validation; the masks the host writes are cut to them. -/

namespace Sys2Proof.Machine

/-! ### Masks within the part -/

theorem within_or {n : Nat} {x y m : BitVec n} (hx : x &&& m = x) (hy : y &&& m = y) : (x ||| y) &&& m = x ||| y := by
  rw [and_eq_self_iff] at *
  intro i hi
  simp only [BitVec.getLsbD_or, Bool.or_eq_true] at hi
  exact hi.elim (hx i) (hy i)

theorem within_and {n : Nat} {x m : BitVec n} (hx : x &&& m = x) (y : BitVec n) : (x &&& y) &&& m = x &&& y := by
  rw [and_eq_self_iff] at *
  intro i hi
  simp only [BitVec.getLsbD_and, Bool.and_eq_true] at hi
  exact hx i hi.1

theorem cut_within {n : Nat} (x m : BitVec n) : (x &&& m) &&& m = x &&& m := by rw [BitVec.and_assoc, BitVec.and_self]

theorem latchDirections_within {p : Params} {b : Block} {d : ChannelMask} (he : 1 ≤ p.NE → b.ext < p.NE)
    (hd : d &&& channelBits p = d) : latchDirections p b d &&& channelBits p = latchDirections p b d :=
  within_or (within_and hd _) (channelMask_within p b.ext _ he)

/-! ### What the engine stage writes -/

/-- The direction latches and the extruder selector change at a claim of a valid block alone (R120, R121). -/
theorem EngineEffect.latches {S : State} {e : Bool} {w : Work} (h : EngineEffect S e w) :
    (w.st.dirLat = S.dirLat ∧ w.st.extSel = S.extSel)
    ∨ ∃ i w₀, LoadBase S i w₀ ∧ e = false ∧ S.bs.busy = false ∧ depth S.params i S.tail ≠ 0 ∧ validate S.params (S.blockAt i) = 0
        ∧ (changesDirection S.params (S.blockAt i) S.dirLat = true → S.pt = 0#16 ∧ w₀.st.pt = 0#16)
        ∧ w = Machine.claim S (S.blockAt i) (changesDirection S.params (S.blockAt i) S.dirLat) w₀ := by
  have hkeep := counting_engineSide S
  cases h with
  | estop => exact .inl ⟨hkeep.dirLat, hkeep.extSel⟩
  | count => exact .inl ⟨hkeep.dirLat, hkeep.extSel⟩
  | rest => exact .inl ⟨hkeep.dirLat, hkeep.extSel⟩
  | wait hbase => exact .inl ⟨hbase.engineSide.dirLat, hbase.engineSide.extSel⟩
  | bad hbase => exact .inl ⟨hbase.engineSide.dirLat, hbase.engineSide.extSel⟩
  | claim hbase hbusy hdepth hvalid hpulse => exact .inr ⟨_, _, hbase, rfl, hbusy, hdepth, hvalid, hpulse, rfl⟩
  | fault => exact .inl ⟨hkeep.dirLat, hkeep.extSel⟩
  | finish _ _ _ hbase => cases hbase <;> exact .inl ⟨hkeep.dirLat, hkeep.extSel⟩
  | schedule => exact .inl ⟨hkeep.dirLat, hkeep.extSel⟩

/-- The queue head stays, is advanced past a retired block, or is flushed to the tail (R25, R26). -/
theorem EngineEffect.head_moves {S : State} {e : Bool} {w : Work} (h : EngineEffect S e w) :
    w.st.head = S.head ∨ (w.st.head = nextIndex S.params S.head ∧ S.eng = .run) ∨ w.st.head = S.tail := by
  have hkeep := counting_engineSide S
  have hload : ∀ {i : QueueIndex} {w₀ : Work}, LoadBase S i w₀ → i = S.head ∨ (i = nextIndex S.params S.head ∧ S.eng = .run) := by
    intro i w₀ hbase
    cases hbase with
    | idle => exact .inl rfl
    | homing hrun => exact .inr ⟨rfl, hrun⟩
    | complete hrun => exact .inr ⟨rfl, hrun⟩
  cases h with
  | estop => exact .inr (.inr rfl)
  | count => exact .inl hkeep.head
  | rest => exact .inl hkeep.head
  | wait hbase => rw [hbase.head.1]; exact (hload hbase).imp_right .inl
  | bad => exact .inr (.inr rfl)
  | claim hbase => rw [claim_head, hbase.head.1]; exact (hload hbase).imp_right .inl
  | fault => exact .inr (.inr rfl)
  | finish => exact .inr (.inr rfl)
  | schedule => exact .inl hkeep.head

/-- HOMED is kept, cleared by a halt, or joined with the triggered axes. -/
theorem EngineEffect.homed_cases {S : State} {e : Bool} {w : Work} (h : EngineEffect S e w) :
    w.st.homed = S.homed ∨ w.st.homed = 0#16 ∨ w.st.homed = S.homed ||| S.triggered := by
  have hkeep := counting_engineSide S
  have hload : ∀ {i : QueueIndex} {w₀ : Work}, LoadBase S i w₀ → w₀.st.homed = S.homed ∨ w₀.st.homed = S.homed ||| S.triggered := by
    intro i w₀ hbase
    cases hbase with
    | idle => exact .inl hkeep.homed
    | homing => exact .inr rfl
    | complete => exact .inl hkeep.homed
  cases h with
  | estop => exact .inr (.inl rfl)
  | count => exact .inl hkeep.homed
  | rest => exact .inl hkeep.homed
  | wait hbase => exact (hload hbase).imp_right .inr
  | bad => exact .inr (.inl rfl)
  | claim hbase => exact (hload hbase).imp_right .inr
  | fault => exact .inr (.inl rfl)
  | finish _ _ _ hbase =>
    cases hbase with
    | homing => exact .inr (.inr rfl)
    | complete => exact .inl hkeep.homed
    | slow => exact .inl hkeep.homed
  | schedule => exact .inl hkeep.homed

/-! ### The fields before the bus -/

/-- The engine stage keeps every field within its width and range. -/
theorem EngineEffect.fieldInv {S : State} {e : Bool} {w : Work} (hS : Inv S) (hF : FieldInv S) (h : EngineEffect S e w) :
    FieldInv w.st := by
  have hhost := h.hostSide
  have hseq : w.st.bs.busy = true → S.bs.busy = true ∧ w.st.bs.axis = S.bs.axis ∧ w.st.bs.ch = S.bs.ch := fun hb => by
    obtain ⟨h1, h2, _⟩ := h.running_sequence hS hb
    exact ⟨h1, by rw [h2], by rw [h2]⟩
  refine ⟨?head, ?tail, ?pulse, ?dir, ?stepInv, ?dirInv, ?esEn, ?esDir, ?esInv, ?homed, fun hne => ?ext, fun hne => ?extZero,
    fun hb => ?axis, fun hb => ?ch⟩
  all_goals try rw [hhost.params]
  case head =>
    rcases h.head_moves with hh | ⟨hh, _⟩ | hh <;> rw [hh]
    · exact hF.head_lt
    · exact nextIndex_lt _ _
    · exact hF.tail_lt
  case tail => rw [hhost.tail]; exact hF.tail_lt
  case pulse =>
    rcases h.pulse with ⟨_, hm⟩ | ⟨hrun, _, _, _, hm⟩ <;> rw [hm]
    · rw [(counting_pulse S).2.1]
      split
      · exact BitVec.zero_and
      · exact hF.pulse_bits
    · exact channelMask_within _ _ _ ((validate_eq_zero _ _).1 (hS.running hrun).block_valid).ext_lt
  case dir =>
    rcases h.latches with ⟨hd, _⟩ | ⟨i, w₀, hbase, _, _, _, hvalid, _, rfl⟩
    · rw [hd]; exact hF.dir_bits
    · rw [claim_dirLat, hbase.engineSide.dirLat]
      exact latchDirections_within ((validate_eq_zero _ _).1 hvalid).ext_lt hF.dir_bits
  case stepInv => rw [hhost.cfgStepInv]; exact hF.step_inv
  case dirInv => rw [hhost.cfgDirInv]; exact hF.dir_inv
  case esEn => rw [hhost.cfgEsEn]; exact hF.es_en
  case esDir => rw [hhost.cfgEsDir]; exact hF.es_dir
  case esInv => rw [hhost.cfgEsInv]; exact hF.es_inv
  case homed =>
    rcases h.homed_cases with hh | hh | hh <;> rw [hh]
    · exact hF.homed_bits
    · exact BitVec.zero_and
    · exact within_or hF.homed_bits (axisMask_within _ _)
  case ext =>
    rw [hhost.params] at hne
    rcases h.latches with ⟨_, he⟩ | ⟨i, w₀, hbase, _, _, _, hvalid, _, rfl⟩
    · rw [he]; exact hF.ext_lt hne
    · have hlt := ((validate_eq_zero _ _).1 hvalid).ext_lt hne
      rw [claim_extSel, if_pos hne, BitVec.toNat_ofNat]
      exact Nat.lt_of_le_of_lt (Nat.mod_le _ _) hlt
  case extZero =>
    rw [hhost.params] at hne
    rcases h.latches with ⟨_, he⟩ | ⟨i, w₀, hbase, _, _, _, _, _, rfl⟩
    · rw [he]; exact hF.ext_zero hne
    · rw [claim_extSel, if_neg (by omega), hbase.engineSide.extSel]; exact hF.ext_zero hne
  case axis =>
    obtain ⟨h1, h2, _⟩ := hseq hb
    rw [h2]; exact hF.bs_axis_lt h1
  case ch =>
    obtain ⟨h1, _, h2⟩ := hseq hb
    rw [h2]; exact hF.bs_ch_lt h1

/-- The axis the sequencer takes is one of the part. -/
theorem pendingAxis_lt {S : State} {a : Axis} (h : pendingAxis S = some a) : a.val < S.params.A :=
  (mem_axes _ _).1 (List.mem_of_find?_eq_some h)

/-- A started sequence records an axis and a channel of the part. -/
theorem babystepStart_fieldInv {S n : State} {e : Bool} (hhost : HostSide S n) (hn : FieldInv n) : FieldInv (babystepStart S e n) := by
  rcases babystepStart_cases S e n with h | ⟨a, ha, _, _, _, _, _, _, _, h⟩ <;> rw [h]
  · exact hn
  · have hlt : a.val < n.params.A := hhost.params ▸ pendingAxis_lt ha
    have hch := channelOf_lt n.params a.val n.extSel.toNat hlt hn.ext_lt
    have hle := channels_le n.params
    refine ⟨hn.head_lt, hn.tail_lt, hn.pulse_bits, hn.dir_bits, hn.step_inv, hn.dir_inv, hn.es_en, hn.es_dir, hn.es_inv, hn.homed_bits,
      hn.ext_lt, hn.ext_zero, fun _ => ?_, fun _ => ?_⟩
    · show (BitVec.ofNat 4 a.val).toNat < n.params.A
      rw [BitVec.toNat_ofNat]; exact Nat.lt_of_le_of_lt (Nat.mod_le _ _) hlt
    · show (BitVec.ofNat 5 (channelOf S.params a.val n.extSel.toNat)).toNat < channels n.params
      rw [← hhost.params, BitVec.toNat_ofNat]; exact Nat.lt_of_le_of_lt (Nat.mod_le _ _) hch

/-! ### The bus stage -/

/-- The configuration masks a store leaves are within the part (R169). -/
theorem storeLocked_fieldInv {n : State} (hn : FieldInv n) (v : Word) (r : Reg) : FieldInv (storeLocked v n r) := by
  obtain ⟨h1, h2, h3, h4, h5, h6, h7, h8, h9, h10, h11, h12, h13, h14⟩ := hn
  cases r with
  | cfgStepInv => exact ⟨h1, h2, h3, h4, cut_within _ _, h6, h7, h8, h9, h10, h11, h12, h13, h14⟩
  | cfgDirInv => exact ⟨h1, h2, h3, h4, h5, cut_within _ _, h7, h8, h9, h10, h11, h12, h13, h14⟩
  | cfgEsEn => exact ⟨h1, h2, h3, h4, h5, h6, cut_within _ _, h8, h9, h10, h11, h12, h13, h14⟩
  | cfgEsDir => exact ⟨h1, h2, h3, h4, h5, h6, h7, cut_within _ _, h9, h10, h11, h12, h13, h14⟩
  | cfgEsInv => exact ⟨h1, h2, h3, h4, h5, h6, h7, h8, cut_within _ _, h10, h11, h12, h13, h14⟩
  | _ => exact ⟨h1, h2, h3, h4, h5, h6, h7, h8, h9, h10, h11, h12, h13, h14⟩

theorem BusEffect.fieldInv {S : State} {w w' : Work} (hF : FieldInv S) (hhost : HostSide S w.st) (hw : FieldInv w.st)
    (h : BusEffect S w w') : FieldInv w'.st := by
  have htail : S.tail.toNat < 2 * w.st.params.N := hhost.params ▸ hF.tail_lt
  cases h with
  | locked r v => exact storeLocked_fieldInv hw v r
  | push =>
    exact ⟨hw.1, hhost.params ▸ nextIndex_lt S.params S.tail, hw.3, hw.4, hw.5, hw.6, hw.7, hw.8, hw.9, hw.10, hw.11, hw.12, hw.13, hw.14⟩
  | flush => exact ⟨htail, hw.2, hw.3, hw.4, hw.5, hw.6, hw.7, hw.8, hw.9, hw.10, hw.11, hw.12, hw.13, hw.14⟩
  | finish => exact ⟨htail, hw.2, hw.3, hw.4, hw.5, hw.6, hw.7, hw.8, hw.9, hw.10, hw.11, hw.12, hw.13, hw.14⟩
  | _ => exact ⟨hw.1, hw.2, hw.3, hw.4, hw.5, hw.6, hw.7, hw.8, hw.9, hw.10, hw.11, hw.12, hw.13, hw.14⟩

theorem resetCycle_fieldInv (S : State) : FieldInv (resetCycle S) := by
  have hpos : (0#7 : QueueIndex).toNat < 2 * S.params.N := Nat.mul_pos (by decide) (capacity_pos S.params)
  exact ⟨hpos, hpos, BitVec.zero_and, BitVec.zero_and, BitVec.zero_and, BitVec.zero_and, BitVec.zero_and, BitVec.zero_and, BitVec.zero_and,
    BitVec.zero_and, fun h => h, fun _ => rfl, nofun, nofun⟩

/-- Settles O49: the stages before the bus, the effects of the bus and the reset values. -/
theorem stepKeepsFieldsLegal : Obligations.StepKeepsFieldsLegal := by
  intro s t hs hf hstep
  rcases step_effect hstep with ⟨_, rfl⟩ | ⟨_, e, clear, w, _, _, hbus, rfl⟩
  · have hw := resetCycle_fieldInv s
    exact ⟨hw.1, hw.2, hw.3, hw.4, hw.5, hw.6, hw.7, hw.8, hw.9, hw.10, hw.11, hw.12, hw.13, hw.14⟩
  · have heng := afterEngine_effect s e
    have hbefore : FieldInv (beforeBus s e).st := babystepStart_fieldInv heng.hostSide (heng.fieldInv hs hf)
    have hw := hbus.fieldInv hf (beforeBus_hostSide s e) hbefore
    exact ⟨hw.1, hw.2, hw.3, hw.4, hw.5, hw.6, hw.7, hw.8, hw.9, hw.10, hw.11, hw.12, hw.13, hw.14⟩

end Sys2Proof.Machine

/-! Proof of O50, O51 and O57. The closed form of the error term advances with each step event as the Bresenham sum does, and so does the
closed form of the pulse count; between them no step changes the block, the counts or the positions of a busy block. -/

namespace Sys2Proof.Machine

/-! ### The closed forms (R143) -/

theorem errorAt_zero {d : Nat} (hd : 1 ≤ d) (c : Nat) : errorAt d c 0 = d - d / 2 := by
  have hlt : d - d / 2 + 0 * c - 1 < d := by omega
  rw [errorAt, Nat.mod_eq_of_lt hlt]; omega

theorem errorAt_succ {d c : Nat} (hd : 1 ≤ d) (hc : c ≤ d) (k : Nat) :
    errorAt d c (k + 1) = if d < errorAt d c k + c then errorAt d c k + c - d else errorAt d c k + c := by
  have h := (bresenham_step d (d - d / 2 + k * c) c hd hc (by omega)).1
  rwa [show d - d / 2 + k * c + c = d - d / 2 + (k + 1) * c by rw [Nat.succ_mul]; omega] at h

theorem pulsesAfter_zero {d : Nat} (hd : 1 ≤ d) (c : Nat) : pulsesAfter d c 0 = 0 := by
  rw [pulsesAfter]; exact Nat.div_eq_of_lt (by omega)

theorem pulsesAfter_succ {d c : Nat} (hd : 1 ≤ d) (hc : c ≤ d) (k : Nat) :
    pulsesAfter d c (k + 1) = pulsesAfter d c k + if d < errorAt d c k + c then 1 else 0 := by
  have h := (bresenham_step d (d - d / 2 + k * c) c hd hc (by omega)).2
  rwa [show d - d / 2 + k * c + c = d - d / 2 + (k + 1) * c by rw [Nat.succ_mul]; omega] at h

/-- After all `d` events of a block an axis has had exactly its own steps. -/
theorem pulsesAfter_last {d : Nat} (hd : 1 ≤ d) (c : Nat) : pulsesAfter d c d = c := by
  rw [pulsesAfter, show d - d / 2 + d * c - 1 = (d - d / 2 - 1) + d * c by omega, Nat.add_mul_div_left _ _ hd,
    Nat.div_eq_of_lt (by omega), Nat.zero_add]

theorem moved_succ (p : Word) (f : Bool) (k : Nat) : moved p f (k + 1) = moved p f k + (if f then 1#32 else -1#32) := by
  have hk : BitVec.ofNat 32 (k + 1) = BitVec.ofNat 32 k + 1#32 := BitVec.ofNat_add k 1
  cases f
  · simp only [moved, hk, Bool.false_eq_true, if_false, BitVec.sub_eq_add_neg, BitVec.neg_add, BitVec.add_assoc]
  · simp only [moved, hk, if_true, BitVec.add_assoc]

/-! ### The error terms of a busy block -/

theorem beforeBus_st (S : State) (e : Bool) :
    (beforeBus S e).st = { (afterEngine S e).st with bs := (beforeBus S e).st.bs, bsPending := (beforeBus S e).st.bsPending } :=
  babystepStart_writes S _ _

theorem scheduled_keeps (S : State) (b : Block) (i : Nat) (w : Work) :
    (scheduled S b i w).st.eng = w.st.eng ∧ (scheduled S b i w).st.head = w.st.head ∧ (scheduled S b i w).st.pos = w.st.pos
      ∧ (scheduled S b i w).st.errTerm = w.st.errTerm ∧ (scheduled S b i w).st.stepIndex = w.st.stepIndex := ⟨rfl, rfl, rfl, rfl, rfl⟩

theorem EngineEffect.bresenhamInv {S : State} {e : Bool} {w : Work} (hS : Inv S) (hB : BresenhamInv S) (h : EngineEffect S e w) :
    BresenhamInv w.st := by
  intro hrun a ha
  have hkeep := counting_engineSide S
  have hhost := h.hostSide
  rw [hhost.params] at ha
  rw [hhost.headBlock_eq, hhost.params]
  cases h with
  | estop => exact absurd hrun nofun
  | count hr =>
    show (counting S).errTerm[a].toNat = errorAt ((S.blockAt (counting S).head).dominant S.params) _ (counting S).stepIndex.toNat
    rw [hkeep.errTerm, hkeep.stepIndex, hkeep.head]
    exact hB hr a ha
  | rest hhalt => exact absurd (hkeep.eng.symm.trans hrun) (by simp [hhalt])
  | wait hbase => exact absurd (hbase.head.2.symm.trans hrun) (by decide)
  | bad => exact absurd hrun nofun
  | @claim i _ hbase _ _ hvalid =>
    have hpos := ((validate_eq_zero _ _).1 hvalid).dominant_pos
    have hD : (S.blockAt i).dominant S.params < 2 ^ 31 := decodeBlock_dominant_lt _ _ _
    rw [claim_head, hbase.head.1, claim_errTerm, update_get, if_pos ha, claim_stepIndex, BitVec.toNat_ofNat]
    exact (Nat.mod_eq_of_lt (by omega)).trans (errorAt_zero hpos _).symm
  | fault => exact absurd hrun nofun
  | finish => exact absurd hrun nofun
  | schedule hr =>
    have hinv := hS.running hr
    have hvalid := (validate_eq_zero _ _).1 hinv.block_valid
    have hD : S.headBlock.dominant S.params < 2 ^ 31 := decodeBlock_dominant_lt _ _ _
    have hindex := hinv.index_lt
    obtain ⟨_, hhead, _, herr, hstep⟩ := scheduled_keeps S S.headBlock (S.stepIndex.toNat + 1) S.emitted
    have hnext : S.emitted.st.stepIndex.toNat = S.stepIndex.toNat + 1 := by
      rw [emitStep_stepIndex, BitVec.toNat_add, BitVec.toNat_ofNat]; omega
    rw [hhead, herr, hstep, emitStep_errTerm_toNat S S.headBlock _ a ha (hvalid.steps_le a ha) hD (hinv.err_range a ha).2, hnext]
    have hhead' : S.emitted.st.head = S.head := hkeep.head
    have hblock : S.blockAt S.head = S.headBlock := rfl
    rw [hhead', hblock, errorAt_succ hvalid.dominant_pos (hvalid.steps_le a ha), ← hB hr a ha]

/-- While RUN the block at the head is the same before and after an access. -/
theorem busEffect_headBlock {S : State} (hS : Inv S) {e : Bool} {w : Work} (h : BusEffect S (beforeBus S e) w) (hrun : w.st.eng = .run) :
    w.st.headBlock = (beforeBus S e).st.headBlock :=
  headBlock_congr h.kept.params (h.of_run hrun).2.1 (h.next_head_frozen hS (beforeBus_inv hS e) (beforeBus_hostSide S e)
    (beforeBus_depth S e ▸ ((afterEngine_effect S e).queue hS).1) (h.of_run hrun).1)

/-- Settles O50: the stages before the bus, and the bus, which keeps the block, the step index and the error terms. -/
theorem stepKeepsErrorTerms : Obligations.StepKeepsErrorTerms := by
  intro s t hs hb hstep
  rcases step_effect hstep with ⟨_, rfl⟩ | ⟨_, e, clear, w, _, _, hbus, rfl⟩
  · exact nofun
  · have hengine : BresenhamInv (afterEngine s e).st := (afterEngine_effect s e).bresenhamInv hs hb
    have hbefore : BresenhamInv (beforeBus s e).st := by rw [beforeBus_st]; exact hengine
    intro hrun a ha
    have hk := hbus.kept
    have ha' : a.val < (beforeBus s e).st.params.A := hk.params ▸ ha
    show w.st.errTerm[a].toNat = errorAt (w.st.headBlock.dominant w.st.params) w.st.headBlock.steps[a] w.st.stepIndex.toNat
    rw [busEffect_headBlock hs hbus hrun, hk.params, hk.errTerm, hk.stepIndex]
    exact hbefore (hbus.of_run hrun).1 a ha'

/-- Settles O57: a reset cycle clears STAGE alone, and no access writes the head slot while RUN. -/
theorem busyBlockIsFrozen : Obligations.BusyBlockIsFrozen := by
  intro s t hs hrun hstep x hlo hhi
  rcases step_effect hstep with ⟨_, rfl⟩ | ⟨_, e, clear, w, _, _, hbus, rfl⟩
  · show Memory.byteAt (Memory.clearStage s.mem) x = _
    rw [byteAt_clearStage, if_neg (by omega)]
  · have hfrozen := hbus.head_frozen hs hrun x (by unfold slotAddr State.headSlot; omega) (by unfold slotAddr State.headSlot; omega)
    exact hfrozen.trans (by rw [(beforeBus_hostSide s e).mem])

/-! ### The positions along a block -/

theorem nextIndex_ne (p : Params) (h : QueueIndex) : nextIndex p h ≠ h := by
  intro heq
  have hnat := congrArg BitVec.toNat heq
  simp only [nextIndex, BitVec.toNat_ofNat] at hnat
  have hlt := h.isLt
  rcases capacity_cases p with e | e | e | e | e | e <;> simp only [e] at hnat <;> omega

/-- A step event in which no endstop triggers leaves the positions of its Bresenham step, whatever follows in its cycle. -/
theorem EngineEffect.event_pos {S : State} {w : Work} (h : EngineEffect S false w) (hrun : S.eng = .run) (hcd : S.cd = 1#32)
    (htrig : S.triggered = 0#16) : w.st.pos = S.emitted.st.pos := by
  have hload : ∀ {i : QueueIndex} {w₀ : Work}, LoadBase S i w₀ → w₀.st.pos = S.emitted.st.pos := by
    intro i w₀ hbase
    cases hbase with
    | idle hidle => exact absurd hrun (by simp [hidle])
    | homing _ _ _ hne => exact absurd htrig hne
    | complete => exact retire_pos _ _
  cases h with
  | count _ hne => exact absurd hcd hne
  | rest hhalt => exact absurd hrun (by simp [hhalt])
  | wait hbase => exact hload hbase
  | bad hbase => rw [halt_pos]; exact hload hbase
  | claim hbase => rw [claim_pos]; exact hload hbase
  | fault _ _ hne => exact absurd htrig hne
  | finish _ _ _ hbase =>
    rw [finishStop_pos]
    cases hbase with
    | homing hne => exact absurd htrig hne
    | complete => exact retire_pos _ _
    | slow => exact (scheduled_keeps _ _ _ _).2.2.1
  | schedule => exact (scheduled_keeps _ _ _ _).2.2.1

/-- The position of an axis after one more step event. -/
theorem emitted_pos_get (S : State) (a : Axis) (ha : a.val < S.params.A) :
    S.emitted.st.pos[a] = if S.headBlock.dominant S.params < S.errTerm[a].toNat + S.headBlock.steps[a]
      then S.pos[a] + (if S.headBlock.forward a then 1#32 else -1#32) else S.pos[a] := by
  have hpos : (counted S).st.pos = S.pos := (counting_engineSide S).pos
  rw [emitStep_pos_get S S.headBlock (counted S) a ha, hpos]

/-- What the engine stage does to a block that stays busy: it counts, or it emits a step. -/
theorem EngineEffect.same_block {S : State} {e : Bool} {w : Work} (h : EngineEffect S e w) (hrun : S.eng = .run) (hw : w.st.eng = .run)
    (hhead : w.st.head = S.head) :
    (w.st.stepIndex = S.stepIndex ∧ w.st.pos = S.pos) ∨ (w.st.stepIndex = S.stepIndex + 1#32 ∧ w.st.pos = S.emitted.st.pos) := by
  have hkeep := counting_engineSide S
  cases h with
  | estop => exact absurd hw nofun
  | count => exact .inl ⟨hkeep.stepIndex, hkeep.pos⟩
  | rest hhalt => exact absurd hrun (by simp [hhalt])
  | wait hbase => exact absurd (hbase.head.2.symm.trans hw) (by decide)
  | bad => exact absurd hw nofun
  | claim hbase =>
    rw [claim_head, hbase.head.1] at hhead
    cases hbase with
    | idle hidle => exact absurd hrun (by simp [hidle])
    | homing => exact absurd hhead (nextIndex_ne _ _)
    | complete => exact absurd hhead (nextIndex_ne _ _)
  | fault => exact absurd hw nofun
  | finish => exact absurd hw nofun
  | schedule =>
    obtain ⟨_, _, hpos, _, hstep⟩ := scheduled_keeps S S.headBlock (S.stepIndex.toNat + 1) S.emitted
    exact .inr ⟨hstep, hpos⟩

/-- One step of a block that stays busy: the block is the same, and each axis keeps its place or takes the step of one more event. -/
theorem step_same_block {s t : State} (hs : Inv s) (hstep : step s = .next t) (hrun : s.eng = .run) (ht : t.eng = .run)
    (hhead : t.head = s.head) :
    t.params = s.params ∧ t.headBlock = s.headBlock
      ∧ ((t.stepIndex = s.stepIndex ∧ t.pos = s.pos) ∨ (t.stepIndex = s.stepIndex + 1#32 ∧ t.pos = s.emitted.st.pos)) := by
  rcases step_effect hstep with ⟨_, rfl⟩ | ⟨_, e, clear, w, _, _, hbus, rfl⟩
  · exact absurd ht nofun
  · have hlocked := hbus.lockedKept (unlocked_of_not fun h => h.1 hrun)
    have hhost := beforeBus_hostSide s e
    obtain ⟨hw, hh, _⟩ := hbus.of_run ht
    have hhead' : (beforeBus s e).st.head = s.head := hh.symm.trans hhead
    have hparams : w.st.params = s.params := hbus.kept.params.trans hhost.params
    have hblock : w.st.headBlock = s.headBlock := by
      rw [busEffect_headBlock hs hbus ht, hhost.headBlock_eq, hhead']; rfl
    refine ⟨hparams, hblock, ?_⟩
    show (w.st.stepIndex = _ ∧ w.st.pos = _) ∨ (w.st.stepIndex = _ ∧ w.st.pos = _)
    rw [hbus.kept.stepIndex, hlocked.pos]
    rw [beforeBus_st] at hw hhead' ⊢
    exact (afterEngine_effect s e).same_block hrun hw hhead'

/-- Where the axes of block `b`, claimed at the positions `p₀`, stand in `s`: at the closed form of R143. -/
structure OnBlock (q : Params) (b : Block) (p₀ : PerAxis Word) (s : State) : Prop where
  inv : Inv s
  bresenham : BresenhamInv s
  params : s.params = q
  block : s.headBlock = b
  pos : ∀ a : Axis, a.val < q.A → s.pos[a] = moved p₀[a] (b.forward a) (pulsesAfter (b.dominant q) b.steps[a] s.stepIndex.toNat)

/-- The closed form goes on by one event with each Bresenham step. -/
theorem OnBlock.emitted {q : Params} {b : Block} {p₀ : PerAxis Word} {s : State} (h : OnBlock q b p₀ s) (hrun : s.eng = .run) (a : Axis)
    (ha : a.val < q.A) :
    s.emitted.st.pos[a] = moved p₀[a] (b.forward a) (pulsesAfter (b.dominant q) b.steps[a] (s.stepIndex.toNat + 1)) := by
  obtain ⟨hs, hb, rfl, rfl, hpos⟩ := h
  have hvalid := (validate_eq_zero _ _).1 (hs.running hrun).block_valid
  rw [emitted_pos_get s a ha, hb hrun a ha, hpos a ha, pulsesAfter_succ hvalid.dominant_pos (hvalid.steps_le a ha)]
  split
  · rw [moved_succ]
  · rfl

theorem OnBlock.step {q : Params} {b : Block} {p₀ : PerAxis Word} {s t : State} (h : OnBlock q b p₀ s) (hstep : step s = .next t)
    (hrun : s.eng = .run) (ht : t.eng = .run) (hhead : t.head = s.head) : OnBlock q b p₀ t := by
  obtain ⟨hparams, hblock, hmove⟩ := step_same_block h.inv hstep hrun ht hhead
  refine ⟨stepKeepsInvariants s t h.inv hstep, stepKeepsErrorTerms s t h.inv h.bresenham hstep, hparams.trans h.params,
    hblock.trans h.block, fun a ha => ?_⟩
  rcases hmove with ⟨hindex, hpos⟩ | ⟨hindex, hpos⟩ <;> rw [hpos, hindex]
  · exact h.pos a ha
  · have hlt := (h.inv.running hrun).index_lt
    have hD : s.headBlock.dominant s.params < 2 ^ 31 := decodeBlock_dominant_lt _ _ _
    have hnext : (s.stepIndex + 1#32).toNat = s.stepIndex.toNat + 1 := by rw [BitVec.toNat_add, BitVec.toNat_ofNat]; omega
    rw [hnext]; exact h.emitted hrun a ha

/-- Settles O51: along the steps by induction from the claim, and the last event from there. -/
theorem positionsAreExact : Obligations.PositionsAreExact := by
  intro σ m hinv hbres hzero hsteps hbusy b d a ha
  have hdom : 1 ≤ d := ((validate_eq_zero _ _).1 (hinv.running (hbusy 0 (Nat.zero_le m)).1).block_valid).dominant_pos
  have hstart : OnBlock (σ 0).params b (σ 0).pos (σ 0) := by
    refine ⟨hinv, hbres, rfl, rfl, fun a _ => ?_⟩
    rw [hzero, show (0#32 : Word).toNat = 0 from rfl, pulsesAfter_zero hdom]
    cases b.forward a <;> simp [moved]
  have halong : ∀ j, j ≤ m → OnBlock (σ 0).params b (σ 0).pos (σ j) := by
    intro j
    induction j with
    | zero => exact fun _ => hstart
    | succ j ih =>
      intro hj
      obtain ⟨hrun, hhead⟩ := hbusy j (by omega)
      obtain ⟨hrun', hhead'⟩ := hbusy (j + 1) hj
      exact (ih (by omega)).step (hsteps j (by omega)) hrun hrun' (hhead'.trans hhead.symm)
  have hm := halong m (Nat.le_refl m)
  refine ⟨hm.pos a ha, fun t hstep hrst hestop hcd htrig hlast => ?_⟩
  have hrun := (hbusy m (Nat.le_refl m)).1
  rcases step_effect hstep with ⟨hr, _⟩ | ⟨_, e, clear, w, he, _, hbus, rfl⟩
  · exact absurd hr (by simp [hrst])
  · simp only [State.estopNow, Bool.or_eq_false_iff, decide_eq_false_iff_not] at hestop
    have he' : e = false := by
      cases e
      · rfl
      · exact absurd (he rfl) hestop.2
    have heffect := afterEngine_effect (σ m) e
    rw [he', hestop.1] at heffect
    have hlocked := hbus.lockedKept (unlocked_of_not fun h => h.1 hrun)
    show w.st.pos[a] = _
    rw [hlocked.pos, beforeBus_st, he']
    show (afterEngine (σ m) false).st.pos[a] = _
    rw [heffect.event_pos hrun hcd htrig, hm.emitted hrun a ha, hlast, pulsesAfter_last hdom]

end Sys2Proof.Machine

/-! Proof of O5, O6 and O9, and what the decoder says of a step: R87 to R89 read in both directions, so that the instruction on the bus is
well formed, and a write it carries is no command. -/

namespace Sys2Proof.Machine

/-! ### The command word (R87, R88) -/

theorem legalCommandWord_iff (v : Word) :
    legalCommandWord v = true ↔ (commandOp v).toNat < 7 ∧ v &&& reservedMask (commandOp v) = 0#32 := by
  simp [legalCommandWord, commandOp]

/-- R89 rejects exactly the words that are not legal. -/
theorem decodeCommand_error_of_not_legal {v : Word} (h : legalCommandWord v = false) : ∃ e, decodeCommand v = .error e := by
  by_cases hop : 7 ≤ (commandOp v).toNat
  · exact ⟨_, decodeCommand_unknown hop⟩
  · refine ⟨_, decodeCommand_reservedBits (by omega) fun hbits => ?_⟩
    rw [(legalCommandWord_iff v).2 ⟨by omega, hbits⟩] at h
    exact absurd h nofun

theorem legal_of_decodeCommand {v : Word} {i : Instr} (h : decodeCommand v = .ok i) : legalCommandWord v = true := by
  cases hl : legalCommandWord v with
  | true => rfl
  | false =>
    obtain ⟨e, he⟩ := decodeCommand_error_of_not_legal hl
    exact absurd (h.symm.trans he) nofun

/-- The bits that a mask of ones from bit `n` on forces to 0. -/
theorem high_bits_zero {v m : Word} {n : Nat} (hm : ∀ i : Fin 32, m.getLsbD i = decide (n ≤ i.val)) (hv : v &&& m = 0#32) (i : Nat)
    (hn : n ≤ i) : v.getLsbD i = false := by
  by_cases hi : i < 32
  · have hbit := congrArg (fun x : Word => x.getLsbD i) hv
    simpa [hm ⟨i, hi⟩, hn] using hbit
  · exact BitVec.getLsbD_of_ge _ _ (by omega)

/-- A word of an opcode below 7 whose other bits are reserved is the opcode alone. -/
theorem word_of_op {v : Word} (hv : v &&& 0xFFFFFF00#32 = 0#32) : v = (commandOp v).setWidth 32 := by
  have hz := high_bits_zero (n := 8) (by decide) hv
  apply BitVec.eq_of_getLsbD_eq
  intro i hi
  by_cases h8 : i < 8
  · simp [commandOp, h8, hi]
  · rw [hz i (by omega)]; simp [commandOp, h8]

theorem word_of_update {v : Word} (hop : commandOp v = 0x02#8) (hv : v &&& 0xFFFFC000#32 = 0#32) :
    v = 0#18 ++ v.extractLsb' 8 6 ++ 0x02#8 := by
  have hz := high_bits_zero (n := 14) (by decide) hv
  rw [← hop]
  apply BitVec.eq_of_getLsbD_eq
  intro i hi
  rw [BitVec.getLsbD_append, BitVec.getLsbD_append]
  by_cases h8 : i < 8
  · simp [commandOp, h8]
  · by_cases h14 : i - 8 < 6
    · simp [h8, h14, show 8 + (i - 8) = i by omega]
    · rw [hz i (by omega)]; simp [h8, h14]

theorem word_of_babystep {v : Word} (hop : commandOp v = 0x05#8) (hv : v &&& 0xFFFFE000#32 = 0#32) :
    v = 0#19 ++ BitVec.ofBool (v.getLsbD 12) ++ v.extractLsb' 8 4 ++ 0x05#8 := by
  have hz := high_bits_zero (n := 13) (by decide) hv
  rw [← hop]
  apply BitVec.eq_of_getLsbD_eq
  intro i hi
  rw [BitVec.getLsbD_append, BitVec.getLsbD_append, BitVec.getLsbD_append]
  by_cases h8 : i < 8
  · simp [commandOp, h8]
  · by_cases h12 : i - 8 < 4
    · simp [h8, h12, show 8 + (i - 8) = i by omega]
    · by_cases h13 : i - 8 - 4 < 1
      · obtain rfl : i = 12 := by omega
        simp
      · rw [hz i (by omega)]; simp [h8, h12, h13]

/-- A command that a word decodes to is encoded by that word, and is no access. -/
theorem encode_of_decodeCommand {v : Word} {i : Instr} (h : decodeCommand v = .ok i) : i.wellFormed = true ∧ encode i = commandRequest v := by
  obtain ⟨hop, hbits⟩ := (legalCommandWord_iff v).1 (legal_of_decodeCommand h)
  rw [decodeCommand, if_neg (by omega), if_neg (not_not.2 hbits)] at h
  have hword : ∀ k : Byte, commandOp v = k → commandOp v ≠ 0x02#8 → commandOp v ≠ 0x05#8 → v = k.setWidth 32 := by
    intro k hk h2 h5
    rw [reservedMask, if_neg h2, if_neg h5] at hbits
    exact hk ▸ word_of_op hbits
  have hop' : commandOp v = 0x00#8 ∨ commandOp v = 0x01#8 ∨ commandOp v = 0x02#8 ∨ commandOp v = 0x03#8 ∨ commandOp v = 0x04#8
      ∨ commandOp v = 0x05#8 ∨ commandOp v = 0x06#8 := by
    generalize commandOp v = k at hop
    revert k; decide
  rcases hop' with hk | hk | hk | hk | hk | hk | hk <;> simp only [hk] at h <;> cases h
  case inl => exact ⟨rfl, congrArg commandRequest (hword _ hk (by simp [hk]) (by simp [hk])).symm⟩
  case inr.inl => exact ⟨rfl, congrArg commandRequest (hword _ hk (by simp [hk]) (by simp [hk])).symm⟩
  case inr.inr.inl => rw [hk] at hbits; exact ⟨rfl, congrArg commandRequest (word_of_update hk hbits).symm⟩
  case inr.inr.inr.inl => exact ⟨rfl, congrArg commandRequest (hword _ hk (by simp [hk]) (by simp [hk])).symm⟩
  case inr.inr.inr.inr.inl => exact ⟨rfl, congrArg commandRequest (hword _ hk (by simp [hk]) (by simp [hk])).symm⟩
  case inr.inr.inr.inr.inr.inl => rw [hk] at hbits; exact ⟨rfl, congrArg commandRequest (word_of_babystep hk hbits).symm⟩
  case inr.inr.inr.inr.inr.inr => exact ⟨rfl, congrArg commandRequest (hword _ hk (by simp [hk]) (by simp [hk])).symm⟩

/-! ### Decoding what was encoded -/

theorem decodeCommand_update : ∀ slot : BitVec 6, decodeCommand (0#18 ++ slot ++ 0x02#8) = .ok (.update slot) := by decide

theorem decodeCommand_babystep :
    ∀ (axis : BitVec 4) (forward : Bool), decodeCommand (0#19 ++ BitVec.ofBool forward ++ axis ++ 0x05#8) = .ok (.babystep axis forward) := by
  decide

/-- A word write to CMD decodes as its command word does. -/
theorem decode_commandRequest {v : Word} {i : Instr} (h : decodeCommand v = .ok i) : decode (commandRequest v) = .ok i := by
  have hrequest : commandRequest v = { write := true, size := 2#2, addr := cmdAddr, wdata := v } := rfl
  have haligned : alignedAddr cmdAddr = true := by decide
  simp [hrequest, decode, haligned, h]

/-- Settles O5: each command through its command word; a WR that is no command stays one. -/
theorem decodeEncodeRoundTrip : Obligations.DecodeEncodeRoundTrip := by
  intro i hi
  cases i with
  | rd addr =>
    have haligned : alignedAddr addr = true := hi
    simp [decode, encode, haligned]
  | wr addr data =>
    simp only [Instr.wellFormed, Bool.and_eq_true, Bool.not_eq_true', Bool.and_eq_false_iff] at hi
    obtain ⟨haligned, hcmd⟩ := hi
    by_cases haddr : addr = cmdAddr
    · obtain ⟨e, he⟩ := decodeCommand_error_of_not_legal (hcmd.resolve_left (by simp [haddr]))
      subst haddr
      simp [decode, encode, haligned, he]
    · simp [decode, encode, haligned, haddr]
  | nop => exact decode_commandRequest (by decide)
  | push => exact decode_commandRequest (by decide)
  | update slot => exact decode_commandRequest (decodeCommand_update slot)
  | estop => exact decode_commandRequest (by decide)
  | qstop => exact decode_commandRequest (by decide)
  | babystep axis forward => exact decode_commandRequest (decodeCommand_babystep axis forward)
  | clearHalt => exact decode_commandRequest (by decide)

/-- What a legal access decodes to: a read, a command, or a write that is no command (R81, R88, R89). -/
theorem decode_cases {r : BusRequest} {i : Instr} (h : decode r = .ok i) :
    r.size = 2#2 ∧ alignedAddr r.addr = true
      ∧ ((r.write = false ∧ i = .rd r.addr)
        ∨ (r.write = true ∧ r.addr = cmdAddr ∧ decodeCommand r.wdata = .ok i)
        ∨ (r.write = true ∧ i = .wr r.addr r.wdata ∧ ¬(r.addr = cmdAddr ∧ legalCommandWord r.wdata = true))) := by
  unfold decode at h
  split at h
  · exact absurd h nofun
  rename_i hsize
  split at h
  · exact absurd h nofun
  rename_i haligned
  refine ⟨by simpa using hsize, by simpa using haligned, ?_⟩
  split at h
  · rename_i hread
    exact .inl ⟨hread, (Except.ok.inj h).symm⟩
  rename_i hwrite
  right
  split at h
  · rename_i hcmd
    split at h
    · rename_i j hj
      exact .inl ⟨by simpa using hwrite, hcmd, hj.trans (congrArg _ (Except.ok.inj h))⟩
    · rename_i e he
      refine .inr ⟨by simpa using hwrite, (Except.ok.inj h).symm, fun hlegal => ?_⟩
      have hmask := (legalCommandWord_iff _).1 hlegal.2
      rw [decodeCommand, if_neg (by omega), if_neg (not_not.2 hmask.2)] at he
      split at he <;> exact absurd he nofun
  · rename_i hcmd
    exact .inr ⟨by simpa using hwrite, (Except.ok.inj h).symm, fun hlegal => hcmd hlegal.1⟩

/-- Settles O6: for each of the three forms of a legal access. -/
theorem encodeOfDecodedAccess : Obligations.EncodeOfDecodedAccess := by
  intro r i h
  obtain ⟨hsize, haligned, hform⟩ := decode_cases h
  obtain ⟨write, size, addr, wdata⟩ := r
  simp only at hsize haligned hform ⊢
  subst hsize
  rcases hform with ⟨rfl, rfl⟩ | ⟨rfl, rfl, hcmd⟩ | ⟨rfl, rfl, hplain⟩
  · exact ⟨haligned, rfl⟩
  · obtain ⟨hwf, henc⟩ := encode_of_decodeCommand hcmd
    exact ⟨hwf, henc⟩
  · refine ⟨?_, rfl⟩
    simp only [Instr.wellFormed, haligned, Bool.true_and, Bool.not_eq_true']
    simpa using hplain

/-! ### A command word written to CMD -/

/-- A WR of a command's word runs the bus stage of the command. -/
theorem exec_wr_of_command {v : Word} {i : Instr} (s : State) (he : isEstopWrite cmdAddr v = isEstop i)
    (hc : clears s i = 0#5) (hbus : ∀ w, command s v w = busStage s i w) : exec (.wr cmdAddr v) s = exec i s := by
  have hstage : busStage s (.wr cmdAddr v) = busStage s i := funext fun w => hbus w
  have hclear : clears s (.wr cmdAddr v) = 0#5 := irqClear_of_reg (regAt_cmdAddr _) (by decide) v
  have hestop : isEstop (.wr cmdAddr v) = isEstop i := he
  rw [exec_eq_cycle, exec_eq_cycle, hstage, hclear, hestop, hc]

/-- Settles O9: the parse of R164 finds each command in its own word. -/
theorem commandWriteRunsTheCommand : Obligations.CommandWriteRunsTheCommand := by
  intro s
  have hrun : ∀ {v : Word} {i : Instr}, isEstopWrite cmdAddr v = isEstop i → clears s i = 0#5 →
      (∀ w, command s v w = busStage s i w) → exec (.wr 0x010#14 v) s = exec i s := exec_wr_of_command s
  refine ⟨hrun (i := .nop) (by decide) rfl fun w => ?_, hrun (i := .push) (by decide) rfl fun w => ?_, fun slot => ?_,
    hrun (i := .estop) (by decide) rfl fun w => ?_, hrun (i := .qstop) (by decide) rfl fun w => ?_, fun axis dir => ?_,
    hrun (i := .clearHalt) (by decide) rfl fun w => ?_⟩
  · rfl
  · rfl
  · have hcmd := decodeCommand_update slot
    have hestop : ∀ slot : BitVec 6, isEstopWrite cmdAddr (0#18 ++ slot ++ 0x02#8) = false := by decide
    exact hrun (hestop slot) rfl fun w => by rw [command, hcmd]; rfl
  · rfl
  · rfl
  · have hcmd := decodeCommand_babystep axis dir
    have hestop : ∀ (axis : BitVec 4) (dir : Bool), isEstopWrite cmdAddr (0#19 ++ BitVec.ofBool dir ++ axis ++ 0x05#8) = false := by decide
    exact hrun (hestop axis dir) rfl fun w => by rw [command, hcmd]; rfl
  · rfl

end Sys2Proof.Machine

/-! Which access changes what: the effects of the bus tied to the instruction on it. Only QSTOP and CLEAR_HALT write the engine's control
state, and only PUSH the tail. -/

namespace Sys2Proof.Machine

/-! ### The address of CMD -/

theorem mem_of_lookup {l : List (Nat × Reg)} {a : Nat} {r : Reg} (h : l.lookup a = some r) : (a, r) ∈ l := by
  obtain ⟨l₁, l₂, e, _⟩ := List.lookup_eq_some_iff.1 h
  rw [e]; simp

theorem axisReg_eq_some {p : Params} {base a : Nat} {mk : Axis → Reg} {r : Reg} (h : axisReg p base a mk = some r) : ∃ i, r = mk i := by
  unfold axisReg at h
  split at h
  · exact ⟨_, (Option.some.inj h).symm⟩
  · exact absurd h nofun

/-- CMD stands at one address. -/
theorem regAt_eq_cmd {p : Params} {x : Addr} (h : regAt p x = some .cmd) : x = cmdAddr := by
  have hfixed : fixedRegs.lookup x.toNat = some .cmd → x = cmdAddr := fun hl => by
    have honly : ∀ c ∈ fixedRegs, c.2 = .cmd → c.1 = 0x010 := by decide
    exact BitVec.eq_of_toNat_eq (honly _ (mem_of_lookup hl) rfl)
  have haxis : ∀ {base : Nat} {mk : Axis → Reg}, axisReg p base x.toNat mk = some .cmd → (∀ i, mk i ≠ .cmd) → x = cmdAddr := by
    intro base mk hax hne
    obtain ⟨i, hi⟩ := axisReg_eq_some hax
    exact absurd hi.symm (hne i)
  unfold regAt at h
  dsimp only at h
  rcases ite_eq_iff.1 h with ⟨_, h⟩ | ⟨_, h⟩
  · exact absurd h nofun
  rcases ite_eq_iff.1 h with ⟨_, h⟩ | ⟨_, h⟩
  · exact hfixed h
  iterate 5
    rcases ite_eq_iff.1 h with ⟨_, h⟩ | ⟨_, h⟩
    · exact haxis h (fun _ => nofun)
  rcases ite_eq_iff.1 h with ⟨_, h⟩ | ⟨_, h⟩
  · exact hfixed h
  rcases ite_eq_iff.1 h with ⟨_, h⟩ | ⟨_, h⟩
  · exact absurd (Option.some.inj h) nofun
  rcases ite_eq_iff.1 h with ⟨_, h⟩ | ⟨_, h⟩
  · exact absurd h nofun
  rcases ite_eq_iff.1 h with ⟨_, h⟩ | ⟨_, h⟩
  · exact absurd (Option.some.inj h) nofun
  · exact absurd h nofun

theorem accessClass_eq_wo {r : Reg} (h : r.accessClass = .wo) : r = .cmd := by
  cases r with
  | cmd => rfl
  | _ => exact absurd h nofun

/-! ### The control state and the tail through an access -/

theorem answer_control (op : Byte) (r : CommandResult) (w : Work) :
    ControlKept w.st (answer op r w).st ∧ (answer op r w).st.tail = w.st.tail :=
  ⟨⟨rfl, rfl, rfl, rfl, rfl, rfl, rfl, rfl⟩, rfl⟩

theorem flagError_control (e : BitVec 3) (w : Work) :
    ControlKept w.st (flagError e w).st ∧ (flagError e w).st.tail = w.st.tail :=
  ⟨⟨rfl, rfl, rfl, rfl, rfl, rfl, rfl, rfl⟩, rfl⟩

theorem storeReg_control (S : State) (v : Word) (r : Reg) (w : Work) :
    ControlKept w.st (storeReg S v r w).st ∧ (storeReg S v r w).st.tail = w.st.tail := by
  unfold storeReg
  split
  · exact ⟨⟨rfl, rfl, rfl, rfl, rfl, rfl, rfl, rfl⟩, rfl⟩
  · exact ⟨⟨rfl, rfl, rfl, rfl, rfl, rfl, rfl, rfl⟩, rfl⟩
  · exact ⟨⟨rfl, rfl, rfl, rfl, rfl, rfl, rfl, rfl⟩, rfl⟩
  · split
    · split
      · exact ⟨(storeLocked_control v w.st r).1, (storeLocked_control v w.st r).2.1⟩
      · exact flagError_control _ w
    · exact ⟨⟨rfl, rfl, rfl, rfl, rfl, rfl, rfl, rfl⟩, rfl⟩

/-- A word that is no command is only answered (R89). -/
theorem command_of_error {v : Word} {x : CommandError} (h : decodeCommand v = .error x) (S : State) (w : Work) :
    ∃ r, command S v w = answer (commandOp v) r w := by
  rw [command, h]
  cases x
  · exact ⟨_, rfl⟩
  · exact ⟨_, rfl⟩

/-- A write that is no command leaves the control state and the tail alone. -/
theorem busWrite_control {x : Addr} {v : Word} (hwf : (Instr.wr x v).wellFormed = true) (S : State) (w : Work) :
    ControlKept w.st (busWrite S x v w).st ∧ (busWrite S x v w).st.tail = w.st.tail := by
  unfold busWrite
  split
  · exact flagError_control _ w
  rename_i r hreg
  split
  · exact flagError_control _ w
  · rename_i hclass
    obtain rfl : x = cmdAddr := regAt_eq_cmd (accessClass_eq_wo hclass ▸ hreg)
    have hlegal : legalCommandWord v = false := by
      simp only [Instr.wellFormed, beq_self_eq_true, Bool.true_and, Bool.and_eq_true, Bool.not_eq_true'] at hwf
      exact hwf.2
    obtain ⟨e, he⟩ := decodeCommand_error_of_not_legal hlegal
    obtain ⟨r, hr⟩ := command_of_error he S w
    rw [hr]; exact answer_control _ _ w
  all_goals exact storeReg_control S v r w

/-- Every instruction but PUSH, QSTOP and CLEAR_HALT leaves the control state and the tail alone. -/
theorem busStage_plain {S : State} {i : Instr} (hwf : i.wellFormed = true) (hpush : i ≠ .push) (hstop : i ≠ .qstop) (hclear : i ≠ .clearHalt)
    (w : Work) : ControlKept w.st (busStage S i w).st ∧ (busStage S i w).st.tail = w.st.tail := by
  cases i with
  | rd addr =>
    show ControlKept w.st (busRead S addr w).st ∧ (busRead S addr w).st.tail = w.st.tail
    unfold busRead
    split
    · exact flagError_control _ w
    · exact ⟨⟨rfl, rfl, rfl, rfl, rfl, rfl, rfl, rfl⟩, rfl⟩
  | wr addr v => exact busWrite_control hwf S w
  | nop => exact answer_control _ _ w
  | push => exact absurd rfl hpush
  | update slot =>
    show ControlKept w.st (commandUpdate S slot w).st ∧ (commandUpdate S slot w).st.tail = w.st.tail
    rcases commandUpdate_cases S slot w with ⟨_, e⟩ | ⟨_, _, _, _, _, _, e⟩ <;> rw [e] <;>
      exact ⟨⟨rfl, rfl, rfl, rfl, rfl, rfl, rfl, rfl⟩, rfl⟩
  | estop => exact answer_control _ _ w
  | qstop => exact absurd rfl hstop
  | babystep axis forward =>
    show ControlKept w.st (commandBabystep S axis forward w).st ∧ (commandBabystep S axis forward w).st.tail = w.st.tail
    rcases commandBabystep_cases S axis forward w with ⟨_, e⟩ | ⟨_, _, e⟩ <;> rw [e] <;>
      exact ⟨⟨rfl, rfl, rfl, rfl, rfl, rfl, rfl, rfl⟩, rfl⟩
  | clearHalt => exact absurd rfl hclear

/-- QSTOP writes the control state of a machine not HALTED, and CLEAR_HALT that of a HALTED one; no other instruction does. -/
theorem busStage_control {S : State} {i : Instr} (hwf : i.wellFormed = true) (w : Work) (hstop : i = .qstop → w.st.eng = .halted)
    (hclear : i = .clearHalt → S.eng ≠ .halted) : ControlKept w.st (busStage S i w).st := by
  by_cases hpush : i = .push
  · subst hpush
    show ControlKept w.st (commandPush S w).st
    rcases commandPush_cases S w with ⟨_, e⟩ | ⟨_, _, e⟩ | ⟨_, _, _, e⟩ | ⟨_, _, _, e⟩ <;> rw [e] <;>
      exact ⟨rfl, rfl, rfl, rfl, rfl, rfl, rfl, rfl⟩
  by_cases hhalt : i = .clearHalt
  · subst hhalt
    show ControlKept w.st (commandClearHalt S w).st
    rcases commandClearHalt_cases S w with ⟨_, e⟩ | ⟨_, hS, _⟩
    · rw [e]; exact (answer_control _ _ w).1
    · exact absurd hS (hclear rfl)
  by_cases hqstop : i = .qstop
  · have hw := hstop hqstop
    subst hqstop
    show ControlKept w.st (commandQstop S w).st
    rw [commandQstop_of_halted hw]; exact (answer_control _ _ w).1
  exact (busStage_plain hwf hpush hqstop hhalt w).1

/-- PUSH alone writes the tail. -/
theorem busStage_tail {S : State} {i : Instr} (hwf : i.wellFormed = true) (hpush : i ≠ .push) (w : Work) :
    (busStage S i w).st.tail = w.st.tail := by
  by_cases hstop : i = .qstop
  · subst hstop
    show (commandQstop S w).st.tail = _
    rcases commandQstop_cases S w with ⟨_, e⟩ | ⟨_, e⟩ | ⟨_, _, e⟩ | ⟨_, _, e⟩ <;> rw [e] <;> rfl
  by_cases hhalt : i = .clearHalt
  · subst hhalt
    show (commandClearHalt S w).st.tail = _
    rcases commandClearHalt_cases S w with ⟨_, e⟩ | ⟨_, _, e⟩ <;> rw [e] <;> rfl
  exact (busStage_plain hwf hpush hstop hhalt w).2

/-! ### The cycle with the instruction on the bus -/

/-- Only the ESTOP command stops the machine: a decoded WR of its word does not occur (R102). -/
theorem isEstop_eq {i : Instr} (hwf : i.wellFormed = true) : isEstop i = decide (i = .estop) := by
  cases i with
  | wr addr v =>
    have hnot : isEstopWrite addr v = false := by
      by_contra h
      simp only [isEstopWrite, Bool.not_eq_false, Bool.and_eq_true, decide_eq_true_eq] at h
      obtain ⟨rfl, rfl⟩ := h
      exact absurd hwf (by decide)
    exact hnot
  | _ => rfl

theorem onBus_wellFormed {s : State} {i : Instr} (h : s.onBus = some i) : i.wellFormed = true := by
  unfold State.onBus at h
  split at h
  · exact absurd h nofun
  · split at h
    · rename_i hd
      exact (encodeOfDecodedAccess _ _ (Option.some.inj h ▸ hd)).1
    · exact absurd h nofun

/-- A cycle outside reset: an effect of the bus over the stages before it, and what the instruction on the bus leaves alone. -/
structure CycleOf (s : State) (t : State) (e : Bool) (clear : BitVec 5) (w : Work) : Prop where
  next : t = advanceHost (irqUpdate s clear w)
  estop : e = decide (s.onBus = some .estop)
  effect : BusEffect s (beforeBus s e) w
  control : (s.onBus = some .qstop → (beforeBus s e).st.eng = .halted) → (s.onBus = some .clearHalt → s.eng ≠ .halted) →
    ControlKept (beforeBus s e).st w.st
  tail : s.onBus ≠ some .push → w.st.tail = s.tail

/-- Everything a step outside reset can be, with the instruction on the bus. -/
theorem step_onBus {s t : State} (h : step s = .next t) (hrst : s.sample.rst = false) : ∃ e clear w, CycleOf s t e clear w := by
  have hc : ∀ e clear bus, cycleWith s e clear bus = irqUpdate s clear (bus (beforeBus s e)) := fun e clear bus => by
    rw [cycleWith, hrst]; rfl
  have htail : ∀ e, (beforeBus s e).st.tail = s.tail := fun e => (beforeBus_hostSide s e).tail
  rcases step_cases h with ⟨r, i, h1, h2, e⟩ | ⟨h1, e⟩ | ⟨r, x, h1, h2, e⟩
  · have hb : s.onBus = some i := by simp only [State.onBus, h1, h2]
    have hwf := onBus_wellFormed hb
    refine ⟨isEstop i, clears s i, busStage s i (beforeBus s (isEstop i)), e.trans (by rw [hc]), ?_, busStage_effect s i _, fun hq hh => ?_,
      fun hp => ?_⟩
    · rw [isEstop_eq hwf, hb]; simp
    · exact busStage_control hwf _ (fun he => hq (by rw [hb, he])) (fun he => hh (by rw [hb, he]))
    · exact (busStage_tail hwf (fun he => hp (by rw [hb, he])) _).trans (htail _)
  · have hb : s.onBus = none := by simp only [State.onBus, h1]
    exact ⟨false, 0#5, beforeBus s false, e.trans (by rw [idleCycle, hc]; rfl), by simp [hb], same_effect s _,
      fun _ _ => ⟨rfl, rfl, rfl, rfl, rfl, rfl, rfl, rfl⟩, fun _ => htail _⟩
  · have hb : s.onBus = none := by simp only [State.onBus, h1, h2]
    exact ⟨false, 0#5, flagError errBus (beforeBus s false), e.trans (by rw [illegalAccessCycle, hc]), by simp [hb], flagError_effect s _ _,
      fun _ _ => (flagError_control _ _).1, fun _ => htail _⟩

/-- The stages before the bus in a cycle with or without an emergency stop. -/
theorem CycleOf.engine {s t : State} {e : Bool} {clear : BitVec 5} {w : Work} (h : CycleOf s t e clear w) :
    EngineEffect s s.estopNow (afterEngine s e) := by
  rw [State.estopNow, ← h.estop]; exact afterEngine_effect s e

end Sys2Proof.Machine

/-! Proof of O52 to O55: the two counters run down one a cycle, whatever the host does, and no pulse begins but at a step event or in a
sequence, which keep off each other, off an emergency stop and off a change of direction. -/

namespace Sys2Proof.Machine

/-! ### The spacing of step events -/

/-- A cycle in the middle of an interval counts and does nothing else to the engine (R130). -/
theorem step_counts {s t : State} (hstep : step s = .next t) (hrst : s.sample.rst = false) (hestop : s.estopNow = false)
    (hstop : s.onBus ≠ some .qstop) (hrun : s.eng = .run) (hcd : s.cd ≠ 1#32) :
    t.eng = .run ∧ t.cd = s.cd - 1#32 ∧ t.head = s.head ∧ t.stepIndex = s.stepIndex ∧ t.errTerm = s.errTerm ∧ t.pos = s.pos
      ∧ t.interval = s.interval := by
  obtain ⟨e, clear, w, hcycle⟩ := step_onBus hstep hrst
  have hkeep := counting_engineSide s
  have hengine := hcycle.engine
  have hlocked := hcycle.effect.lockedKept (unlocked_of_not fun h => h.1 hrun)
  have hk := hcycle.effect.kept
  have hc := hcycle.control (fun h => absurd h hstop) fun _ => by simp [hrun]
  rw [hcycle.next]
  show w.st.eng = _ ∧ w.st.cd = _ ∧ w.st.head = _ ∧ w.st.stepIndex = _ ∧ w.st.errTerm = _ ∧ w.st.pos = _ ∧ w.st.interval = _
  rw [hc.eng, hc.cd, hc.head, hk.stepIndex, hk.errTerm, hlocked.pos, hk.interval, beforeBus_st]
  show (afterEngine s e).st.eng = _ ∧ _
  rw [hestop] at hengine
  generalize afterEngine s e = v at hengine
  cases hengine with
  | count => exact ⟨hkeep.eng.trans hrun, rfl, hkeep.head, hkeep.stepIndex, hkeep.errTerm, hkeep.pos, hkeep.interval⟩
  | rest hhalt => exact absurd hrun (by simp [hhalt])
  | wait hbase => exact absurd (hbase.event_due hrun) hcd
  | bad hbase => exact absurd (hbase.event_due hrun) hcd
  | claim hbase => exact absurd (hbase.event_due hrun) hcd
  | fault _ h1 => exact absurd h1 hcd
  | finish _ h1 => exact absurd h1 hcd
  | schedule _ h1 => exact absurd h1 hcd

/-- Settles O52, by induction on the cycles of the interval. -/
theorem stepEventsKeepSpacing : Obligations.StepEventsKeepSpacing := by
  intro σ c hrun hc hsteps j
  induction j with
  | zero => exact fun _ => ⟨hrun, hc, rfl, rfl, rfl, rfl, rfl⟩
  | succ j ih =>
    intro hj
    obtain ⟨hrun', hcd, hhead, hindex, herr, hpos, hivl⟩ := ih (by omega)
    obtain ⟨hstep, hrst, hestop, hstop⟩ := hsteps j hj
    have hne : (σ j).cd ≠ 1#32 := fun h => by rw [h] at hcd; simp at hcd; omega
    obtain ⟨h1, h2, h3, h4, h5, h6, h7⟩ := step_counts hstep hrst hestop hstop hrun' hne
    have hlt := (σ j).cd.isLt
    refine ⟨h1, ?_, h3.trans hhead, h4.trans hindex, h5.trans herr, h6.trans hpos, h7.trans hivl⟩
    rw [h2, BitVec.toNat_sub, BitVec.toNat_ofNat]
    omega

/-! ### The length of a pulse -/

/-- While a pulse is out no step event comes, so its counter runs on and its mask stays (R137, R154). -/
theorem step_pulse {s t : State} (hp : PulseInv s) (hstep : step s = .next t) (hrst : s.sample.rst = false)
    (hpt : 0 < s.pt.toNat) : t.pt.toNat = s.pt.toNat - 1 ∧ (1 < s.pt.toNat → t.pmask = s.pmask) := by
  obtain ⟨e, clear, w, hcycle⟩ := step_onBus hstep hrst
  have hk := hcycle.effect.kept
  rw [hcycle.next]
  show w.st.pt.toNat = _ ∧ (_ → w.st.pmask = _)
  rw [hk.pt, hk.pmask, beforeBus_st]
  show (afterEngine s e).st.pt.toNat = _ ∧ (_ → (afterEngine s e).st.pmask = _)
  rcases hcycle.engine.pulse with ⟨h1, h2⟩ | ⟨hrun, hcd, _⟩
  · rw [h1, h2, counting_pt_toNat, (counting_pulse s).2.1]
    exact ⟨rfl, fun h => if_neg (by omega)⟩
  · have hends := hp.ends_first hrun
    rw [hcd] at hends
    simp at hends
    omega

/-- Settles O53, by induction on the cycles of the pulse, with the invariants carried along. -/
theorem pulsesLastTheirWidth : Obligations.PulsesLastTheirWidth := by
  intro σ hinv hpulse hfull hsteps
  have halong : ∀ j, j ≤ (σ 0).cfgPulseWidth.toNat → Inv (σ j) ∧ PulseInv (σ j) ∧ (σ j).pt.toNat = (σ 0).cfgPulseWidth.toNat - j
      ∧ (j < (σ 0).cfgPulseWidth.toNat → (σ j).pmask = (σ 0).pmask) := by
    intro j
    induction j with
    | zero => exact fun _ => ⟨hinv, hpulse, by rw [hfull]; rfl, fun _ => rfl⟩
    | succ j ih =>
      intro hj
      obtain ⟨hi, hp, hpt, hmask⟩ := ih (by omega)
      obtain ⟨hstep, hrst⟩ := hsteps j hj
      obtain ⟨h1, h2⟩ := step_pulse hp hstep hrst (by omega)
      exact ⟨stepKeepsInvariants _ _ hi hstep, stepKeepsPulsesApart _ _ hi hp hstep, by omega,
        fun hlt => (h2 (by omega)).trans (hmask (by omega))⟩
  exact fun j hj => (halong j hj).2.2

/-! ### The two pulse sources -/

/-- An engine pulse is out on channel `p`. -/
def enginePulse (s : State) (p : Nat) : Prop := 0 < s.pt.toNat ∧ s.pmask.getLsbD p = true

theorem pulseActive_iff (s : State) (p : Nat) : pulseActive s p = true ↔ enginePulse s p ∨ babystepPulse s p = true := by
  simp [pulseActive, enginePulse]

/-- R151's window, in numbers. -/
theorem babystepPulse_iff (s : State) (p : Nat) :
    babystepPulse s p = true ↔ s.bs.busy = true ∧ s.bs.ch.toNat = p
      ∧ (if s.bs.flip = true then s.cfgDirSetup.toNat + 1 else 1) ≤ s.bs.k.toNat
      ∧ s.bs.k.toNat ≤ (if s.bs.flip = true then s.cfgDirSetup.toNat + 1 else 1) + s.cfgPulseWidth.toNat - 1 := by
  simp [babystepPulse, and_assoc]

theorem no_pulse_in_reset (s : State) (p : Nat) : pulseActive (advanceHost (resetCycle s)) p = false := rfl

/-- An engine pulse after a cycle without a step event that emits was out before it. -/
theorem CycleOf.enginePulse {s t : State} {e : Bool} {clear : BitVec 5} {w : Work} {p : Nat} (h : CycleOf s t e clear w)
    (hno : ¬(s.estopNow = false ∧ s.eng = .run ∧ s.cd = 1#32)) (ht : enginePulse t p) : enginePulse s p := by
  have hk := h.effect.kept
  have hpt : t.pt = (afterEngine s e).st.pt := by rw [h.next]; show w.st.pt = _; rw [hk.pt, beforeBus_st]
  have hmask : t.pmask = (afterEngine s e).st.pmask := by rw [h.next]; show w.st.pmask = _; rw [hk.pmask, beforeBus_st]
  have hcounts : (afterEngine s e).st.pt = (counting s).pt ∧ (afterEngine s e).st.pmask = (counting s).pmask := by
    rcases h.engine.pulse with hp | ⟨hrun, hcd, _⟩
    · exact hp
    · have hengine := h.engine
      cases hestop : s.estopNow with
      | false => exact absurd ⟨hestop, hrun, hcd⟩ hno
      | true =>
        rw [hestop] at hengine
        generalize afterEngine s e = v at hengine
        cases hengine
        exact ⟨rfl, rfl⟩
  obtain ⟨hpos, hbit⟩ := ht
  rw [hpt, hcounts.1, counting_pt_toNat] at hpos
  rw [hmask, hcounts.2, (counting_pulse s).2.1, if_neg (by omega)] at hbit
  exact ⟨by omega, hbit⟩

/-- The sequencer over a cycle: a sequence of before, one position on and not to be aborted, or one begun in the cycle. -/
theorem CycleOf.sequence {s t : State} {e : Bool} {clear : BitVec 5} {w : Work} (hs : Inv s) (h : CycleOf s t e clear w)
    (hbusy : t.bs.busy = true) :
    (s.bs.busy = true ∧ t.bs = { s.bs with k := s.bs.k + 1#18 } ∧ t.bs.k.toNat = s.bs.k.toNat + 1
        ∧ t.cfgDirSetup = s.cfgDirSetup ∧ t.cfgPulseWidth = s.cfgPulseWidth ∧ t.cfgDirInv = s.cfgDirInv
        ∧ ((beforeBus s e).st.eng = .halted → s.eng ≠ .halted → s.babystepNotPulsed = false))
    ∨ (s.bs.busy = false ∧ s.pt = 0#16 ∧ s.estopNow = false ∧ (beforeBus s e).st.eng ≠ .halted) := by
  have hk := h.effect.kept
  have hbs : t.bs = (babystepStart s (s.sample.estopIn || e) (afterEngine s e).st).bs := by rw [h.next]; exact hk.bs
  have hestop : s.estopNow = (s.sample.estopIn || e) := by rw [State.estopNow, h.estop]
  rw [hbs] at hbusy
  rcases babystepStart_cases s (s.sample.estopIn || e) (afterEngine s e).st with hn | ⟨a, _, hne, he, hb, hpt, _⟩
  · left
    rw [hn] at hbs hbusy
    obtain ⟨hb, hrec, hpos, habort⟩ := h.engine.running_sequence hs hbusy
    have hlocked := h.effect.lockedKept (unlocked_of_not fun h => absurd hb (by simp [h.2.2]))
    have hhost := beforeBus_hostSide s e
    refine ⟨hb, hbs.trans hrec, by rw [hbs]; exact hpos, ?_, ?_, ?_, by rw [beforeBus_eng]; exact habort⟩
    all_goals rw [h.next]
    · exact hlocked.cfgDirSetup.trans hhost.cfgDirSetup
    · exact hlocked.cfgPulseWidth.trans hhost.cfgPulseWidth
    · exact hlocked.cfgDirInv.trans hhost.cfgDirInv
  · exact .inr ⟨hb, hpt, hestop.trans he, by rw [beforeBus_eng]; exact hne⟩

/-- Settles O54: no step event and no start in such a cycle, and a sequence that is not aborted was already in its pulse. -/
theorem emergencyStopBound : Obligations.EmergencyStopBound := by
  intro s t p hs hp hstep hhow ht
  cases hrst : s.sample.rst with
  | true =>
    rcases step_effect hstep with ⟨_, rfl⟩ | ⟨hr, _⟩
    · rw [no_pulse_in_reset] at ht; exact absurd ht nofun
    · exact absurd hr (by simp [hrst])
  | false =>
    obtain ⟨e, clear, w, hcycle⟩ := step_onBus hstep hrst
    have hhalted : (beforeBus s e).st.eng = .halted := by
      rw [beforeBus_eng]
      rcases hhow with he | hh
      · have hengine := hcycle.engine
        rw [he] at hengine
        generalize afterEngine s e = v at hengine
        cases hengine; rfl
      · exact hcycle.engine.of_halted hh
    rw [pulseActive_iff] at ht ⊢
    rcases ht with ht | ht
    · refine .inl (hcycle.enginePulse (fun hno => ?_) ht)
      rcases hhow with he | hh
      · exact absurd he (by simp [hno.1])
      · exact absurd hno.2.1 (by simp [hh])
    · right
      obtain ⟨hb, hch, hlo, hhi⟩ := (babystepPulse_iff t p).1 ht
      rcases hcycle.sequence hs hb with ⟨hb', hrec, hk, hds, hpw, _, habort⟩ | ⟨_, _, _, hne⟩
      · have hflip : t.bs.flip = s.bs.flip := by rw [hrec]
        have hch' : t.bs.ch = s.bs.ch := by rw [hrec]
        rw [hk, hflip, hds] at hlo
        rw [hk, hflip, hds, hpw] at hhi
        refine (babystepPulse_iff s p).2 ⟨hb', hch' ▸ hch, ?_, by omega⟩
        by_cases hf : s.bs.flip = true
        · rw [if_pos hf]
          by_cases hh : s.eng = .halted
          · exact hp.begun hh hb' hf
          · have hnot := habort hhalted hh
            simp only [State.babystepNotPulsed, hb', hf, Bool.true_and, decide_eq_false_iff_not] at hnot
            omega
        · rw [if_neg hf]; exact (hs.sequence hb').1
      · exact absurd hhalted hne

/-! ### The direction of a pulsing channel -/

/-- A claim that changes no direction leaves the latches as they are (R110, R120). -/
theorem latchDirections_unchanged {p : Params} {m : Memory} {sl : Nat} {d : ChannelMask}
    (h : changesDirection p (decodeBlock p m sl) d = false) : latchDirections p (decodeBlock p m sl) d = d := by
  apply BitVec.eq_of_getLsbD_eq
  intro c _
  by_cases hc : ∃ a : Axis, a.val < p.A ∧ (decodeBlock p m sl).moves a = true ∧ channelOf p a.val (decodeBlock p m sl).ext = c
  · obtain ⟨a, ha, hm, rfl⟩ := hc
    rw [latchDirections_moving p m sl d a ha hm]
    have hall := List.any_eq_false.1 h a ((mem_axes p a).2 ha)
    simp only [hm, Bool.true_and, bne_iff_ne, ne_eq, not_not] at hall
    exact hall.symm
  · exact latchDirections_still p _ d c fun a ha hm he => hc ⟨a, ha, hm, he⟩

/-- Where the latches change, a claim has changed them, with no pulse out and no sequence running. -/
theorem EngineEffect.latch_change {S : State} {e : Bool} {w : Work} (h : EngineEffect S e w) (hne : w.st.dirLat ≠ S.dirLat) :
    ∃ i w₀, LoadBase S i w₀ ∧ e = false ∧ S.bs.busy = false ∧ S.pt = 0#16 ∧ depth S.params i S.tail ≠ 0
      ∧ validate S.params (S.blockAt i) = 0 ∧ changesDirection S.params (S.blockAt i) S.dirLat = true
      ∧ w = Machine.claim S (S.blockAt i) true w₀ := by
  rcases h.latches with ⟨hd, _⟩ | ⟨i, w₀, hbase, he, hbusy, hdepth, hvalid, hpulse, hw⟩
  · exact absurd hd hne
  · cases hchg : changesDirection S.params (S.blockAt i) S.dirLat with
    | false =>
      refine absurd ?_ hne
      rw [hw, claim_dirLat, hbase.engineSide.dirLat]
      exact latchDirections_unchanged hchg
    | true => exact ⟨i, w₀, hbase, he, hbusy, (hpulse hchg).1, hdepth, hvalid, hchg, hchg ▸ hw⟩

theorem CycleOf.dirLat {s t : State} {e : Bool} {clear : BitVec 5} {w : Work} (h : CycleOf s t e clear w) :
    t.dirLat = (afterEngine s e).st.dirLat := by
  rw [h.next]
  exact h.effect.kept.dirLat.trans (by rw [beforeBus_st])

/-- While a pulse or a sequence is out the latches stay. -/
theorem CycleOf.dirLat_kept {s t : State} {e : Bool} {clear : BitVec 5} {w : Work} (h : CycleOf s t e clear w)
    (hout : s.pt ≠ 0#16 ∨ s.bs.busy = true) : t.dirLat = s.dirLat := by
  rw [h.dirLat]
  by_contra hne
  obtain ⟨_, _, _, _, hbusy, hpt, _⟩ := h.engine.latch_change hne
  rcases hout with h1 | h1
  · exact h1 hpt
  · exact absurd h1 (by simp [hbusy])

theorem dirOut_eq (s : State) (p : Nat) (h : directionOverride s p = false) : dirOut s p = (s.dirLat.getLsbD p ^^ s.cfgDirInv.getLsbD p) := by
  rw [dirOut, h]; rfl

/-- In the window of its pulse a flip sequence drives its own direction. -/
theorem directionOverride_of_pulse {s : State} {p : Nat} (h : babystepPulse s p = true) : directionOverride s p = s.bs.flip := by
  obtain ⟨hb, hch, hlo, hhi⟩ := (babystepPulse_iff s p).1 h
  cases hf : s.bs.flip with
  | false => simp [directionOverride, hf]
  | true =>
    rw [hf, if_pos rfl] at hlo hhi
    simp only [directionOverride, hb, hch, hf, decide_true, Bool.true_and, decide_eq_true_eq]
    omega

/-- Settles O55: an engine pulse and a babystep pulse each last past the step only as themselves, with the latches and the override kept. -/
theorem directionStableDuringPulse : Obligations.DirectionStableDuringPulse := by
  intro s t p hs hp hstep hbefore hafter
  cases hrst : s.sample.rst with
  | true =>
    rcases step_effect hstep with ⟨_, rfl⟩ | ⟨hr, _⟩
    · rw [no_pulse_in_reset] at hafter; exact absurd hafter nofun
    · exact absurd hr (by simp [hrst])
  | false =>
    obtain ⟨e, clear, w, hcycle⟩ := step_onBus hstep hrst
    rw [pulseActive_iff] at hbefore hafter
    rcases hbefore with ⟨hpos, _⟩ | hbaby
    · have hpt : s.pt ≠ 0#16 := fun h => by rw [h] at hpos; exact absurd hpos (by decide)
      have hbusy : s.bs.busy = false := by
        by_contra hb
        exact hpt (hp.apart (by simpa using hb))
      have hbusy' : t.bs.busy = false := by
        by_contra hb
        rcases hcycle.sequence hs (by simpa using hb) with ⟨hb', _⟩ | ⟨_, h0, _⟩
        · exact absurd hb' (by simp [hbusy])
        · exact hpt h0
      have hlocked := hcycle.effect.lockedKept (unlocked_of_not fun h => hpt h.2.1)
      have hinv : t.cfgDirInv = s.cfgDirInv := by
        rw [hcycle.next]; exact hlocked.cfgDirInv.trans (beforeBus_hostSide s e).cfgDirInv
      rw [dirOut_eq t p (by simp [directionOverride, hbusy']), dirOut_eq s p (by simp [directionOverride, hbusy]),
        hcycle.dirLat_kept (.inl hpt), hinv]
    · obtain ⟨hb, _⟩ := (babystepPulse_iff s p).1 hbaby
      have hafter' : babystepPulse t p = true := by
        refine hafter.resolve_left fun ht => ?_
        have hpulse := hcycle.enginePulse (fun hno => ?_) ht
        · rw [enginePulse, hp.apart hb] at hpulse; exact absurd hpulse.1 (by decide)
        · exact absurd hb (by simp [no_sequence_at_event hs hp hno.2.1 hno.2.2])
      obtain ⟨hb', _⟩ := (babystepPulse_iff t p).1 hafter'
      rcases hcycle.sequence hs hb' with ⟨_, hrec, _, _, _, hinv, _⟩ | ⟨hfree, _⟩
      · rw [dirOut, dirOut, directionOverride_of_pulse hafter', directionOverride_of_pulse hbaby, hcycle.dirLat_kept (.inr hb), hinv, hrec]
      · exact absurd hb (by simp [hfree])

end Sys2Proof.Machine

/-! Proof of O56 and O58 to O60: each is read off the outcomes of the engine stage and the effect of the access on the bus. -/

namespace Sys2Proof.Machine

/-! ### The direction latches -/

/-- A cycle whose engine stage claims loads the claimed block (R118 to R121). -/
theorem idleCycle_of_claim {s : State} {i : QueueIndex} {w₀ : Work} {chg : Bool} (hrst : s.sample.rst = false) (hbase : LoadBase s i w₀)
    (hchg : changesDirection s.params (s.blockAt i) s.dirLat = chg) (hclaim : afterEngine s false = claim s (s.blockAt i) chg w₀) :
    ClaimedBy s (s.blockAt i) (idleCycle s) ∧ (idleCycle s).head = i := by
  have hsettle : w₀.st.settle.toNat = s.settle.toNat - 1 := by
    have hlt := s.settle.isLt
    rw [hbase.counts.settle, (counting_pulse s).2.2, BitVec.toNat_ofNat]; omega
  obtain ⟨hdir, hext, _⟩ := hbase.engineSide
  have hload : ClaimedBy s (s.blockAt i) (claim s (s.blockAt i) chg w₀).st := hchg ▸ claim_claimedBy hdir hext hsettle
  have hst : (beforeBus s false).st
      = { (claim s (s.blockAt i) chg w₀).st with bs := (beforeBus s false).st.bs, bsPending := (beforeBus s false).st.bsPending } := by
    rw [beforeBus_st, hclaim]
  rw [idleCycle_of_no_reset hrst, irqUpdate_of_no_clear, hst]
  exact ⟨claimedBy_rest hload _ _ _, hbase.head.1⟩

/-- Settles O56: where the latches change, the engine of the cycle claims, and the bus keeps what the claim has latched. -/
theorem directionLatchesChangeAtClaims : Obligations.DirectionLatchesChangeAtClaims := by
  intro s t hstep hrst hne
  obtain ⟨e, clear, w, hcycle⟩ := step_onBus hstep hrst
  have hdir := hcycle.dirLat
  have hindex : t.stepIndex = (afterEngine s e).st.stepIndex := by
    rw [hcycle.next]; exact hcycle.effect.kept.stepIndex.trans (by rw [beforeBus_st])
  obtain ⟨i, w₀, hbase, hestop, hbusy, hpt, hdepth, hvalid, hchg, hclaim⟩ := hcycle.engine.latch_change (hdir ▸ hne)
  have he : e = false := by
    rw [State.estopNow, ← hcycle.estop, Bool.or_eq_false_iff] at hestop
    exact hestop.2
  rw [hclaim] at hdir hindex
  rw [claim_dirLat, hbase.engineSide.dirLat] at hdir
  obtain ⟨hload, hhead⟩ := idleCycle_of_claim hrst hbase hchg (he ▸ hclaim)
  refine ⟨hestop, hbusy, hpt, hindex, i, ?_, hdepth, hvalid, hchg, hload, hhead, hdir⟩
  cases hbase with
  | idle hidle => exact .inl ⟨hidle, rfl⟩
  | homing hrun hcd => exact .inr ⟨hrun, hcd, rfl⟩
  | complete hrun hcd => exact .inr ⟨hrun, hcd, rfl⟩

/-! ### The queue indices -/

theorem depth_eq_emod (p : Params) (h t : QueueIndex) : (depth p h t : Int) = ((t.toNat : Int) - h.toNat) % (2 * p.N) := by
  have hh := h.isLt
  have ht := t.isLt
  simp only [depth, BitVec.toNat_sub]
  rcases capacity_cases p with e | e | e | e | e | e <;> simp only [e] <;> omega

theorem slotOffset_eq_emod (p : Params) (h : QueueIndex) (sl : Nat) :
    (slotOffset p sl h : Int) = ((sl : Int) - h.toNat) % p.N := by
  have hh := h.isLt
  simp only [slotOffset, BitVec.toNat_sub, BitVec.toNat_ofNat]
  rcases capacity_cases p with e | e | e | e | e | e <;> simp only [e] at * <;> omega

theorem nextIndex_toNat (p : Params) (h : QueueIndex) : (nextIndex p h).toNat = (h.toNat + 1) % (2 * p.N) := by
  simp only [nextIndex, BitVec.toNat_ofNat]
  rcases capacity_cases p with e | e | e | e | e | e <;> simp only [e] <;> omega

theorem queued_iff (s : State) (sl : Nat) :
    s.queued sl = true ↔ ((sl : Int) - s.head.toNat) % s.params.N < s.depth := by
  rw [State.queued, decide_eq_true_eq, ← slotOffset_eq_emod, Int.ofNat_lt]

/-- An access keeps the head, or flushes the queue. -/
theorem BusEffect.head {S : State} {w w' : Work} (h : BusEffect S w w') : w'.st.head = w.st.head ∨ w'.st.head = S.tail := by
  rcases h.control with hk | ⟨_, _, hh⟩ | ⟨_, _, hh⟩ | ⟨_, _, hh, _⟩ | ⟨_, _, _, hh⟩
  · exact .inl hk.head
  · exact .inr hh
  · exact .inr hh
  · exact .inl hh
  · exact .inl hh

/-- An access keeps the tail, or advances it past the slot it has filled. -/
theorem BusEffect.tail {S : State} {w w' : Work} (h : BusEffect S w w') :
    w'.st.tail = w.st.tail ∨ w'.st.tail = nextIndex S.params S.tail := by
  cases h with
  | locked r v => exact .inl (storeLocked_control v w.st r).2.1
  | push => exact .inr rfl
  | _ => exact .inl rfl

/-- Settles O58: the index arithmetic, and the moves of the engine stage and of the bus. -/
theorem queueIndicesMoveInOrder : Obligations.QueueIndicesMoveInOrder := by
  refine ⟨fun p h t => ⟨depth_eq_emod p h t, rfl, nextIndex_toNat p h⟩, fun s sl _ => ⟨rfl, queued_iff s sl, ?_⟩,
    fun s t hstep hrst => ?_⟩
  · rw [State.busySlot, Bool.and_eq_true, decide_eq_true_eq, decide_eq_true_eq]; rfl
  obtain ⟨e, clear, w, hcycle⟩ := step_onBus hstep hrst
  have hhead : (beforeBus s e).st.head = (afterEngine s e).st.head := by rw [beforeBus_st]
  have htail : (beforeBus s e).st.tail = s.tail := (beforeBus_hostSide s e).tail
  rw [hcycle.next]
  show (w.st.head = _ ∨ (w.st.head = _ ∧ _) ∨ w.st.head = _) ∧ (w.st.tail = _ ∨ (_ ∧ w.st.tail = _))
  constructor
  · rcases hcycle.effect.head with hh | hh <;> rw [hh]
    · rw [hhead]; exact hcycle.engine.head_moves
    · exact .inr (.inr rfl)
  · by_cases hpush : s.onBus = some .push
    · rcases hcycle.effect.tail with ht | ht <;> rw [ht]
      · exact .inl htail
      · exact .inr ⟨hpush, rfl⟩
    · exact .inl (hcycle.tail hpush)

/-! ### HALTED -/

/-- While HALTED the engine stage keeps the fault, the counts and the latches, and raises nothing (R231). -/
theorem EngineEffect.halted_kept {S : State} {e : Bool} {w : Work} (hhalt : S.eng = .halted) (h : EngineEffect S e w) :
    w.st.fault = S.fault ∧ w.st.stepIndex = S.stepIndex ∧ w.st.errTerm = S.errTerm ∧ w.st.dirLat = S.dirLat ∧ w.st.extSel = S.extSel
      ∧ w.ev = 0#5 := by
  have hkeep := counting_engineSide S
  cases h with
  | estop => exact ⟨(if_pos hhalt).trans hkeep.fault, hkeep.stepIndex, hkeep.errTerm, hkeep.dirLat, hkeep.extSel, if_pos hhalt⟩
  | rest => exact ⟨hkeep.fault, hkeep.stepIndex, hkeep.errTerm, hkeep.dirLat, hkeep.extSel, rfl⟩
  | wait hbase => exact absurd hhalt hbase.not_halted
  | bad hbase => exact absurd hhalt hbase.not_halted
  | claim hbase => exact absurd hhalt hbase.not_halted
  | count hrun => simp [hhalt] at hrun
  | fault hrun => simp [hhalt] at hrun
  | finish hrun => simp [hhalt] at hrun
  | schedule hrun => simp [hhalt] at hrun

theorem noFault_word : FaultRecord.word { cause := .none, check := 0#4, slot := 0#6, axes := 0#16 } = 0#32 := by decide

/-- An access to a HALTED machine raises no event, and leaves it HALTED or clears the fault. -/
theorem BusEffect.halted {S : State} {w w' : Work} (h : BusEffect S w w') (hhalt : w.st.eng = .halted) :
    w'.ev = w.ev ∧ ((w'.st.eng = .halted ∧ w'.st.fault = w.st.fault)
      ∨ (S.sample.estopIn = false ∧ w'.st.eng = .idle ∧ w'.st.fault.word = 0#32)) := by
  cases h with
  | locked r v =>
    have hc := (storeLocked_control v w.st r).1
    exact ⟨rfl, .inl ⟨hc.eng.trans hhalt, hc.fault⟩⟩
  | flush _ hidle => exact absurd hidle (by simp [hhalt])
  | finish _ _ hrun => exact absurd hrun (by simp [hhalt])
  | stop _ _ hrun => exact absurd hrun (by simp [hhalt])
  | clearHalt _ _ hpin => exact ⟨rfl, .inr ⟨hpin, rfl, noFault_word⟩⟩
  | _ => exact ⟨rfl, .inl ⟨hhalt, rfl⟩⟩

/-- Settles O59: the control state of a HALTED machine is written by CLEAR_HALT alone. -/
theorem haltedUntilClearHalt : Obligations.HaltedUntilClearHalt := by
  intro s t hstep hrst hhalt
  obtain ⟨e, clear, w, hcycle⟩ := step_onBus hstep hrst
  have hk := hcycle.effect.kept
  have hbefore : (beforeBus s e).st.eng = .halted := beforeBus_halted hhalt e
  obtain ⟨hfault, hindex, herr, hdir, hext, hev⟩ := hcycle.engine.halted_kept hhalt
  have hfault' : (beforeBus s e).st.fault = s.fault := by rw [beforeBus_st]; exact hfault
  obtain ⟨hev', hbus⟩ := hcycle.effect.halted hbefore
  have hnone : w.ev = 0#5 := hev'.trans hev
  rw [hcycle.next]
  refine ⟨?_, fun hbit => ?_, ?_, ?_, ?_, ?_⟩
  · show (w.st.eng = _ ∧ w.st.fault = _) ∨ (_ ∧ _ ∧ w.st.eng = _ ∧ w.st.fault.word = _)
    rcases hbus with ⟨h1, h2⟩ | ⟨h1, h2, h3⟩
    · exact .inl ⟨h1, h2.trans hfault'⟩
    · refine .inr ⟨?_, h1, h2, h3⟩
      by_contra hclear
      have hc := hcycle.control (fun _ => hbefore) fun h => absurd h hclear
      exact absurd ((hc.eng.trans hbefore).symm.trans h2) (by decide)
  · rw [advanceHost_irqStatus, irqUpdate_irqStatus, hnone, BitVec.getLsbD_or, Bool.or_eq_true] at hbit
    rcases hbit with hbit | hbit
    · rw [BitVec.getLsbD_and, Bool.and_eq_true] at hbit
      exact hbit.1
    · split at hbit <;> exact absurd hbit (by decide)
  · exact (hk.stepIndex.trans (by rw [beforeBus_st])).trans hindex
  · exact (hk.errTerm.trans (by rw [beforeBus_st])).trans herr
  · exact (hk.dirLat.trans (by rw [beforeBus_st])).trans hdir
  · exact (hk.extSel.trans (by rw [beforeBus_st])).trans hext

/-! ### The lock -/

/-- Settles O60: the stages before the bus never write these registers, and no access does while locked. -/
theorem lockProtectsConfiguration : Obligations.LockProtectsConfiguration := by
  intro s t hstep hrst hlock
  obtain ⟨e, clear, w, hcycle⟩ := step_onBus hstep hrst
  rw [← unlocked_iff, Bool.not_eq_true] at hlock
  have hc := hcycle.effect.lockedKept hlock
  have hh := beforeBus_hostSide s e
  rw [hcycle.next]
  exact ⟨hc.cfgStepInv.trans hh.cfgStepInv, hc.cfgDirInv.trans hh.cfgDirInv, hc.cfgEsEn.trans hh.cfgEsEn, hc.cfgEsDir.trans hh.cfgEsDir,
    hc.cfgEsInv.trans hh.cfgEsInv, hc.cfgPulseWidth.trans hh.cfgPulseWidth, hc.cfgDirSetup.trans hh.cfgDirSetup,
    hc.cfgMinInterval.trans hh.cfgMinInterval, hc.cfgMinRate.trans hh.cfgMinRate, hc.home.trans hh.home⟩

end Sys2Proof.Machine

/-! Proof of O10 to O12. The register map is one equation per range of addresses; its rows and its holes are read off them. -/

namespace Sys2Proof.Machine

/-- Settles O10: the laws of a word write. -/
theorem wordsAreLittleEndian : Obligations.WordsAreLittleEndian := by
  refine fun m a v => ⟨readWord_writeWord_same m a v, fun k hk => ?_, byteAt_writeWord_of_outside m a v⟩
  rw [byteAt_writeWord]
  obtain rfl | rfl | rfl | rfl : k = 0 ∨ k = 1 ∨ k = 2 ∨ k = 3 := by omega
  all_goals simp

/-! ### The map, range by range (R65) -/

section
variable {p : Params} {x : Addr}

theorem regAt_misaligned (h : x.toNat % 4 ≠ 0) : regAt p x = none := if_pos h

theorem regAt_low (h : x.toNat % 4 = 0) (hhi : x.toNat < 0x080) : regAt p x = fixedRegs.lookup x.toNat := by
  rw [regAt]
  rw [if_neg (not_not.2 h), if_pos hhi]

theorem regAt_pos (h : x.toNat % 4 = 0) (hlo : 0x080 ≤ x.toNat) (hhi : x.toNat < 0x0C0) : regAt p x = axisReg p 0x080 x.toNat .pos := by
  rw [regAt]
  rw [if_neg (not_not.2 h), if_neg (by omega), if_pos hhi]

theorem regAt_homeOffset (h : x.toNat % 4 = 0) (hlo : 0x0C0 ≤ x.toNat) (hhi : x.toNat < 0x100) :
    regAt p x = axisReg p 0x0C0 x.toNat .homeOffset := by
  rw [regAt]
  rw [if_neg (not_not.2 h), if_neg (by omega), if_neg (by omega), if_pos hhi]

theorem regAt_bsPending (h : x.toNat % 4 = 0) (hlo : 0x100 ≤ x.toNat) (hhi : x.toNat < 0x140) :
    regAt p x = axisReg p 0x100 x.toNat .bsPending := by
  rw [regAt]
  rw [if_neg (not_not.2 h), if_neg (by omega), if_neg (by omega), if_neg (by omega), if_pos hhi]

theorem regAt_bsCount (h : x.toNat % 4 = 0) (hlo : 0x140 ≤ x.toNat) (hhi : x.toNat < 0x180) :
    regAt p x = axisReg p 0x140 x.toNat .bsCount := by
  rw [regAt]
  rw [if_neg (not_not.2 h), if_neg (by omega), if_neg (by omega), if_neg (by omega), if_neg (by omega), if_pos hhi]

theorem regAt_errTerm (h : x.toNat % 4 = 0) (hlo : 0x180 ≤ x.toNat) (hhi : x.toNat < 0x1C0) :
    regAt p x = axisReg p 0x180 x.toNat .errTerm := by
  rw [regAt]
  rw [if_neg (not_not.2 h), if_neg (by omega), if_neg (by omega), if_neg (by omega), if_neg (by omega), if_neg (by omega), if_pos hhi]

theorem regAt_high (h : x.toNat % 4 = 0) (hlo : 0x1C0 ≤ x.toNat) : regAt p x =
    if x.toNat < 0x800 then fixedRegs.lookup x.toNat
    else if x.toNat < 0x880 then some (.stage (Fin.ofNat 32 ((x.toNat - 0x800) / 4)))
    else if x.toNat < 0x1000 then none
    else if (x.toNat - 0x1000) / 0x80 < p.N then
      some (.slot (Fin.ofNat 64 ((x.toNat - 0x1000) / 0x80)) (Fin.ofNat 32 ((x.toNat - 0x1000) % 0x80 / 4)))
    else none := by
  rw [regAt]
  rw [if_neg (not_not.2 h), if_neg (by omega), if_neg (by omega), if_neg (by omega), if_neg (by omega), if_neg (by omega), if_neg (by omega)]

end

theorem axisReg_of_lt {p : Params} (base : Nat) (mk : Axis → Reg) {a : Axis} (ha : a.val < p.A) :
    axisReg p base (base + 4 * a.val) mk = some (mk a) := by
  have hindex : (base + 4 * a.val - base) / 4 = a.val := by omega
  rw [axisReg, hindex, if_pos ha, Fin.ofNat_val_eq_self]

theorem axisReg_of_ge {p : Params} (base : Nat) (mk : Axis → Reg) {a : Nat} (ha : p.A ≤ a) : axisReg p base (base + 4 * a) mk = none := by
  have hindex : (base + 4 * a - base) / 4 = a := by omega
  rw [axisReg, hindex, if_neg (by omega)]

theorem addr_toNat {n : Nat} (h : n < 16384) : (BitVec.ofNat 14 n).toNat = n := by rw [BitVec.toNat_ofNat]; exact Nat.mod_eq_of_lt h

/-- The five axis ranges at one row: what stands there is what `axisReg` answers. -/
theorem regAt_axisRows (p : Params) {a : Nat} (ha : a < 16) :
    regAt p (BitVec.ofNat 14 (0x080 + 4 * a)) = axisReg p 0x080 (0x080 + 4 * a) .pos
    ∧ regAt p (BitVec.ofNat 14 (0x0C0 + 4 * a)) = axisReg p 0x0C0 (0x0C0 + 4 * a) .homeOffset
    ∧ regAt p (BitVec.ofNat 14 (0x100 + 4 * a)) = axisReg p 0x100 (0x100 + 4 * a) .bsPending
    ∧ regAt p (BitVec.ofNat 14 (0x140 + 4 * a)) = axisReg p 0x140 (0x140 + 4 * a) .bsCount
    ∧ regAt p (BitVec.ofNat 14 (0x180 + 4 * a)) = axisReg p 0x180 (0x180 + 4 * a) .errTerm := by
  refine ⟨?_, ?_, ?_, ?_, ?_⟩
  · have h := addr_toNat (n := 0x080 + 4 * a) (by omega)
    rw [regAt_pos (by omega) (by omega) (by omega), h]
  · have h := addr_toNat (n := 0x0C0 + 4 * a) (by omega)
    rw [regAt_homeOffset (by omega) (by omega) (by omega), h]
  · have h := addr_toNat (n := 0x100 + 4 * a) (by omega)
    rw [regAt_bsPending (by omega) (by omega) (by omega), h]
  · have h := addr_toNat (n := 0x140 + 4 * a) (by omega)
    rw [regAt_bsCount (by omega) (by omega) (by omega), h]
  · have h := addr_toNat (n := 0x180 + 4 * a) (by omega)
    rw [regAt_errTerm (by omega) (by omega) (by omega), h]

theorem regAt_slot (p : Params) (sl : Fin 64) (w : Fin 32) (hs : sl.val < p.N) :
    regAt p (BitVec.ofNat 14 (0x1000 + 0x80 * sl.val + 4 * w.val)) = some (.slot sl w) := by
  have hw := w.isLt
  have hsl := sl.isLt
  have h := addr_toNat (n := 0x1000 + 0x80 * sl.val + 4 * w.val) (by omega)
  have hslot : (0x1000 + 0x80 * sl.val + 4 * w.val - 0x1000) / 0x80 = sl.val := by omega
  have hword : (0x1000 + 0x80 * sl.val + 4 * w.val - 0x1000) % 0x80 / 4 = w.val := by omega
  rw [regAt_high (by omega) (by omega), h, if_neg (by omega), if_neg (by omega), if_neg (by omega), hslot, hword, if_pos hs,
    Fin.ofNat_val_eq_self, Fin.ofNat_val_eq_self]

/-- Settles O11: the fixed rows evaluate, the indexed ones are the equations above. -/
theorem registerMap : Obligations.RegisterMap := by
  intro p
  refine ⟨⟨rfl, rfl, rfl, rfl, rfl, rfl, rfl, rfl, rfl, rfl, rfl, rfl, rfl, rfl, rfl, rfl, rfl, rfl, rfl, rfl, rfl, rfl, rfl, rfl, rfl, rfl,
    rfl, rfl, rfl, rfl, rfl, rfl, rfl, rfl⟩, fun a ha => ?_, regAt_stage p, regAt_slot p⟩
  obtain ⟨h1, h2, h3, h4, h5⟩ := regAt_axisRows p a.isLt
  exact ⟨h1.trans (axisReg_of_lt _ _ ha), h2.trans (axisReg_of_lt _ _ ha), h3.trans (axisReg_of_lt _ _ ha), h4.trans (axisReg_of_lt _ _ ha),
    h5.trans (axisReg_of_lt _ _ ha)⟩

/-- No register stands at a fixed address from 0x1CC on. -/
theorem fixedRegs_lookup_none {a : Nat} (h : 0x1CC ≤ a) : fixedRegs.lookup a = none := by
  have hlt : ∀ c ∈ fixedRegs, c.1 < 0x1CC := by decide
  rw [List.lookup_eq_none_iff]
  intro c hc
  have := hlt c hc
  simp only [bne_iff_ne]
  omega

/-- Settles O12: the holes range by range, the classes register by register. -/
theorem holesAndAccessClasses : Obligations.HolesAndAccessClasses := by
  refine ⟨fun p x hx => ?_, fun p a hA ha => ?_, fun r => ?_, fun r => ?_, fun r => ?_, fun r => ?_⟩
  · by_cases h : x.toNat % 4 = 0
    · rcases hx with hx | hx | ⟨hlo, hhi⟩ | ⟨hlo, hhi⟩ | hlo
      · exact absurd h hx
      · rw [regAt_low h (by omega), hx]; rfl
      · rw [regAt_high h (by omega), if_pos hhi, fixedRegs_lookup_none hlo]
      · rw [regAt_high h (by omega), if_neg (by omega), if_neg (by omega), if_pos hhi]
      · have hN : ¬(x.toNat - 0x1000) / 0x80 < p.N := by omega
        rw [regAt_high h (by omega), if_neg (by omega), if_neg (by omega), if_neg (by omega), if_neg hN]
    · exact regAt_misaligned h
  · obtain ⟨h1, h2, h3, h4, h5⟩ := regAt_axisRows p ha
    exact ⟨h1.trans (axisReg_of_ge _ _ hA), h2.trans (axisReg_of_ge _ _ hA), h3.trans (axisReg_of_ge _ _ hA), h4.trans (axisReg_of_ge _ _ hA),
      h5.trans (axisReg_of_ge _ _ hA)⟩
  all_goals cases r <;> simp [Reg.accessClass]

end Sys2Proof.Machine

/-! Proof of O13, O14 and O17 to O19: reads, bus errors, refused writes and the stores of an unlocked machine, each against the same cycle
without the access. -/

namespace Sys2Proof.Machine

/-! ### Reads and bus errors -/

/-- An ERR bit is seen in ERR alone. -/
theorem irqUpdate_flagError (S : State) (clear : BitVec 5) (e : BitVec 3) (w : Work) :
    irqUpdate S clear (flagError e w) = { irqUpdate S clear w with errFlags := w.st.errFlags ||| e } := rfl

/-- A cycle whose bus stage only sets an ERR bit (R160, R232). -/
theorem irqUpdate_of_flagError {s : State} (hr : s.sample.rst = false) (e : BitVec 3) :
    irqUpdate s 0#5 (flagError e (beforeBus s false)) = { idleCycle s with errFlags := s.errFlags ||| e } := by
  rw [irqUpdate_flagError, idleCycle_of_no_reset hr, (beforeBus_hostSide s false).errFlags]

theorem exec_of_flagError {s : State} {i : Instr} {e : BitVec 3} (hr : s.sample.rst = false) (he : isEstop i = false)
    (hc : clears s i = 0#5) (hbus : busStage s i (beforeBus s false) = flagError e (beforeBus s false)) :
    exec i s = .next { idleCycle s with errFlags := s.errFlags ||| e } := by
  rw [exec_of_busStage hr he hc hbus, irqUpdate_of_flagError hr]

theorem decode_error_iff (r : BusRequest) : (r.size ≠ 2#2 ∨ r.addr.extractLsb' 0 2 ≠ 0#2) ↔ ∃ e, decode r = .error e := by
  constructor
  · rintro (hsize | haddr)
    · exact ⟨_, if_pos hsize⟩
    · have haligned : alignedAddr r.addr = false := by simpa [alignedAddr] using haddr
      by_cases hsize : r.size ≠ 2#2
      · exact ⟨_, if_pos hsize⟩
      · exact ⟨_, (if_neg hsize).trans (if_pos haligned)⟩
  · rintro ⟨e, he⟩
    by_contra hlegal
    simp only [not_or, not_not] at hlegal
    obtain ⟨hsize, haddr⟩ := hlegal
    have haligned : ¬alignedAddr r.addr = false := by simp [alignedAddr, haddr]
    rw [decode, if_neg (not_not.2 hsize), if_neg haligned] at he
    split at he
    · exact absurd he nofun
    · split at he
      · split at he <;> exact absurd he nofun
      · exact absurd he nofun

/-- No register of R65 stands at an unmapped address, CMD and IRQ_STATUS neither. -/
theorem access_of_unmapped {s : State} {x : Addr} (hreg : regAt s.params x = none) (v : Word) :
    isEstop (.wr x v) = false ∧ clears s (.wr x v) = 0#5 := by
  have hcmd : x ≠ cmdAddr := by rintro rfl; exact absurd ((regAt_cmdAddr _).symm.trans hreg) nofun
  have hirq : regAt s.params x ≠ some .irqStatus := by rw [hreg]; exact nofun
  exact ⟨by simp [isEstop, isEstopWrite, hcmd], if_neg hirq⟩

/-- Settles O13: an illegal access and one to a hole only set ERR.BUS; without an access nothing is read. -/
theorem busErrorsOnlyRecord : Obligations.BusErrorsOnlyRecord := by
  refine ⟨fun s hr => ?illegal, fun s x v hr hreg => ⟨?read, ?write⟩, fun s hr => ?noData, decode_error_iff⟩
  case illegal =>
    rw [illegalAccessCycle, cycleWith, hr]
    exact irqUpdate_of_flagError hr errBus
  case read => exact exec_of_flagError (i := .rd x) hr rfl rfl (by simp only [busStage, busRead, hreg, errBus])
  case write =>
    obtain ⟨he, hc⟩ := access_of_unmapped hreg v
    exact exec_of_flagError hr he hc (by simp only [busStage, busWrite, hreg, errBus])
  case noData => rw [idleCycle_of_no_reset hr]; exact (beforeBus_hostSide s false).busRdata

/-- Settles O14: the read data is the one field a read writes. -/
theorem readReturnsRegister : Obligations.ReadReturnsRegister := by
  intro s x r hr hreg
  have hbus : busStage s (.rd x) (beforeBus s false)
      = { beforeBus s false with st := { (beforeBus s false).st with busRdata := readReg s s.sample.estopIn r } } := by
    simp only [busStage, busRead, hreg]
  rw [exec_of_busStage (i := .rd x) hr rfl rfl hbus, idleCycle_of_no_reset hr]
  rfl

/-! ### Refused writes -/

/-- Settles O17: both refusals are ERR bits. -/
theorem refusedWritesOnlyRecord : Obligations.RefusedWritesOnlyRecord := by
  intro s x v r hr hreg
  refine ⟨fun hclass => ?readOnly, fun hclass hlock => ?locked⟩
  all_goals
    have hcmd : r ≠ .cmd := by rintro rfl; exact absurd hclass nofun
    have hirq : r ≠ .irqStatus := by rintro rfl; exact absurd hclass nofun
  case readOnly =>
    exact exec_of_flagError hr (isEstopWrite_of_reg hreg hcmd v) (irqClear_of_reg hreg hirq v)
      (by simp only [busStage, busWrite, hreg, hclass, errRoWrite])
  case locked =>
    have hlocked : s.unlocked = false := by rwa [← unlocked_iff, Bool.not_eq_true] at hlock
    refine exec_of_flagError hr (isEstopWrite_of_reg hreg hcmd v) (irqClear_of_reg hreg hirq v) ?_
    have hbus : busWrite s x v (beforeBus s false) = storeReg s v r (beforeBus s false) :=
      busWrite_of_storing hreg (by simp [hclass]) (by simp [hclass]) _
    rw [busStage, hbus]
    unfold storeReg
    split
    · exact absurd hclass nofun
    · exact absurd hclass nofun
    · exact absurd hclass nofun
    · rw [if_pos hclass, hlocked]; rfl

/-! ### Stores while unlocked -/

/-- The registers of a store are none of the interrupt stage's. -/
theorem irqUpdate_storeLocked (S : State) (clear : BitVec 5) (v : Word) (r : Reg) (w : Work) :
    irqUpdate S clear { w with st := storeLocked v w.st r } = storeLocked v (irqUpdate S clear w) r := by
  cases r <;> rfl

/-- A write of a locked register while unlocked is its store in the state of the cycle without the access (R169, R170). -/
theorem exec_wr_unlocked {s : State} {x : Addr} {r : Reg} (hr : s.sample.rst = false) (hu : UnlockedState s)
    (hreg : regAt s.params x = some r) (hclass : r.accessClass = .rwLocked) (v : Word) :
    exec (.wr x v) s = .next (storeLocked v (idleCycle s) r) := by
  have hirq : r ≠ .irqStatus := by rintro rfl; exact absurd hclass nofun
  rw [exec_wr_of_storing hr hreg (by simp [hclass]) (by simp [hclass]), irqClear_of_reg hreg hirq, idleCycle_of_no_reset hr,
    ← irqUpdate_storeLocked]
  congr 2
  unfold storeReg
  split
  · exact absurd hclass nofun
  · exact absurd hclass nofun
  · exact absurd hclass nofun
  · rw [if_pos hclass, if_pos ((unlocked_iff s).2 hu)]

theorem idleCycle_params {s : State} (hr : s.sample.rst = false) : (idleCycle s).params = s.params := by
  rw [idleCycle_of_no_reset hr]; exact (beforeBus_hostSide s false).params

theorem ofNat_max_one {n : Nat} (x : BitVec n) : BitVec.ofNat n (max x.toNat 1) = if x = 0#n then 1#n else x := by
  split
  · rename_i h; subst h; simp
  · rename_i h
    have hpos : 1 ≤ x.toNat := Nat.pos_of_ne_zero fun h0 => h (BitVec.eq_of_toNat_eq (by simpa using h0))
    rw [max_eq_left hpos, BitVec.ofNat_toNat, BitVec.setWidth_eq]

/-- Settles O18: the WARL value of each register (R169) in the words of the statement. -/
theorem configurationWritesStore : Obligations.ConfigurationWritesStore := by
  intro s v hr hu
  have hchannels : channelBits (idleCycle s).params = BitVec.ofNat 23 (2 ^ channels s.params - 1) := by rw [idleCycle_params hr]; rfl
  have haxes : axisBits (idleCycle s).params = BitVec.ofNat 16 (2 ^ s.params.A - 1) := by rw [idleCycle_params hr]; rfl
  have hwidth : (if v.setWidth 16 = 0#16 then 1#16 else v.setWidth 16) = BitVec.ofNat 16 (max (v.toNat % 2 ^ 16) 1) := by
    rw [← ofNat_max_one, BitVec.toNat_setWidth]
  have hsetup : v.setWidth 16 = BitVec.ofNat 16 (v.toNat % 2 ^ 16) := by apply BitVec.eq_of_toNat_eq; simp
  have hstore : ∀ {x : Addr} {r : Reg}, regAt s.params x = some r → r.accessClass = .rwLocked →
      exec (.wr x v) s = .next (storeLocked v (idleCycle s) r) := fun hreg hclass => exec_wr_unlocked hr hu hreg hclass v
  refine ⟨(hstore (r := .cfgStepInv) rfl rfl).trans ?_, (hstore (r := .cfgDirInv) rfl rfl).trans ?_, (hstore (r := .cfgEsEn) rfl rfl).trans ?_,
    (hstore (r := .cfgEsDir) rfl rfl).trans ?_, (hstore (r := .cfgEsInv) rfl rfl).trans ?_, (hstore (r := .cfgPulseWidth) rfl rfl).trans ?_,
    (hstore (r := .cfgDirSetup) rfl rfl).trans ?_, hstore (r := .cfgMinInterval) rfl rfl, (hstore (r := .cfgMinRate) rfl rfl).trans ?_⟩
  · exact congrArg (fun m => Host.Outcome.next { idleCycle s with cfgStepInv := v.setWidth 23 &&& m }) hchannels
  · exact congrArg (fun m => Host.Outcome.next { idleCycle s with cfgDirInv := v.setWidth 23 &&& m }) hchannels
  · exact congrArg (fun m => Host.Outcome.next { idleCycle s with cfgEsEn := v.setWidth 16 &&& m }) haxes
  · exact congrArg (fun m => Host.Outcome.next { idleCycle s with cfgEsDir := v.setWidth 16 &&& m }) haxes
  · exact congrArg (fun m => Host.Outcome.next { idleCycle s with cfgEsInv := v.setWidth 16 &&& m }) haxes
  · exact congrArg (fun m => Host.Outcome.next { idleCycle s with cfgPulseWidth := m }) hwidth
  · exact congrArg (fun m => Host.Outcome.next { idleCycle s with cfgDirSetup := m }) hsetup
  · exact congrArg (fun m => Host.Outcome.next { idleCycle s with cfgMinRate := m }) (ofNat_max_one v).symm

/-- The engine writes positions in step events alone. -/
theorem EngineEffect.pos_of_not_run {S : State} {e : Bool} {w : Work} (hrun : S.eng ≠ .run) (h : EngineEffect S e w) :
    w.st.pos = S.pos := by
  have hkeep := counting_engineSide S
  have hload : ∀ (i : QueueIndex) (w₀ : Work), LoadBase S i w₀ → w₀.st.pos = S.pos := by
    intro i w₀ hbase
    cases hbase with
    | idle => exact hkeep.pos
    | homing hr => exact absurd hr hrun
    | complete hr => exact absurd hr hrun
  cases h with
  | estop => exact hkeep.pos
  | count hr => exact absurd hr hrun
  | rest => exact hkeep.pos
  | wait hbase => exact hload _ _ hbase
  | bad hbase => exact (hload _ _ hbase :)
  | claim hbase => exact (hload _ _ hbase :)
  | fault hr => exact absurd hr hrun
  | finish hr => exact absurd hr hrun
  | schedule hr => exact absurd hr hrun

/-- Settles O19: an unlocked machine moves no axis, so the stored position stands beside the others as they were. -/
theorem positionWritesStore : Obligations.PositionWritesStore := by
  intro s v a hr hu ha
  have hrun : s.eng ≠ .run := (unlocked_facts ((unlocked_iff s).2 hu)).1
  have hpos : (idleCycle s).pos = s.pos := by
    rw [idleCycle_of_no_reset hr, irqUpdate_pos, beforeBus_st]
    exact (afterEngine_effect s false).pos_of_not_run hrun
  have hhome : (idleCycle s).home = s.home := by
    rw [idleCycle_of_no_reset hr]; exact (beforeBus_hostSide s false).home
  obtain ⟨h1, h2, _⟩ := regAt_axisRows s.params a.isLt
  refine ⟨(exec_wr_unlocked hr hu (h1.trans (axisReg_of_lt _ _ ha)) rfl v).trans ?_,
    (exec_wr_unlocked hr hu (h2.trans (axisReg_of_lt _ _ ha)) rfl v).trans ?_⟩
  · rw [storeLocked, hpos]
  · rw [storeLocked, hhome]

end Sys2Proof.Machine

/-! Proof of O24, O26, O28 and O29: the remaining commands, each by its outcomes over the state the stages before the bus have made. -/

namespace Sys2Proof.Machine

/-! ### The engine stage of each state, where no emergency stop acts -/

theorem engineEvents_eq (s : State) : s.engineEvents = (afterEngine s false).ev := rfl

theorem afterEngine_of_no_estop {s : State} (he : s.sample.estopIn = false) :
    afterEngine s false = engine s s.sample.endstopIn (counted s) := by
  rw [afterEngine, he]; exact if_neg Bool.false_ne_true

theorem afterEngine_of_halted {s : State} (he : s.sample.estopIn = false) (h : s.eng = .halted) : afterEngine s false = counted s := by
  rw [afterEngine_of_no_estop he, engine, h]

theorem afterEngine_of_idle {s : State} (he : s.sample.estopIn = false) (h : s.eng = .idle) :
    afterEngine s false = loadAttempt s s.head (counted s) := by
  rw [afterEngine_of_no_estop he, engine, h]

theorem afterEngine_of_count {s : State} (he : s.sample.estopIn = false) (h : s.eng = .run) (hcd : s.cd ≠ 1#32) :
    afterEngine s false = { counted s with st := { counting s with cd := s.cd - 1#32 } } := by
  rw [afterEngine_of_no_estop he, engine, h]
  exact if_neg hcd

theorem afterEngine_of_event {s : State} (he : s.sample.estopIn = false) (h : s.eng = .run) (hcd : s.cd = 1#32) :
    afterEngine s false = stepEvent s s.sample.endstopIn (counted s) :=
  (afterEngine_of_no_estop he).trans (engine_of_step_due _ _ h hcd)

/-! ### PUSH -/

theorem commandPush_of_halted {S : State} {w : Work} (h : w.st.eng = .halted) : commandPush S w = answer 0x01#8 .halted w := if_pos h

theorem commandPush_of_stopping {S : State} {w : Work} (heng : w.st.eng ≠ .halted) (h : w.st.stopping = true) :
    commandPush S w = answer 0x01#8 .stopping w := (if_neg heng).trans (if_pos h)

theorem commandPush_of_full {S : State} {w : Work} (heng : w.st.eng ≠ .halted) (hstop : w.st.stopping = false) (h : S.depth = S.params.N) :
    commandPush S w = answer 0x01#8 .full w := by
  rw [commandPush, if_neg heng, if_neg (by simp [hstop])]
  exact if_pos h

theorem commandPush_of_room {S : State} {w : Work} (hmem : w.st.mem = S.mem) (heng : w.st.eng ≠ .halted) (hstop : w.st.stopping = false)
    (h : S.depth ≠ S.params.N) :
    commandPush S w = answer 0x01#8 .accepted { w with st := { w.st with
      mem := Memory.writeWords S.mem (slotAddr (slotOf S.params S.tail) 0) (pushImage S.params S.mem)
      tail := nextIndex S.params S.tail } } := by
  rw [commandPush, if_neg heng, if_neg (by simp [hstop]), hmem]
  exact if_neg h

theorem axisBits_setWidth (p : Params) : (axisBits p).setWidth 32 = BitVec.ofNat 32 (2 ^ p.A - 1) := by
  have hbound : 2 ^ p.A ≤ 2 ^ 16 := Nat.pow_le_pow_right (by decide) (axisCount_le p)
  apply BitVec.eq_of_toNat_eq
  simp only [axisBits, BitVec.toNat_setWidth, BitVec.toNat_ofNat]
  omega

/-- R171's stored words: the masks written out. -/
theorem pushWord_eq (p : Params) (m : Memory) (w : Nat) :
    pushWord p m w =
      if w = 0 then Memory.stage m 0 &&& (BitVec.ofNat 32 (2 ^ p.A - 1) ||| 0x0B7F0000#32)
      else if w < 10 then Memory.stage m w
      else if 16 ≤ w ∧ w < 16 + p.A then Memory.stage m w &&& 0x7FFFFFFF#32
      else 0#32 := by
  have hkeep : keepMask p = BitVec.ofNat 32 (2 ^ p.A - 1) ||| 0x0B7F0000#32 := by
    rw [keepMask, axisBits_setWidth, BitVec.or_assoc, BitVec.or_assoc, BitVec.or_assoc, BitVec.or_assoc]
    rfl
  rw [pushWord, hkeep]
  by_cases hflags : w = 0
  · rw [if_pos hflags, if_pos hflags]
  by_cases hparameter : w < 10
  · rw [if_neg hflags, if_neg hflags, if_pos hparameter, if_pos hparameter]
  rw [if_neg hflags, if_neg hflags, if_neg hparameter, if_neg hparameter]
  by_cases hreserved : w < 16
  · rw [if_pos hreserved, if_neg (by omega)]
  · have hstep : (w - 16 < p.A) = (16 ≤ w ∧ w < 16 + p.A) := propext (by omega)
    simp only [hstep, if_neg hreserved]

/-- Settles O24: R171's outcomes, then the words and bytes of the slot that is written. -/
theorem pushAppendsStagedBlock : Obligations.PushAppendsStagedBlock := by
  intro s hr
  have hmem : (beforeBus s false).st.mem = s.mem := (beforeBus_hostSide s false).mem
  have hexec : ∀ w, commandPush s (beforeBus s false) = w → exec .push s = .next (irqUpdate s 0#5 w) :=
    fun _ => exec_of_busStage (i := .push) hr rfl rfl
  have hevents : s.engineEvents = (beforeBus s false).ev := rfl
  rw [idleCycle_of_no_reset hr, hevents]
  generalize beforeBus s false = w at hmem hexec ⊢
  refine ⟨fun hhalt => ?halted, fun heng hstop => ?stopping, fun heng hstop hfull => ?full, fun heng hstop hroom => ?room,
    fun i hi => (slot_push _ _ _ _ _ hi).trans (pushWord_eq _ _ _),
    fun x hx => byteAt_push_of_outside _ _ _ _ _ (by unfold slotAddr; omega)⟩
  case halted => exact hexec _ (commandPush_of_halted hhalt)
  case stopping => exact hexec _ (commandPush_of_stopping heng hstop)
  case full => exact hexec _ (commandPush_of_full heng hstop hfull)
  case room => exact (hexec _ (commandPush_of_room hmem heng hstop hroom)).trans (congrArg _ (irqUpdate_of_no_clear s _))

/-! ### BABYSTEP -/

section
variable {S : State} {w : Work} {axis : BitVec 4} {forward : Bool}

theorem commandBabystep_of_badArg (h : S.params.A ≤ axis.toNat) : commandBabystep S axis forward w = answer 0x05#8 .badArg w := if_pos h

theorem commandBabystep_of_halted (haxis : axis.toNat < S.params.A) (h : w.st.eng = .halted) :
    commandBabystep S axis forward w = answer 0x05#8 .halted w := (if_neg haxis.not_ge).trans (if_pos h)

theorem commandBabystep_of_saturated (haxis : axis.toNat < S.params.A) (heng : w.st.eng ≠ .halted)
    (h : w.st.bsPending[axis.toFin].toInt + (if forward then 1 else -1) < -32768
      ∨ 32767 < w.st.bsPending[axis.toFin].toInt + (if forward then 1 else -1)) :
    commandBabystep S axis forward w = answer 0x05#8 .saturated w :=
  (if_neg haxis.not_ge).trans ((if_neg heng).trans (if_pos h))

theorem commandBabystep_of_counted (haxis : axis.toNat < S.params.A) (heng : w.st.eng ≠ .halted)
    (h : ¬(w.st.bsPending[axis.toFin].toInt + (if forward then 1 else -1) < -32768
      ∨ 32767 < w.st.bsPending[axis.toFin].toInt + (if forward then 1 else -1))) :
    commandBabystep S axis forward w = answer 0x05#8 .accepted { w with st := { w.st with
      bsPending := w.st.bsPending.set axis.toFin
        (BitVec.ofInt 16 (w.st.bsPending[axis.toFin].toInt + (if forward then 1 else -1))) } } :=
  (if_neg haxis.not_ge).trans ((if_neg heng).trans (if_neg h))

end

/-- Settles O28: R176's outcomes; a count within 16 bits is stored as it is. -/
theorem babystepCountsRequest : Obligations.BabystepCountsRequest := by
  intro s axis forward hr
  have hexec : ∀ w, commandBabystep s axis forward (beforeBus s false) = w → exec (.babystep axis forward) s = .next (irqUpdate s 0#5 w) :=
    fun _ => exec_of_busStage (i := .babystep axis forward) hr rfl rfl
  have hevents : s.engineEvents = (beforeBus s false).ev := rfl
  rw [idleCycle_of_no_reset hr, hevents]
  generalize beforeBus s false = w at hexec ⊢
  refine ⟨fun hbad => ?badArg, fun haxis hhalt => ?halted, fun haxis heng hout => ?saturated, fun haxis heng hlo hhi => ⟨?counted, ?value⟩⟩
  case badArg => exact hexec _ (commandBabystep_of_badArg hbad)
  case halted => exact hexec _ (commandBabystep_of_halted haxis hhalt)
  case saturated => exact hexec _ (commandBabystep_of_saturated haxis heng hout)
  case counted =>
    exact (hexec _ (commandBabystep_of_counted haxis heng (by rw [not_or]; exact ⟨not_lt.2 hlo, not_lt.2 hhi⟩))).trans
      (congrArg _ (irqUpdate_of_no_clear s _))
  case value =>
    refine (congrArg BitVec.toInt (Vector.getElem_set_self _)).trans ?_
    rw [BitVec.toInt_ofInt]
    exact Int.bmod_eq_of_le (by norm_num; exact hlo) (by norm_num; exact Int.lt_of_le_sub_one hhi)

/-! ### CLEAR_HALT -/

/-- Settles O29: R177's outcomes; a HALTED machine raises no event before the bus. -/
theorem clearHaltReturnsToIdle : Obligations.ClearHaltReturnsToIdle := by
  intro s hr
  have hexec : ∀ w, commandClearHalt s (beforeBus s false) = w → exec .clearHalt s = .next (irqUpdate s 0#5 w) :=
    fun _ => exec_of_busStage (i := .clearHalt) hr rfl rfl
  refine ⟨fun hpin => ?pin, fun hpin heng => ?notHalted, fun hpin heng => ?back⟩
  case pin => exact exec_of_answer (i := .clearHalt) hr rfl rfl (if_pos hpin)
  case notHalted =>
    exact exec_of_answer (i := .clearHalt) hr rfl rfl ((if_neg (by simp [hpin])).trans (if_pos heng))
  case back =>
    have hquiet : s.engineEvents = 0#5 := by rw [engineEvents_eq, afterEngine_of_halted hpin heng]; rfl
    have hleave : commandClearHalt s (beforeBus s false) = answer 0x06#8 .accepted (leaveHalt (beforeBus s false)) :=
      (if_neg (by simp [hpin])).trans (if_neg (not_not.2 heng))
    have hev : (answer 0x06#8 .accepted (leaveHalt (beforeBus s false))).ev = 0#5 := hquiet
    rw [hexec _ hleave, irqUpdate_of_no_clear, hev, BitVec.or_zero, idleCycle_of_no_reset hr]
    rfl

/-! ### ESTOP -/

theorem beforeBus_of_estop {s : State} {e : Bool} (h : (s.sample.estopIn || e) = true) : beforeBus s e = estopHalt s (counted s) := by
  rw [beforeBus_eq, afterEngine, if_pos h]
  exact congrArg (fun n => { estopHalt s (counted s) with st := n }) (babystepStart_halted s _ (n := (estopHalt s (counted s)).st) rfl)

/-- A HALTED state raises no IDLE event. -/
theorem idleEvent_of_not_idle {s t : State} (h : t.eng ≠ .idle) : idleEvent s t = 0#5 :=
  idleEvent_of_not_becomes_idle fun hidle => h hidle.1.1

/-- The cycle of an emergency stop, before the bus stage's answer: R200 over the counting stage. -/
theorem irqUpdate_of_estop (s : State) :
    irqUpdate s 0#5 (estopHalt s (counted s)) = { counting s with
      eng := .halted, head := s.tail, cd := 0#32, rate := 0#32, rem := 0#32, interval := 0#32, stopping := false, phase := .none
      homed := 0#16
      fault := if s.eng = .halted then s.fault
        else { cause := if s.sample.estopIn then .estopPin else .estopCmd, check := 0#4, slot := 0#6, axes := 0#16 }
      bsPending := PerAxis.update s.params s.bsPending (fun _ => 0#16)
      bs := if s.babystepNotPulsed then { (counting s).bs with busy := false } else (counting s).bs
      irqStatus := if s.eng = .halted then s.irqStatus else s.irqStatus ||| 0b00001#5 } := by
  have hkeep := counting_engineSide s
  rw [irqUpdate_of_no_clear, idleEvent_of_not_idle (t := (estopHalt s (counted s)).st) nofun, estopHalt, halt, counted]
  simp only [hkeep.fault, hkeep.bsPending, BitVec.or_zero]
  split <;> simp [evHalt]

theorem babystepNotPulsed_iff (s : State) :
    s.babystepNotPulsed = true ↔ s.bs.busy = true ∧ s.bs.flip = true ∧ s.bs.k.toNat ≤ s.cfgDirSetup.toNat := by
  simp [State.babystepNotPulsed, and_assoc]

/-- Settles O26: by the command or by the pin, the stages before the bus end in the emergency halt. -/
theorem estopHalts : Obligations.EstopHalts := by
  intro s hr aborted halted
  have hkeep := counting_engineSide s
  have hhost := counting_hostSide s
  refine ⟨?command, fun hpin => ?pin, hkeep.pos, hkeep.stepIndex, hkeep.errTerm, hkeep.dirLat, hkeep.extSel, hhost.tail, hhost.mem,
    hhost.home⟩
  case command =>
    rw [exec_eq_cycle, cycleWith, hr, if_neg Bool.false_ne_true]
    show Host.Outcome.next (irqUpdate s 0#5 (answer 0x03#8 .accepted (beforeBus s true))) = _
    rw [beforeBus_of_estop (Bool.or_true _), irqUpdate_answer, irqUpdate_of_estop]
    simp only [halted, aborted, ← babystepNotPulsed_iff]
  case pin =>
    rw [idleCycle_of_no_reset hr, beforeBus_of_estop (by rw [hpin]; rfl), irqUpdate_of_estop, hpin, ← hhost.cmdres]
    simp only [halted, aborted, ← babystepNotPulsed_iff, if_true]

end Sys2Proof.Machine

/-! Proof of O30 to O33: the cycles of an engine that only counts, waits, claims its head block, or halts on it. -/

namespace Sys2Proof.Machine

/-! ### A cycle without an access -/

/-- A cycle without an access is what the engine leaves, with the sequencer's start and the interrupt stage over it. -/
theorem idleCycle_eq {s : State} (hr : s.sample.rst = false) :
    idleCycle s = { (afterEngine s false).st with
      bs := (idleCycle s).bs
      bsPending := (idleCycle s).bsPending
      irqStatus := s.irqStatus ||| s.engineEvents ||| idleEvent s (idleCycle s) } := by
  have hcycle : idleCycle s = { (beforeBus s false).st with
      irqStatus := s.irqStatus ||| s.engineEvents ||| idleEvent s (idleCycle s) } := by
    rw [idleCycle_of_no_reset hr, irqUpdate_of_no_clear]; rfl
  have hstart := beforeBus_st s false
  generalize (beforeBus s false).st = n at hcycle hstart
  have hbs : (idleCycle s).bs = n.bs := (congrArg State.bs hcycle :)
  have hpending : (idleCycle s).bsPending = n.bsPending := (congrArg State.bsPending hcycle :)
  refine hcycle.trans ?_
  rw [hbs, hpending]
  exact congrArg (fun m : State => { m with irqStatus := s.irqStatus ||| s.engineEvents ||| idleEvent s (idleCycle s) }) hstart

/-- The counting stage in one record (R101). -/
theorem counting_eq (s : State) :
    counting s = { s with
      busRdata := 0#32
      pins := s.pins.tail
      cycle := s.cycle + 1
      pt := BitVec.ofNat 16 (s.pt.toNat - 1)
      pmask := if s.pt.toNat ≤ 1 then 0#23 else s.pmask
      settle := BitVec.ofNat 16 (s.settle.toNat - 1)
      bs := (counting s).bs
      bsCount := (counting s).bsCount } := by
  have hlast : (s.pt.toNat - 1 = 0) = (s.pt.toNat ≤ 1) := propext Nat.sub_eq_zero_iff_le
  unfold counting bsAdvance State.begin
  simp only [hlast]
  split
  · split <;> rfl
  · rfl

/-- A cycle whose engine stage leaves the counted state but for the countdown raises no event but IDLE. -/
theorem idleCycle_of_counted {s : State} (hr : s.sample.rst = false) {cd : BitVec 32}
    (hengine : afterEngine s false = { counted s with st := { counting s with cd := cd } }) :
    idleCycle s = { s with
      busRdata := 0#32
      pins := s.pins.tail
      cycle := s.cycle + 1
      cd := cd
      pt := BitVec.ofNat 16 (s.pt.toNat - 1)
      pmask := if s.pt.toNat ≤ 1 then 0#23 else s.pmask
      settle := BitVec.ofNat 16 (s.settle.toNat - 1)
      bs := (idleCycle s).bs
      bsPending := (idleCycle s).bsPending
      bsCount := (idleCycle s).bsCount
      irqStatus := s.irqStatus ||| idleEvent s (idleCycle s) } := by
  have hquiet : s.engineEvents = 0#5 := by rw [engineEvents_eq, hengine]; rfl
  have hcycle := idleCycle_eq hr
  rw [hengine, hquiet, BitVec.or_zero] at hcycle
  have hcount : (idleCycle s).bsCount = (counting s).bsCount := (congrArg State.bsCount hcycle :)
  refine hcycle.trans ?_
  rw [hcount]
  simp only
  rw [counting_eq]

/-! ### The load attempt by its conditions (R110, R111) -/

section
variable {S : State} {h : QueueIndex} {w : Work}

theorem loadAttempt_of_busy (hbusy : S.bs.busy = true) : loadAttempt S h w = w := if_pos hbusy

theorem loadAttempt_of_empty (hempty : depth S.params h S.tail = 0) : loadAttempt S h w = w := by
  rcases loadAttempt_cases S h w with ⟨e, _⟩ | ⟨_, hdepth, _⟩ | ⟨_, hdepth, _⟩
  · exact e
  · exact absurd hempty hdepth
  · exact absurd hempty hdepth

/-- A valid block that changes a direction waits for the pulse. -/
theorem loadAttempt_of_pulse (hvalid : validate S.params (S.blockAt h) = 0)
    (hchg : changesDirection S.params (S.blockAt h) w.st.dirLat = true) (hpulse : S.pt ≠ 0#16 ∨ w.st.pt ≠ 0#16) : loadAttempt S h w = w := by
  rcases loadAttempt_cases S h w with ⟨e, _⟩ | ⟨_, _, hbad, _⟩ | ⟨_, _, _, hclear, _⟩
  · exact e
  · exact absurd hvalid hbad
  · obtain ⟨hS, hw⟩ := hclear hchg
    exact absurd hpulse (by simp [hS, hw])

theorem loadAttempt_of_bad (hbusy : S.bs.busy = false) (hdepth : depth S.params h S.tail ≠ 0)
    (hbad : validate S.params (S.blockAt h) ≠ 0) :
    loadAttempt S h w = halt S .badBlock (validate S.params (S.blockAt h)) (slotOf S.params h) 0#16 w := by
  rcases loadAttempt_cases S h w with ⟨_, hb | hd | ⟨hv, _⟩⟩ | ⟨_, _, _, e⟩ | ⟨_, _, hv, _⟩
  · exact absurd hb (by simp [hbusy])
  · exact absurd hd hdepth
  · exact absurd hv hbad
  · exact e
  · exact absurd hv hbad

theorem loadAttempt_of_claim (hbusy : S.bs.busy = false) (hdepth : depth S.params h S.tail ≠ 0)
    (hvalid : validate S.params (S.blockAt h) = 0)
    (hpulse : changesDirection S.params (S.blockAt h) w.st.dirLat = true → S.pt = 0#16 ∧ w.st.pt = 0#16) :
    loadAttempt S h w = claim S (S.blockAt h) (changesDirection S.params (S.blockAt h) w.st.dirLat) w := by
  rcases loadAttempt_cases S h w with ⟨_, hb | hd | ⟨_, hchg, hp⟩⟩ | ⟨_, _, hbad, _⟩ | ⟨_, _, _, _, e⟩
  · exact absurd hb (by simp [hbusy])
  · exact absurd hd hdepth
  · obtain ⟨hS, hw⟩ := hpulse hchg
    exact absurd hp (by simp [hS, hw])
  · exact absurd hvalid hbad
  · exact e

end

/-! ### Counting and waiting -/

theorem counted_eq_of_cd {s : State} : counted s = { counted s with st := { counting s with cd := s.cd } } := by
  rw [← (counting_engineSide s).cd]; rfl

/-- Settles O30: in each of the three states the engine leaves the counted state but for the countdown of a busy block. -/
theorem engineBetweenEvents : Obligations.EngineBetweenEvents := by
  intro s hr he hcases
  refine idleCycle_of_counted hr ?_
  rcases hcases with ⟨hrun, hcd⟩ | ⟨hidle, hempty⟩ | hhalt
  · rw [if_pos hrun]; exact afterEngine_of_count he hrun hcd
  · rw [if_neg (by simp [hidle]), ← counted_eq_of_cd, afterEngine_of_idle he hidle]
    exact loadAttempt_of_empty hempty
  · rw [if_neg (by simp [hhalt]), ← counted_eq_of_cd]
    exact afterEngine_of_halted he hhalt

/-- A running sequence and a pulse at the start of the cycle each hold up the babystep start (R216). -/
theorem babystepStart_of_held {S : State} (h : S.bs.busy = true ∨ S.pt ≠ 0#16) (e : Bool) (n : State) : babystepStart S e n = n := by
  rcases babystepStart_cases S e n with hkeep | ⟨_, _, _, _, hbusy, hpt, _⟩
  · exact hkeep
  · exact absurd h (by simp [hbusy, hpt])

/-- The sequencer's registers of a cycle in which no babystep starts. -/
theorem idleCycle_sequencer_of_held {s : State} (hr : s.sample.rst = false) (h : s.bs.busy = true ∨ s.pt ≠ 0#16) :
    (idleCycle s).bs = (afterEngine s false).st.bs ∧ (idleCycle s).bsPending = (afterEngine s false).st.bsPending := by
  rw [idleCycle_of_no_reset hr, beforeBus_eq, babystepStart_of_held h]
  exact ⟨rfl, rfl⟩

/-- Settles O32: in both cases the load attempt waits and no babystep can start. -/
theorem loadWaits : Obligations.LoadWaits := by
  intro s hr he hidle hcases t
  have hkeep := counting_engineSide s
  have hheld : s.bs.busy = true ∨ s.pt ≠ 0#16 := hcases.imp_right fun h => h.2.2
  have hengine : afterEngine s false = counted s := by
    rw [afterEngine_of_idle he hidle]
    rcases hcases with hbusy | ⟨hvalid, hchg, hpt⟩
    · exact loadAttempt_of_busy hbusy
    · exact loadAttempt_of_pulse hvalid ((congrArg (changesDirection s.params s.headBlock) hkeep.dirLat).trans hchg) (.inl hpt)
  obtain ⟨hbs, hpending⟩ := idleCycle_sequencer_of_held hr hheld
  rw [hengine] at hbs hpending
  have hcycle := idleCycle_of_counted hr (hengine.trans counted_eq_of_cd)
  rw [hpending.trans hkeep.bsPending] at hcycle
  have hempty : s.depth ≠ 0 → idleEvent s t = 0#5 := fun hdepth =>
    idleEvent_of_not_becomes_idle fun hbecomes => hdepth (((congrArg State.depth hcycle :).symm).trans hbecomes.1.2.1)
  refine ⟨hcycle, (congrArg State.eng hcycle :).trans hidle, (congrArg State.stopping hcycle :), by rw [engineEvents_eq, hengine]; rfl,
    fun hbusy => ?noSequence, fun hdepth => ?queued⟩
  case noSequence =>
    have hcount : counting s = _ := if_neg (by simp [hbusy])
    exact ⟨hbs.trans (congrArg State.bs hcount :), (congrArg State.bsCount (idleCycle_eq hr) :).trans
      ((congrArg (fun w : Work => w.st.bsCount) hengine :).trans (congrArg State.bsCount hcount :))⟩
  case queued =>
    refine (congrArg State.irqStatus hcycle).trans ?_
    show s.irqStatus ||| idleEvent s t = _
    rw [hempty hdepth, BitVec.or_zero]

/-! ### The claim of the head block -/

/-- With no pulse out, none is out after the counting stage. -/
theorem counting_pt_of_quiet {s : State} (h : s.pt = 0#16) : (counting s).pt = 0#16 :=
  BitVec.eq_of_toNat_eq (by rw [counting_pt_toNat, h]; rfl)

theorem decodeBlock_steps (p : Params) (m : Memory) (sl : Nat) (a : Axis) :
    (decodeBlock p m sl).steps[a] = (Memory.slot m sl (16 + a.val)).toNat % 2 ^ 31 := by
  simp [decodeBlock, BitVec.extractLsb'_toNat]

theorem dominant_eq_steps {p : Params} {b : Block} {a : Axis} (hdom : a.val = b.dom) (ha : a.val < p.A) : b.dominant p = b.steps[a] := by
  have hlt : b.dom < 16 := hdom ▸ a.isLt
  rw [Block.dominant, dif_pos hlt, if_pos (hdom ▸ ha)]
  simp [← hdom]

theorem dominant_eq_zero {p : Params} {b : Block} (h : p.A ≤ b.dom) : b.dominant p = 0 := by
  unfold Block.dominant
  split
  · exact if_neg (by omega)
  · rfl

theorem changesDirection_iff (p : Params) (b : Block) (d : ChannelMask) :
    changesDirection p b d = true
      ↔ ∃ a : Axis, a.val < p.A ∧ b.moves a = true ∧ d.getLsbD (channelOf p a.val b.ext) ≠ b.forward a := by
  simp [changesDirection, mem_axes]

/-- R86 and R83: each field of the block at its word and bits. -/
theorem decodeBlock_fields (p : Params) (m : Memory) (sl : Nat) :
    let w (i : Nat) : Word := Memory.slot m sl i
    let b := decodeBlock p m sl
    (∀ a : Axis, b.dir.getLsbD a.val = (w 0).getLsbD a.val)
    ∧ b.dom = (w 0).toNat / 2 ^ 16 % 2 ^ 4
    ∧ (1 ≤ p.NE → b.ext = (w 0).toNat / 2 ^ 20 % 2 ^ 3) := by
  refine ⟨fun a => ?_, ?_, fun hne => ?_⟩
  · simp [decodeBlock]
  · simp [decodeBlock, BitVec.extractLsb'_toNat, Nat.shiftRight_eq_div_pow]
  · simp [decodeBlock, BitVec.extractLsb'_toNat, Nat.shiftRight_eq_div_pow, hne]

/-- Settles O31: the fields of a descriptor, and the claim as the engine's effect on the idle machine. -/
theorem claimLoadsBlock : Obligations.ClaimLoadsBlock := by
  refine ⟨?fields, fun _ => rfl, ?claim⟩
  case fields =>
    intro p m sl w b
    obtain ⟨hdir, hdom, hext⟩ := decodeBlock_fields p m sl
    exact ⟨fun _ => rfl, hdir, hdom, hext, decodeBlock_ext_zero p m sl, rfl, rfl, rfl, rfl, rfl, rfl, rfl, decodeBlock_steps p m sl,
      fun a hdom ha => (dominant_eq_steps hdom ha).trans (decodeBlock_steps p m sl a), dominant_eq_zero,
      fun a => ⟨decide_eq_true_iff, rfl⟩⟩
  case claim =>
    intro s hr he hidle hbusy hdepth b chg hvalid hpulse t
    have hkeep := counting_engineSide s
    have hclaim : afterEngine s false = claim s b chg (counted s) := by
      rw [afterEngine_of_idle he hidle, loadAttempt_of_claim hbusy hdepth hvalid fun h => ?_]
      · exact congrArg (fun d => claim s b (changesDirection s.params b d) (counted s)) hkeep.dirLat
      · have hs := hpulse ((congrArg (changesDirection s.params b) hkeep.dirLat).symm.trans h)
        exact ⟨hs, counting_pt_of_quiet hs⟩
    obtain ⟨hload, hhead⟩ := idleCycle_of_claim hr (.idle hidle) rfl hclaim
    have hcycle := idleCycle_eq hr
    rw [hclaim] at hcycle
    have htail : t.tail = s.tail := (congrArg State.tail hcycle :).trans (counting_hostSide s).tail
    exact ⟨hload, hhead, htail, (congrArg State.pos hcycle :).trans hkeep.pos, (congrArg State.homed hcycle :).trans hkeep.homed,
      (congrArg State.fault hcycle :).trans hkeep.fault, (congrArg State.stopping hcycle :).trans hkeep.stopping,
      by rw [engineEvents_eq, hclaim]; rfl, changesDirection_iff _ _ _⟩

/-! ### The halt on a bad block -/

/-- R116 as a chain of the six checks. -/
theorem validate_chain (p : Params) (b : Block) :
    validate p b =
      if p.A ≤ b.dom then 1
      else if b.dominant p < 1 then 2
      else if ∃ a : Axis, a.val < p.A ∧ b.dominant p < b.steps[a] then 3
      else if b.da < b.au then 4
      else if b.dominant p < b.da then 5
      else if 1 ≤ p.NE ∧ p.NE ≤ b.ext then 6
      else 0 := by
  have hany : (axes p).any (fun a => decide (b.dominant p < b.steps[a])) = true ↔ ∃ a : Axis, a.val < p.A ∧ b.dominant p < b.steps[a] := by
    simp [mem_axes]
  simp only [validate, hany]

/-- Settles O33: the chain of R116, and the halt as the engine's whole effect. -/
theorem badBlockHalts : Obligations.BadBlockHalts := by
  refine ⟨?checks, fun s hr he hidle hbusy hdepth hbad => ?halts⟩
  case checks =>
    intro p b d c1 c2 c3 c4 c5 c6
    have hchain := validate_chain p b
    refine ⟨fun h1 => ?_, fun h1 h2 => ?_, fun h1 h2 h3 => ?_, fun h1 h2 h3 h4 => ?_, fun h1 h2 h3 h4 h5 => ?_,
      fun h1 h2 h3 h4 h5 h6 => ?_, fun h1 h2 h3 h4 h5 h6 => ?_⟩
    · rw [hchain, if_pos h1]
    · rw [hchain, if_neg h1, if_pos h2]
    · rw [hchain, if_neg h1, if_neg h2, if_pos h3]
    · rw [hchain, if_neg h1, if_neg h2, if_neg h3, if_pos h4]
    · rw [hchain, if_neg h1, if_neg h2, if_neg h3, if_neg h4, if_pos h5]
    · rw [hchain, if_neg h1, if_neg h2, if_neg h3, if_neg h4, if_neg h5, if_pos h6]
    · rw [hchain, if_neg h1, if_neg h2, if_neg h3, if_neg h4, if_neg h5, if_neg h6]
  case halts =>
    have hengine : engine s s.sample.endstopIn (counted s)
        = halt s .badBlock (validate s.params s.headBlock) (slotOf s.params s.head) 0#16 (counted s) := by
      rw [← afterEngine_of_no_estop he, afterEngine_of_idle he hidle]
      exact loadAttempt_of_bad hbusy hdepth hbad
    exact idleCycle_of_engine_halt hr he (by simp [hidle]) hengine

end Sys2Proof.Machine

/-! Proof of O35 to O39: the step event by its outcomes, each over the state the homing abort or the Bresenham step has made. -/

namespace Sys2Proof.Machine

/-! ### The rate updates -/

/-- R140 in its two cases. -/
theorem accelUpdate_cases (S : State) (b : Block) :
    (b.nominal ≤ S.rate.toNat + rateChange S b / S.params.fTimer ∧ accelUpdate S b = (b.nominal, 0))
    ∨ (S.rate.toNat + rateChange S b / S.params.fTimer < b.nominal
      ∧ accelUpdate S b = (S.rate.toNat + rateChange S b / S.params.fTimer, rateChange S b % S.params.fTimer)) := by
  by_cases h : b.nominal ≤ S.rate.toNat + rateChange S b / S.params.fTimer
  · exact .inl ⟨h, if_pos h⟩
  · exact .inr ⟨Nat.lt_of_not_le h, if_neg h⟩

/-- R142 in its two cases. -/
theorem decelUpdate_cases (S : State) (b : Block) (floor : Nat) :
    (S.rate.toNat ≤ min S.rate.toNat floor + rateChange S b / S.params.fTimer
      ∧ decelUpdate S b floor = (min S.rate.toNat floor, 0))
    ∨ (min S.rate.toNat floor + rateChange S b / S.params.fTimer < S.rate.toNat
      ∧ decelUpdate S b floor = (S.rate.toNat - rateChange S b / S.params.fTimer, rateChange S b % S.params.fTimer)) := by
  by_cases h : S.rate.toNat ≤ min S.rate.toNat floor + rateChange S b / S.params.fTimer
  · exact .inl ⟨h, if_pos h⟩
  · exact .inr ⟨Nat.lt_of_not_le h, if_neg h⟩

/-- Settles O39: the quotient and the remainder of the change make up the change, and a clamp is the other case of each update. -/
theorem rateUpdatesAreExact : Obligations.RateUpdatesAreExact := by
  intro s b floor f gain up down
  have hf : 0 < f := timer_pos s.params
  have hsplit : gain / f * f + gain % f = gain := Nat.div_add_mod' gain f
  have hmod : gain % f < f := Nat.mod_lt _ hf
  have hup : (b.nominal ≤ s.rate.toNat + gain / f ∧ up = (b.nominal, 0))
      ∨ (s.rate.toNat + gain / f < b.nominal ∧ up = (s.rate.toNat + gain / f, gain % f)) := accelUpdate_cases s b
  have hdown : (s.rate.toNat ≤ min s.rate.toNat floor + gain / f ∧ down = (min s.rate.toNat floor, 0))
      ∨ (min s.rate.toNat floor + gain / f < s.rate.toNat ∧ down = (s.rate.toNat - gain / f, gain % f)) := decelUpdate_cases s b floor
  have hphase : (s.phase = .accel → rateUpdate s b floor = up) ∧ (s.phase = .cruise → rateUpdate s b floor = cruiseUpdate s)
      ∧ (s.phase = .decel → rateUpdate s b floor = down) :=
    ⟨fun h => by rw [rateUpdate, h], fun h => by rw [rateUpdate, h], fun h => by rw [rateUpdate, h]⟩
  clear_value f gain up down
  have haccel : up.1 ≤ b.nominal ∧ (up.1 < b.nominal → up.1 * f + up.2 = s.rate.toNat * f + gain ∧ up.2 < f)
      ∧ (up.1 = b.nominal → up.2 = 0 ∧ b.nominal * f ≤ s.rate.toNat * f + gain) := by
    rcases hup with ⟨hclamp, rfl⟩ | ⟨hexact, rfl⟩
    · refine ⟨le_rfl, fun h => absurd h (lt_irrefl _), fun _ => ⟨rfl, ?_⟩⟩
      calc b.nominal * f ≤ (s.rate.toNat + gain / f) * f := Nat.mul_le_mul_right f hclamp
        _ = s.rate.toNat * f + gain / f * f := Nat.add_mul ..
        _ ≤ s.rate.toNat * f + gain := Nat.add_le_add_left (Nat.div_mul_le_self gain f) _
    · exact ⟨hexact.le, fun _ => ⟨by simp only [Nat.add_mul]; omega, hmod⟩, fun h => absurd h hexact.ne⟩
  have hdecel : min s.rate.toNat floor ≤ down.1 ∧ down.1 ≤ s.rate.toNat
      ∧ (min s.rate.toNat floor < down.1 → (s.rate.toNat - down.1) * f + down.2 = gain ∧ down.2 < f)
      ∧ (down.1 = min s.rate.toNat floor → down.2 = 0 ∧ s.rate.toNat ≤ min s.rate.toNat floor + gain / f) := by
    rcases hdown with ⟨hclamp, rfl⟩ | ⟨hexact, rfl⟩
    · exact ⟨le_rfl, Nat.min_le_left _ _, fun h => absurd h (lt_irrefl _), fun _ => ⟨rfl, hclamp⟩⟩
    · have hdrop : gain / f ≤ s.rate.toNat := (Nat.le_add_left _ _).trans hexact.le
      have habove : min s.rate.toNat floor < s.rate.toNat - gain / f := Nat.lt_sub_iff_add_lt.2 hexact
      exact ⟨habove.le, Nat.sub_le _ _, fun _ => ⟨by rw [Nat.sub_sub_self hdrop]; exact hsplit, hmod⟩, fun h => absurd h habove.ne'⟩
  obtain ⟨hle, hexact, hclamp⟩ := haccel
  obtain ⟨hlow, hhigh, hdexact, hdclamp⟩ := hdecel
  exact ⟨hle, hexact, hclamp, hlow, hhigh, hdexact, hdclamp, rfl, hphase⟩

/-! ### What follows a step event -/

/-- A load attempt moves nothing and begins no pulse; it clears HOMED only where it halts. -/
theorem loadAttempt_motion (S : State) (h : QueueIndex) (w : Work) :
    (loadAttempt S h w).st.pos = w.st.pos ∧ (loadAttempt S h w).st.pt = w.st.pt ∧ (loadAttempt S h w).st.pmask = w.st.pmask
    ∧ (w.st.eng ≠ .halted → (loadAttempt S h w).st.homed = if (loadAttempt S h w).st.eng = .halted then 0#16 else w.st.homed) := by
  rcases loadAttempt_cases S h w with ⟨e, _⟩ | ⟨_, _, _, e⟩ | ⟨_, _, _, _, e⟩ <;> rw [e]
  · exact ⟨rfl, rfl, rfl, fun heng => (if_neg heng).symm⟩
  · exact ⟨rfl, rfl, rfl, fun _ => rfl⟩
  · exact ⟨rfl, rfl, rfl, fun _ => rfl⟩

theorem complete_motion (S : State) (w : Work) :
    (complete S w).st.pos = w.st.pos ∧ (complete S w).st.pt = w.st.pt ∧ (complete S w).st.pmask = w.st.pmask := by
  rcases complete_cases S w with ⟨_, e⟩ | ⟨_, e⟩ <;> rw [e]
  · exact ⟨rfl, rfl, rfl⟩
  · obtain ⟨hpos, hpt, hpmask, _⟩ := loadAttempt_motion S (nextIndex S.params S.head) (retire S w)
    exact ⟨hpos, hpt, hpmask⟩

/-- Scheduling writes none of what the Bresenham step has written. -/
theorem nextInterval_motion (S : State) (b : Block) (i : Nat) (w : Work) :
    (nextInterval S b i w).st.pos = w.st.pos ∧ (nextInterval S b i w).st.pt = w.st.pt ∧ (nextInterval S b i w).st.pmask = w.st.pmask
    ∧ (nextInterval S b i w).st.errTerm = w.st.errTerm ∧ (nextInterval S b i w).st.stepIndex = w.st.stepIndex := by
  rcases nextInterval_cases S b i w with ⟨_, _, e⟩ | ⟨_, e⟩ <;> rw [e] <;> exact ⟨rfl, rfl, rfl, rfl, rfl⟩

section
variable {s : State}

/-- The engine stage of a step event that is the last of its block. -/
theorem afterEngine_of_last (he : s.sample.estopIn = false) (hrun : s.eng = .run) (hcd : s.cd = 1#32) (htrig : s.triggered = 0#16)
    (hlast : s.stepIndex.toNat + 1 = s.headBlock.dominant s.params) : afterEngine s false = complete s s.emitted := by
  rw [afterEngine_of_event he hrun hcd]
  rcases stepEvent_cases s s.sample.endstopIn (counted s) with ⟨hne, _⟩ | ⟨hne, _⟩ | ⟨_, _, e⟩ | ⟨_, hmore, _⟩
  · exact absurd htrig hne
  · exact absurd htrig hne
  · exact e
  · exact absurd hlast hmore

theorem afterEngine_of_more (he : s.sample.estopIn = false) (hrun : s.eng = .run) (hcd : s.cd = 1#32) (htrig : s.triggered = 0#16)
    (hmore : s.stepIndex.toNat + 1 ≠ s.headBlock.dominant s.params) :
    afterEngine s false = nextInterval s s.headBlock (s.stepIndex.toNat + 1) s.emitted := by
  rw [afterEngine_of_event he hrun hcd]
  rcases stepEvent_cases s s.sample.endstopIn (counted s) with ⟨hne, _⟩ | ⟨hne, _⟩ | ⟨_, hlast, _⟩ | ⟨_, _, e⟩
  · exact absurd htrig hne
  · exact absurd htrig hne
  · exact absurd hlast hmore
  · exact e

theorem afterEngine_of_homing (he : s.sample.estopIn = false) (hrun : s.eng = .run) (hcd : s.cd = 1#32) (htrig : s.triggered ≠ 0#16)
    (hhoming : s.headBlock.homing = true) : afterEngine s false = homingAbort s s.triggered (counted s) := by
  rw [afterEngine_of_event he hrun hcd]
  rcases stepEvent_cases s s.sample.endstopIn (counted s) with ⟨_, _, e⟩ | ⟨_, hno, _⟩ | ⟨hnone, _⟩ | ⟨hnone, _⟩
  · exact e
  · exact absurd hhoming (by simp [hno])
  · exact absurd hnone htrig
  · exact absurd hnone htrig

/-- An event without a trigger leaves the motion of the Bresenham step. -/
theorem afterEngine_motion (he : s.sample.estopIn = false) (hrun : s.eng = .run) (hcd : s.cd = 1#32) (htrig : s.triggered = 0#16) :
    (afterEngine s false).st.pos = s.emitted.st.pos ∧ (afterEngine s false).st.pt = s.emitted.st.pt
      ∧ (afterEngine s false).st.pmask = s.emitted.st.pmask := by
  by_cases hlast : s.stepIndex.toNat + 1 = s.headBlock.dominant s.params
  · rw [afterEngine_of_last he hrun hcd htrig hlast]
    exact complete_motion s s.emitted
  · rw [afterEngine_of_more he hrun hcd htrig hlast]
    obtain ⟨hpos, hpt, hpmask, _⟩ := nextInterval_motion s s.headBlock (s.stepIndex.toNat + 1) s.emitted
    exact ⟨hpos, hpt, hpmask⟩

end

/-! ### The next interval -/

/-- What R145 and R146 set, as numbers. -/
theorem scheduled_toNat {S : State} {b : Block} (i : Nat) (w : Work) (hnominal : b.nominal < 2 ^ 32) (hrem : S.rem.toNat < S.params.fTimer) :
    (scheduled S b i w).st.rate.toNat = (nextRate S b (nextPhase S b i)).1
    ∧ (scheduled S b i w).st.rem.toNat = (nextRate S b (nextPhase S b i)).2
    ∧ (scheduled S b i w).st.interval.toNat = ivl S (nextRate S b (nextPhase S b i)).1
    ∧ (scheduled S b i w).st.cd.toNat = ivl S (nextRate S b (nextPhase S b i)).1 := by
  have hrate := nextRate_lt S b (nextPhase S b i) hnominal
  have hfraction := nextRate_rem_lt S b (nextPhase S b i) hrem
  have htimer := timer_lt S.params
  refine ⟨?_, ?_, ivl_toNat S _, ivl_toNat S _⟩
  · exact (BitVec.toNat_ofNat _ _).trans (Nat.mod_eq_of_lt hrate)
  · exact (BitVec.toNat_ofNat _ _).trans (Nat.mod_eq_of_lt (hfraction.trans htimer))

/-- Settles O38: the event schedules its next, and the stop check either lets it stand or finishes the stop. -/
theorem stepEventSchedulesNext : Obligations.StepEventSchedulesNext := by
  intro s hr he hrun hcd b u ph htrig hmore hrem t
  have hkeep := counting_engineSide s
  have hcycle := idleCycle_eq hr
  have hengine := afterEngine_of_more he hrun hcd htrig hmore
  have hnominal : b.nominal < 2 ^ 32 := decodeBlock_nominal_lt s.params s.mem s.headSlot
  obtain ⟨hrate, hfraction, hinterval, hnext⟩ := scheduled_toNat (s.stepIndex.toNat + 1) s.emitted hnominal hrem
  rcases nextInterval_cases s b (s.stepIndex.toNat + 1) s.emitted with ⟨hstop, hslow, e⟩ | ⟨hgo, e⟩
  · rw [hengine, e] at hcycle
    refine ⟨(congrArg (fun n : State => n.interval.toNat) hcycle :).trans hinterval, fun hgo => ?_, fun _ _ => ?finish⟩
    case finish =>
      exact ⟨(congrArg State.eng hcycle :), (congrArg State.head hcycle :), (congrArg State.phase hcycle :), (congrArg State.rate hcycle :),
        (congrArg State.rem hcycle :), (congrArg State.cd hcycle :), (congrArg State.stopping hcycle :),
        by rw [engineEvents_eq, hengine, e]; exact BitVec.zero_or⟩
    · rcases hgo with hno | hfast
      · exact absurd hstop (by simp [hno])
      · exact absurd hslow (Nat.not_le.2 hfast)
  · rw [hengine, e] at hcycle
    refine ⟨(congrArg (fun n : State => n.interval.toNat) hcycle :).trans hinterval, fun _ => ?next, fun hstop hslow => ?_⟩
    case next =>
      exact ⟨(congrArg State.eng hcycle :).trans (hkeep.eng.trans hrun), (congrArg State.head hcycle :).trans hkeep.head,
        (congrArg State.phase hcycle :), (congrArg (fun n : State => n.rate.toNat) hcycle :).trans hrate,
        (congrArg (fun n : State => n.rem.toNat) hcycle :).trans hfraction, (congrArg (fun n : State => n.cd.toNat) hcycle :).trans hnext,
        (congrArg State.stopping hcycle :).trans hkeep.stopping, by rw [engineEvents_eq, hengine, e]; rfl⟩
    · rcases hgo with hno | hfast
      · exact absurd hstop (by simp [hno])
      · exact absurd hslow (Nat.not_le.2 hfast)

/-! ### The Bresenham step -/

/-- Settles O36: the motion of the Bresenham step, with the ranges that the invariants and the validation give its terms. -/
theorem stepEventEmits : Obligations.StepEventEmits := by
  intro s hs hr he hrun hcd b d fires htrig t
  have hbusy := hs.running hrun
  have hvalid := (validate_eq_zero _ _).1 hbusy.block_valid
  have hd : d < 2 ^ 31 := decodeBlock_dominant_lt s.params s.mem s.headSlot
  obtain ⟨hpos, hpt, hpmask⟩ := afterEngine_motion he hrun hcd htrig
  have hcycle := idleCycle_eq hr
  have hchannel : ∀ a : Axis, a.val < s.params.A → channelOf s.params a.val b.ext < 23 := fun a ha =>
    (channelOf_lt _ _ _ ha hvalid.ext_lt).trans_le (channels_le _)
  refine ⟨(congrArg State.pt hcycle :).trans (hpt.trans (emitStep_pt _ _ _)), fun c => ?mask, fun a ha => ?position,
    fun hmore => ?next, fun a ha => ?dominant, fun a ha hzero => ?still⟩
  case mask =>
    rw [show t.pmask = _ from (congrArg State.pmask hcycle :).trans (hpmask.trans (emitStep_pmask _ _ _)), getLsbD_channelMask]
    constructor
    · rintro ⟨_, a, ha, hfire, hc⟩
      exact ⟨a, ha, of_decide_eq_true hfire, hc⟩
    · rintro ⟨a, ha, hfire, hc⟩
      exact ⟨hc ▸ hchannel a ha, a, ha, decide_eq_true hfire, hc⟩
  case position =>
    have hmove : t.pos[a] = _ := (congrArg (fun n : State => n.pos[a]) hcycle :).trans
      ((congrArg (fun v : PerAxis Word => v[a]) hpos :).trans (emitted_pos_get s a ha))
    exact ⟨fun hfire => hmove.trans (if_pos hfire), fun hno => hmove.trans (if_neg hno)⟩
  case next =>
    have hengine := afterEngine_of_more he hrun hcd htrig hmore.ne
    obtain ⟨_, _, _, herr, hindex⟩ := nextInterval_motion s b (s.stepIndex.toNat + 1) s.emitted
    rw [hengine] at hcycle
    refine ⟨?_, fun a ha => ?_⟩
    · rw [show t.stepIndex = s.stepIndex + 1#32 from (congrArg State.stepIndex hcycle :).trans hindex, BitVec.toNat_add]
      exact Nat.mod_eq_of_lt (by simp only [BitVec.toNat_ofNat]; omega)
    · have hterm : t.errTerm[a].toNat = _ := (congrArg (fun n : State => n.errTerm[a].toNat) hcycle :).trans
        ((congrArg (fun v : PerAxis Word => v[a].toNat) herr :).trans
          (emitStep_errTerm_toNat s b (counted s) a ha (hvalid.steps_le a ha) hd (hbusy.err_range a ha).2))
      exact ⟨fun hfire => hterm.trans (if_pos hfire), fun hno => hterm.trans (if_neg hno)⟩
  case dominant =>
    have hlt : a.val < s.params.A := ha ▸ hvalid.dom_lt
    have hsteps : d = b.steps[a] := dominant_eq_steps ha hlt
    have herr := (hbusy.err_range a hlt).1
    show d < s.errTerm[a].toNat + b.steps[a]
    omega
  case still =>
    have herr : s.errTerm[a].toNat ≤ d := (hbusy.err_range a ha).2
    show ¬d < s.errTerm[a].toNat + b.steps[a]
    omega

end Sys2Proof.Machine

/-! Proof of O35 and O37: a step event that retires its block, and the load that follows it in the same cycle. -/

namespace Sys2Proof.Machine

/-! ### What a load attempt makes of its cycle -/

section
variable {s : State} {i : QueueIndex} {w : Work}

/-- A load that claims. -/
theorem idleCycle_of_load_claim (hr : s.sample.rst = false) (hbase : LoadBase s i w) (hload : afterEngine s false = loadAttempt s i w)
    (hbusy : s.bs.busy = false) (hdepth : depth s.params i s.tail ≠ 0) (hvalid : validate s.params (s.blockAt i) = 0)
    (hpulse : changesDirection s.params (s.blockAt i) s.dirLat = true → s.pt = 0#16 ∧ w.st.pt = 0#16) :
    ClaimedBy s (s.blockAt i) (idleCycle s) ∧ (idleCycle s).head = i ∧ s.engineEvents = w.ev := by
  have hdir : w.st.dirLat = s.dirLat := hbase.engineSide.dirLat
  rw [loadAttempt_of_claim hbusy hdepth hvalid (by rwa [hdir]), hdir] at hload
  obtain ⟨hclaimed, hhead⟩ := idleCycle_of_claim hr hbase rfl hload
  exact ⟨hclaimed, hhead, by rw [engineEvents_eq, hload]; rfl⟩

/-- A load that halts on a bad block. -/
theorem idleCycle_of_load_halt (hr : s.sample.rst = false) (hbase : LoadBase s i w)
    (hload : afterEngine s false = loadAttempt s i w) (hbusy : s.bs.busy = false) (hdepth : depth s.params i s.tail ≠ 0)
    (hbad : validate s.params (s.blockAt i) ≠ 0) :
    HaltedBy s { cause := .badBlock, check := BitVec.ofNat 4 (validate s.params (s.blockAt i)), slot := BitVec.ofNat 6 (slotOf s.params i)
                 axes := 0#16 } (idleCycle s)
    ∧ (idleCycle s).stepIndex = w.st.stepIndex ∧ (idleCycle s).errTerm = w.st.errTerm ∧ s.engineEvents = w.ev ||| evHalt := by
  rw [loadAttempt_of_bad hbusy hdepth hbad] at hload
  have hevents : s.engineEvents = w.ev ||| evHalt := by rw [engineEvents_eq, hload, halt_ev, if_neg hbase.not_halted]
  obtain ⟨hdir, hext, _⟩ := hbase.engineSide
  have hhalted := halt_haltedBy hbase.not_halted hbase.hostSide.tail hbase.counts.bs hdir hext .badBlock (validate s.params (s.blockAt i))
    (slotOf s.params i) 0#16
  rw [idleCycle_of_no_reset hr, irqUpdate_of_no_clear, beforeBus_eq, babystepStart_halted _ _ (by rw [hload]; rfl), hload]
  exact ⟨haltedBy_rest hhalted _, rfl, rfl, hevents⟩

end

/-! ### The homing abort -/

theorem afterHoming_events (s : State) (trig : AxisMask) : (afterHoming s trig (counted s)).ev = 0b01010#5 := by
  show 0#5 ||| evHomingHit ||| evBlockDone = _
  decide

theorem afterHoming_pos_get (s : State) (trig : AxisMask) (a : Axis) :
    (afterHoming s trig (counted s)).st.pos[a] = if a.val < s.params.A ∧ trig.getLsbD a.val = true then s.home[a] else s.pos[a] := by
  have hpos : (counting s).pos = s.pos := (counting_engineSide s).pos
  show (PerAxis.update s.params (counting s).pos fun a => if trig.getLsbD a.val then s.home[a] else (counting s).pos[a])[a] = _
  rw [update_get, hpos, ite_and]

/-- What follows the homing abort moves nothing and begins no pulse; it clears HOMED only where it halts. -/
theorem homingAbort_motion (S : State) (trig : AxisMask) (w : Work) :
    (homingAbort S trig w).st.pos = (afterHoming S trig w).st.pos ∧ (homingAbort S trig w).st.pt = w.st.pt
    ∧ (homingAbort S trig w).st.pmask = w.st.pmask
    ∧ (homingAbort S trig w).st.homed = if (homingAbort S trig w).st.eng = .halted then 0#16 else S.homed ||| trig := by
  rcases homingAbort_cases S trig w with ⟨_, e⟩ | ⟨_, e⟩ <;> rw [e]
  · exact ⟨rfl, rfl, rfl, rfl⟩
  · obtain ⟨hpos, hpt, hpmask, hhomed⟩ := loadAttempt_motion S (nextIndex S.params S.head) (afterHoming S trig w)
    exact ⟨hpos, hpt, hpmask, hhomed nofun⟩

/-- Settles O35: the abort's own writes, then the stop or the load over the retired block. -/
theorem homingAbortRetiresBlock : Obligations.HomingAbortRetiresBlock := by
  intro s hr he hrun hcd trig htrig hhoming t h b chg retired
  have hkeep := counting_engineSide s
  have hcycle := idleCycle_eq hr
  have hengine := afterEngine_of_homing he hrun hcd htrig hhoming
  have hload : s.stopping = false → afterEngine s false = loadAttempt s h (afterHoming s trig (counted s)) := by
    intro hgo
    rcases homingAbort_cases s trig (counted s) with ⟨hstop, _⟩ | ⟨_, e⟩
    · exact absurd hstop (by simp [hgo])
    · exact hengine.trans e
  have hfinish : s.stopping = true → afterEngine s false = finishStop s (afterHoming s trig (counted s)) := by
    intro hstop
    rcases homingAbort_cases s trig (counted s) with ⟨_, e⟩ | ⟨hgo, _⟩
    · exact hengine.trans e
    · exact absurd hstop (by simp [hgo])
  have hbase : s.stopping = false → LoadBase s h (afterHoming s trig (counted s)) := fun hgo => .homing hrun hcd hgo htrig hhoming
  have hretired : afterEngine s false = afterHoming s trig (counted s) → retired := by
    intro e
    rw [e] at hcycle
    exact ⟨(congrArg State.eng hcycle :), (congrArg State.phase hcycle :), (congrArg State.cd hcycle :), (congrArg State.head hcycle :),
      (congrArg State.stepIndex hcycle :).trans hkeep.stepIndex, (congrArg State.errTerm hcycle :).trans hkeep.errTerm,
      (congrArg State.rate hcycle :).trans hkeep.rate, (congrArg State.rem hcycle :).trans hkeep.rem,
      (congrArg State.interval hcycle :).trans hkeep.interval, (congrArg State.dirLat hcycle :).trans hkeep.dirLat,
      (congrArg State.extSel hcycle :).trans hkeep.extSel, by rw [engineEvents_eq, e, afterHoming_events]⟩
  obtain ⟨hpos, htimer, hmask, hhomed⟩ := homingAbort_motion s trig (counted s)
  rw [← hengine] at hpos htimer hmask hhomed
  have hend : t.eng = (afterEngine s false).st.eng := (congrArg State.eng hcycle :)
  refine ⟨fun a => ?position, (congrArg State.homed hcycle :).trans (hend ▸ hhomed),
    pulseCountsOn_of ((congrArg State.pt hcycle :).trans htimer) ((congrArg State.pmask hcycle :).trans hmask), fun hstop => ?finish,
    fun hgo hempty => hretired ((hload hgo).trans (loadAttempt_of_empty hempty)), fun hgo hdepth => ⟨?wait, ?claim, ?halt⟩⟩
  case position =>
    exact ((congrArg (fun n : State => n.pos[a]) hcycle :).trans (congrArg (fun v : PerAxis Word => v[a]) hpos :)).trans
      (afterHoming_pos_get s trig a)
  case finish =>
    have e := hfinish hstop
    rw [e] at hcycle
    exact ⟨(congrArg State.eng hcycle :), (congrArg State.head hcycle :), (congrArg State.stopping hcycle :), (congrArg State.phase hcycle :),
      (congrArg State.cd hcycle :), (congrArg State.rate hcycle :), (congrArg State.rem hcycle :),
      (congrArg State.interval hcycle :).trans hkeep.interval, (congrArg State.stepIndex hcycle :).trans hkeep.stepIndex,
      by rw [engineEvents_eq, e, finishStop_ev, afterHoming_events]; decide⟩
  case wait =>
    rintro (hbusy | ⟨hvalid, hchg, hpulse⟩)
    · exact hretired ((hload hgo).trans (loadAttempt_of_busy hbusy))
    · exact hretired ((hload hgo).trans (loadAttempt_of_pulse hvalid (by rw [(hbase hgo).engineSide.dirLat]; exact hchg) (.inl hpulse)))
  case claim =>
    intro hbusy hvalid hpulse
    obtain ⟨hclaimed, hhead, hevents⟩ := idleCycle_of_load_claim hr (hbase hgo) (hload hgo) hbusy hdepth hvalid
      fun hchg => ⟨hpulse hchg, counting_pt_of_quiet (hpulse hchg)⟩
    exact ⟨hclaimed, hhead, hevents.trans (afterHoming_events s trig)⟩
  case halt =>
    intro hbusy hbad
    obtain ⟨hhalted, hindex, herr, hevents⟩ := idleCycle_of_load_halt hr (hbase hgo) (hload hgo) hbusy hdepth hbad
    exact ⟨hhalted, hindex.trans hkeep.stepIndex, herr.trans hkeep.errTerm, hevents.trans (by rw [afterHoming_events]; decide)⟩

/-! ### The last step -/

theorem retire_emitted_events (s : State) : (retire s s.emitted).ev = 0b00010#5 := by
  show 0#5 ||| evBlockDone = _
  decide

/-- Settles O37: the stop or the load over the block the last step has retired. -/
theorem lastStepRetiresBlock : Obligations.LastStepRetiresBlock := by
  intro s hs hr he hrun hcd hbusy htrig hlast t h b chg
  have hkeep := counting_engineSide s
  have hcycle := idleCycle_eq hr
  have hengine := afterEngine_of_last he hrun hcd htrig hlast
  have hnext : depth s.params h s.tail = s.depth - 1 := depth_nextIndex_head _ _ _ (hs.running hrun).depth_pos
  have hload : s.stopping = false → afterEngine s false = loadAttempt s h (retire s s.emitted) := by
    intro hgo
    rcases complete_cases s s.emitted with ⟨hstop, _⟩ | ⟨_, e⟩
    · exact absurd hstop (by simp [hgo])
    · exact hengine.trans e
  have hbase : s.stopping = false → LoadBase s h (retire s s.emitted) := fun hgo => .complete hrun hcd hgo htrig hlast
  refine ⟨fun hstop => ?finish, fun hgo hone => ?rest, fun hgo hmore hvalid hsame => ?claim, fun hgo hmore hvalid hturn => ?wait,
    fun hgo hmore hbad => ?halt⟩
  case finish =>
    have e : afterEngine s false = finishStop s (retire s s.emitted) := by
      rcases complete_cases s s.emitted with ⟨_, e⟩ | ⟨hgo, _⟩
      · exact hengine.trans e
      · exact absurd hstop (by simp [hgo])
    rw [e] at hcycle
    exact ⟨(congrArg State.eng hcycle :), (congrArg State.head hcycle :), (congrArg State.stopping hcycle :), (congrArg State.rate hcycle :),
      (congrArg State.rem hcycle :), (congrArg State.interval hcycle :).trans hkeep.interval,
      by rw [engineEvents_eq, e, finishStop_ev, retire_emitted_events]; decide⟩
  case rest =>
    have e : afterEngine s false = retire s s.emitted := (hload hgo).trans (loadAttempt_of_empty (by omega))
    rw [e] at hcycle
    have hindex : t.stepIndex = s.stepIndex + 1#32 := (congrArg State.stepIndex hcycle :)
    have hlt : s.headBlock.dominant s.params < 2 ^ 31 := decodeBlock_dominant_lt s.params s.mem s.headSlot
    refine ⟨(congrArg State.eng hcycle :), (congrArg State.head hcycle :), (congrArg State.phase hcycle :), (congrArg State.cd hcycle :),
      (congrArg State.rate hcycle :).trans hkeep.rate, (congrArg State.rem hcycle :).trans hkeep.rem,
      (congrArg State.interval hcycle :).trans hkeep.interval, ?_, by rw [engineEvents_eq, e, retire_emitted_events]⟩
    rw [hindex, BitVec.toNat_add, ← hlast]
    exact Nat.mod_eq_of_lt (by simp only [BitVec.toNat_ofNat]; omega)
  case claim =>
    obtain ⟨hclaimed, hhead, hevents⟩ := idleCycle_of_load_claim hr (hbase hgo) (hload hgo) hbusy (by omega) hvalid
      fun hturn => absurd hturn (by simp [hsame, chg, b])
    exact ⟨hclaimed, hhead, hevents.trans (retire_emitted_events s)⟩
  case wait =>
    have hpulse : (retire s s.emitted).st.pt ≠ 0#16 := by
      have hwidth := hs.width_pos
      rw [retire_pt, emitStep_pt]
      intro hzero
      rw [hzero] at hwidth
      exact absurd hwidth (by decide)
    have hdir := (hbase hgo).engineSide.dirLat
    have e : afterEngine s false = retire s s.emitted :=
      (hload hgo).trans (loadAttempt_of_pulse hvalid (by rw [hdir]; exact hturn) (.inr hpulse))
    rw [e] at hcycle
    exact ⟨(congrArg State.eng hcycle :), (congrArg State.head hcycle :), (congrArg State.dirLat hcycle :).trans hdir,
      by rw [engineEvents_eq, e, retire_emitted_events]⟩
  case halt =>
    obtain ⟨hhalted, _, _, hevents⟩ := idleCycle_of_load_halt hr (hbase hgo) (hload hgo) hbusy (by omega) hbad
    exact ⟨hhalted, hevents.trans (by rw [retire_emitted_events]; decide)⟩

end Sys2Proof.Machine

/-! Proof of O42 to O46: the babystep sequencer's start, its advance, what it drives, that it perturbs nothing, and the outputs. -/

namespace Sys2Proof.Machine

/-! ### The pending babysteps -/

theorem axes_pairwise (p : Params) : (axes p).Pairwise (· < ·) := List.Pairwise.filter _ (by decide)

/-- The least axis with a babystep pending is the one that starts. -/
theorem pendingAxis_of_least {S : State} {a : Axis} (ha : a.val < S.params.A) (hpending : S.bsPending[a] ≠ 0#16)
    (hleast : ∀ a' : Axis, a'.val < a.val → S.bsPending[a'] = 0#16) : pendingAxis S = some a := by
  obtain ⟨pre, post, hsplit⟩ := List.append_of_mem ((mem_axes S.params a).2 ha)
  have hsorted := axes_pairwise S.params
  rw [hsplit, List.pairwise_append] at hsorted
  refine List.find?_eq_some_iff_append.2 ⟨decide_eq_true hpending, pre, post, hsplit, fun a' ha' => ?_⟩
  have hlt : a' < a := hsorted.2.2 a' ha' a List.mem_cons_self
  simp [hleast a' hlt]

theorem pendingAxis_of_none {S : State} (h : ∀ a : Axis, a.val < S.params.A → S.bsPending[a] = 0#16) : pendingAxis S = none := by
  refine List.find?_eq_none.2 fun a ha => ?_
  simp [h a ((mem_axes S.params a).1 ha)]

/-- The pending babysteps after the engine stage: kept, or discarded by a halt of this cycle. -/
theorem EngineEffect.pending {S : State} {w : Work} (h : EngineEffect S false w) :
    (w.st.bsPending = S.bsPending ∧ (w.st.eng = .halted → S.eng = .halted))
    ∨ (w.st.eng = .halted ∧ S.eng ≠ .halted ∧ w.st.bsPending = PerAxis.update S.params S.bsPending fun _ => 0#16) := by
  have hkeep := counting_engineSide S
  have hload : ∀ (i : QueueIndex) (w₀ : Work), LoadBase S i w₀ → w₀.st.bsPending = S.bsPending :=
    fun _ _ hbase => hbase.engineSide.bsPending
  cases h with
  | count hrun => exact .inl ⟨hkeep.bsPending, fun h => (hkeep.eng.symm.trans h :)⟩
  | rest hhalt => exact .inl ⟨hkeep.bsPending, fun _ => hhalt⟩
  | wait hbase => exact .inl ⟨hload _ _ hbase, fun h => absurd (hbase.head.2.symm.trans h) nofun⟩
  | bad hbase =>
    exact .inr ⟨rfl, hbase.not_halted, congrArg (fun v => PerAxis.update S.params v fun _ => 0#16) (hload _ _ hbase)⟩
  | claim hbase => exact .inl ⟨(hload _ _ hbase :), nofun⟩
  | fault hrun => exact .inr ⟨rfl, by simp [hrun], congrArg (fun v => PerAxis.update S.params v fun _ => 0#16) hkeep.bsPending⟩
  | finish _ _ _ hbase => exact .inl ⟨by cases hbase <;> exact hkeep.bsPending, nofun⟩
  | schedule hrun => exact .inl ⟨hkeep.bsPending, fun h => (hkeep.eng.symm.trans h :)⟩

/-! ### The start (R216) -/

theorem babystepFits_iff (S n : State) (len : Nat) :
    babystepFits S n len = true
      ↔ (n.eng = .run → len + 1 ≤ n.cd.toNat) ∧ (n.eng ≠ .run → depth S.params n.head S.tail = 0) := by
  by_cases h : n.eng = .run <;> simp [babystepFits, h]

theorem babystepMayStart_iff {S n : State} (heng : n.eng ≠ .halted) (hbusy : S.bs.busy = false) (hpt : S.pt = 0#16) :
    babystepMayStart S false n = true ↔ n.pt = 0#16 ∧ n.settle = 0#16 := by
  simp [babystepMayStart, heng, hbusy, hpt]

/-- The channel a babystep of axis `a` would drive, and whether it must turn the direction first. -/
abbrev babystepChannel (S n : State) (a : Axis) : Nat := channelOf S.params a.val n.extSel.toNat

abbrev babystepFlips (S n : State) (a : Axis) : Bool := n.dirLat.getLsbD (babystepChannel S n a) != babystepForward S a

/-- `n` with the babystep of axis `a` begun (R216). -/
def babystepBegun (S n : State) (a : Axis) : State :=
  { n with
    bs := { busy := true, axis := BitVec.ofNat 4 a.val, ch := BitVec.ofNat 5 (babystepChannel S n a), dir := babystepForward S a,
            flip := babystepFlips S n a, len := BitVec.ofNat 18 (babystepLength S (babystepFlips S n a)), k := 1#18 }
    bsPending := n.bsPending.set a (S.bsPending[a] - (if babystepForward S a then 1#16 else -1#16)) }

section
variable {S n : State} {a : Axis}

theorem babystepStart_of_fit (heng : n.eng ≠ .halted) (hbusy : S.bs.busy = false) (hquiet : S.pt = 0#16) (haxis : pendingAxis S = some a)
    (hpt : n.pt = 0#16) (hsettle : n.settle = 0#16) (hfits : babystepFits S n (babystepLength S (babystepFlips S n a)) = true) :
    babystepStart S false n = babystepBegun S n a := by
  have hmay := (babystepMayStart_iff heng hbusy hquiet).2 ⟨hpt, hsettle⟩
  simp only [babystepStart, hmay, haxis, if_true]
  exact if_pos hfits

theorem babystepStart_of_no_fit (heng : n.eng ≠ .halted) (hbusy : S.bs.busy = false) (hquiet : S.pt = 0#16) (haxis : pendingAxis S = some a)
    (h : ¬(n.pt = 0#16 ∧ n.settle = 0#16 ∧ babystepFits S n (babystepLength S (babystepFlips S n a)) = true)) :
    babystepStart S false n = n := by
  by_cases hmay : babystepMayStart S false n = true
  · obtain ⟨hpt, hsettle⟩ := (babystepMayStart_iff heng hbusy hquiet).1 hmay
    simp only [babystepStart, hmay, haxis, if_true]
    exact if_neg fun hfits => h ⟨hpt, hsettle, hfits⟩
  · exact if_neg hmay

end

/-- Settles O42: the start's tests over what the engine stage leaves, which no later stage writes. -/
theorem babystepStartsWhenItFits : Obligations.BabystepStartsWhenItFits := by
  intro s hr he hbusy t unstarted
  have hcycle := idleCycle_eq hr
  have hstart : t.bs = (babystepStart s false (afterEngine s false).st).bs
      ∧ t.bsPending = (babystepStart s false (afterEngine s false).st).bsPending := by
    have hcycle' : t = irqUpdate s 0#5 (beforeBus s false) := idleCycle_of_no_reset hr
    rw [hcycle', beforeBus_eq, he]
    exact ⟨rfl, rfl⟩
  have heffect : EngineEffect s false (afterEngine s false) := by simpa [he] using afterEngine_effect s false
  have hhost := heffect.hostSide
  have hbs : (afterEngine s false).st.bs = s.bs := by
    have hcounted : (counting s).bs = s.bs := by rw [counting_bs, hbusy]; rfl
    rcases heffect.sequencer with ⟨h, _⟩ | ⟨habort, _⟩
    · exact h.trans hcounted
    · exact absurd ((babystepNotPulsed_iff s).1 habort).1 (by simp [hbusy])
  have hpending := heffect.pending
  generalize (afterEngine s false).st = n at hcycle hstart hhost hbs hpending
  have heng : t.eng = n.eng := (congrArg State.eng hcycle :)
  have hpt : t.pt = n.pt := (congrArg State.pt hcycle :)
  have hsettle : t.settle = n.settle := (congrArg State.settle hcycle :)
  have hcd : t.cd = n.cd := (congrArg State.cd hcycle :)
  have hdir : t.dirLat = n.dirLat := (congrArg State.dirLat hcycle :)
  have hext : t.extSel = n.extSel := (congrArg State.extSel hcycle :)
  have hdepth : t.depth = depth s.params n.head s.tail := (congrArg State.depth hcycle :).trans hhost.depth_eq
  obtain ⟨hbsStart, hpendingStart⟩ := hstart
  have hkept : n.eng ≠ .halted → n.bsPending = s.bsPending := fun hrun => by
    rcases hpending with ⟨h, _⟩ | ⟨hhalt, _⟩
    · exact h
    · exact absurd hhalt hrun
  have hunstarted : babystepStart s false n = n → n.bsPending = s.bsPending → unstarted := fun e hkeep => by
    rw [e] at hbsStart hpendingStart
    exact ⟨hbsStart.trans hbs, hpendingStart.trans hkeep⟩
  rw [heng]
  refine ⟨fun hhalt hwas => ?stays, fun hhalt hwas => ?discards, fun hrun hpulse => ?pulse, fun hrun hquiet => ⟨?starts, ?none⟩⟩
  case stays =>
    refine hunstarted (babystepStart_halted s false hhalt) ?_
    rcases hpending with ⟨h, _⟩ | ⟨_, hnot, _⟩
    · exact h
    · exact absurd hwas hnot
  case discards =>
    rw [babystepStart_halted s false hhalt] at hbsStart hpendingStart
    refine ⟨hbsStart.trans hbs, fun a ha => ?_⟩
    rcases hpending with ⟨_, hwas'⟩ | ⟨_, _, hzero⟩
    · exact absurd (hwas' hhalt) hwas
    · rw [hpendingStart, hzero, update_get, if_pos ha]
  case pulse => exact hunstarted (babystepStart_of_held (.inr hpulse) false n) (hkept hrun)
  case starts =>
    intro a ha hnonzero hleast d c flip len ok
    have haxis := pendingAxis_of_least ha hnonzero hleast
    have hc : c = babystepChannel s n a := congrArg (fun e : BitVec 3 => channelOf s.params a.val e.toNat) hext
    have hflip : flip = babystepFlips s n a := by
      show (t.dirLat.getLsbD c != d) = _
      rw [hc, hdir]
      rfl
    have hlen : len = babystepLength s (babystepFlips s n a) := hflip ▸ rfl
    have hok : ok ↔ n.pt = 0#16 ∧ n.settle = 0#16 ∧ babystepFits s n (babystepLength s (babystepFlips s n a)) = true := by
      simp only [ok, babystepFits_iff, ← hlen, hpt, hsettle, hcd, hdepth]
    refine ⟨fun h => ?fits, fun h => hunstarted (babystepStart_of_no_fit hrun hbusy hquiet haxis (mt hok.2 h)) (hkept hrun)⟩
    case fits =>
      obtain ⟨hpt', hsettle', hfits⟩ := hok.1 h
      rw [babystepStart_of_fit hrun hbusy hquiet haxis hpt' hsettle' hfits] at hbsStart hpendingStart
      rw [hc, hflip, hlen]
      exact ⟨hbsStart, hpendingStart.trans (congrArg (fun v : PerAxis (BitVec 16) => v.set a _) (hkept hrun))⟩
  case none =>
    intro hzero
    refine hunstarted ?_ (hkept hrun)
    rw [babystepStart, pendingAxis_of_none hzero]
    exact ite_self n

/-! ### The advance (R218) -/

theorem counting_of_moving {s : State} (hbusy : s.bs.busy = true) (hk : s.bs.k ≠ s.bs.len) :
    (counting s).bs = { s.bs with k := s.bs.k + 1#18 } ∧ (counting s).bsCount = s.bsCount := by
  rw [counting, if_pos hbusy, bsAdvance, if_neg hk]
  exact ⟨rfl, rfl⟩

theorem counting_of_ended {s : State} (hbusy : s.bs.busy = true) (hk : s.bs.k = s.bs.len) :
    (counting s).bs.busy = false ∧ (counting s).bsCount = PerAxis.update s.params s.bsCount fun a =>
      if a.val = s.bs.axis.toNat then s.bsCount[a] + (if s.bs.dir then 1#32 else -1#32) else s.bsCount[a] := by
  rw [counting, if_pos hbusy, bsAdvance, if_pos hk]
  exact ⟨rfl, rfl⟩

/-- Settles O43: a running sequence holds up the load and the start, so the counting stage is all that happens. -/
theorem babystepAdvancesAndCounts : Obligations.BabystepAdvancesAndCounts := by
  intro s hr he hbusy hcases t
  have hkeep := counting_engineSide s
  have hengine : ∃ cd, afterEngine s false = { counted s with st := { counting s with cd := cd } } := by
    rcases hcases with ⟨hrun, hcd⟩ | hidle | hhalt
    · exact ⟨_, afterEngine_of_count he hrun hcd⟩
    · exact ⟨_, (afterEngine_of_idle he hidle).trans ((loadAttempt_of_busy hbusy).trans counted_eq_of_cd)⟩
    · exact ⟨_, (afterEngine_of_halted he hhalt).trans counted_eq_of_cd⟩
  obtain ⟨cd, hengine⟩ := hengine
  have hcycle := idleCycle_eq hr
  obtain ⟨hbs, hpending⟩ := idleCycle_sequencer_of_held hr (.inl hbusy)
  rw [hengine] at hcycle hbs hpending
  have hcount : t.bsCount = (counting s).bsCount := (congrArg State.bsCount hcycle :)
  refine ⟨fun hk => ?moves, fun hk => ?ends, (congrArg State.pos hcycle :).trans hkeep.pos, hpending.trans hkeep.bsPending⟩
  case moves =>
    obtain ⟨hmoved, hsame⟩ := counting_of_moving hbusy hk
    exact ⟨hbs.trans hmoved, hcount.trans hsame⟩
  case ends =>
    obtain ⟨hended, hcounted⟩ := counting_of_ended hbusy hk
    refine ⟨(congrArg Babystep.busy hbs).trans hended, fun a ha => ?_⟩
    rw [hcount, hcounted, update_get, if_pos ha]

/-! ### What a sequence drives (R151, R152) -/

theorem directionOverride_iff (s : State) (p : Nat) :
    directionOverride s p = true ↔ s.bs.busy = true ∧ s.bs.ch.toNat = p ∧ s.bs.flip = true
      ∧ s.bs.k.toNat ≤ s.cfgDirSetup.toNat + s.cfgPulseWidth.toNat := by
  simp [directionOverride, and_assoc]

theorem dirOut_of_override {s : State} {p : Nat} (h : directionOverride s p = true) : dirOut s p = (s.bs.dir ^^ s.cfgDirInv.getLsbD p) := by
  rw [dirOut, h]; rfl

/-- Settles O44: no engine pulse is out beside a sequence, so its own windows decide both outputs. -/
theorem babystepSequenceDrives : Obligations.BabystepSequenceDrives := by
  intro s hs hp hbusy k ds pw c idle
  obtain ⟨hk1, hklen⟩ := hs.sequence hbusy
  have hlength := hp.length hbusy
  have hactive : pulseActive s c = babystepPulse s c := by simp [pulseActive, hp.apart hbusy]
  have hwindow := babystepPulse_iff s c
  have hoverride := directionOverride_iff s c
  have hlow : babystepPulse s c = false → stepOut s c = idle := fun h => by rw [stepOut, hactive, h, Bool.false_xor]
  have hhigh : babystepPulse s c = true → stepOut s c = !idle := fun h => by rw [stepOut, hactive, h, Bool.true_xor]
  have hlatched : directionOverride s c = false → dirOut s c = (s.dirLat.getLsbD c ^^ s.cfgDirInv.getLsbD c) := dirOut_eq s c
  refine ⟨fun hflip hk => ?setup, fun hflip hk hk' => ?pulse, fun hflip hk => ?restore, fun hflip => ?plain⟩
  all_goals rw [hflip] at hwindow hoverride hlength
  case setup =>
    rw [if_pos rfl] at hwindow
    exact ⟨hlow (Bool.eq_false_iff.2 fun h => absurd (hwindow.1 h).2.2.1 (by omega)),
      dirOut_of_override (hoverride.2 ⟨hbusy, rfl, rfl, by omega⟩)⟩
  case pulse =>
    rw [if_pos rfl] at hwindow
    exact ⟨hhigh (hwindow.2 ⟨hbusy, rfl, hk, by omega⟩), dirOut_of_override (hoverride.2 ⟨hbusy, rfl, rfl, hk'⟩)⟩
  case restore =>
    rw [if_pos rfl] at hwindow
    have hlen : s.bs.len.toNat = 2 * ds + pw := hlength
    exact ⟨by omega, hlow (Bool.eq_false_iff.2 fun h => absurd (hwindow.1 h).2.2.2 (by omega)),
      hlatched (Bool.eq_false_iff.2 fun h => absurd (hoverride.1 h).2.2.2 (by omega))⟩
  case plain =>
    rw [if_neg Bool.false_ne_true] at hwindow
    have hlen : s.bs.len.toNat = pw := hlength
    exact ⟨by omega, hhigh (hwindow.2 ⟨hbusy, rfl, hk1, by omega⟩),
      hlatched (Bool.eq_false_iff.2 fun h => absurd (hoverride.1 h).2.2.1 nofun)⟩

/-! ### The outputs -/

theorem irqOut_iff (s : State) : irqOut s = true ↔ ∃ i, i < 5 ∧ s.irqStatus.getLsbD i = true ∧ s.irqEnable.getLsbD i = true := by
  rw [irqOut, decide_eq_true_iff]
  constructor
  · intro hne
    by_contra hnone
    refine hne (BitVec.eq_of_getLsbD_eq fun i hi => ?_)
    rw [BitVec.getLsbD_and, BitVec.getLsbD_zero, Bool.and_eq_false_iff]
    by_contra hboth
    simp only [not_or, Bool.not_eq_false] at hboth
    exact hnone ⟨i, hi, hboth⟩
  · rintro ⟨i, _, hstatus, henable⟩ hzero
    have hbit := congrArg (fun x : BitVec 5 => x.getLsbD i) hzero
    rw [BitVec.getLsbD_and, hstatus, henable, BitVec.getLsbD_zero] at hbit
    exact absurd hbit nofun

/-- Settles O46: the channel map by its two cases, and the outputs where no sequence interferes. -/
theorem pinsFollowState : Obligations.PinsFollowState := by
  refine ⟨fun q => ⟨fun h => if_pos h, fun h => if_neg (by omega), fun a e h ha => if_pos ⟨h, ha⟩, fun a e h => if_neg (by omega),
    fun a e => channelOf_lt q a e, fun a a' e => channelOf_inj q a a' e⟩, fun s p hfree => ⟨?step, ?dir, irqOut_iff s⟩⟩
  case step =>
    have hpulse : babystepPulse s p = false :=
      Bool.eq_false_iff.2 fun h => by
        obtain ⟨hbusy, hch, _⟩ := (babystepPulse_iff s p).1 h
        rcases hfree with hno | hno
        · exact absurd hbusy (by simp [hno])
        · exact hno hch
    have hactive : (0 < s.pt.toNat ∧ s.pmask.getLsbD p = true) ↔ pulseActive s p = true := by simp [pulseActive, hpulse]
    rw [hactive, stepOut]
    cases pulseActive s p <;> cases s.cfgStepInv.getLsbD p <;> decide
  case dir =>
    have hoverride : directionOverride s p = false :=
      Bool.eq_false_iff.2 fun h => by
        obtain ⟨hbusy, hch, _⟩ := (directionOverride_iff s p).1 h
        rcases hfree with hno | hno
        · exact absurd hbusy (by simp [hno])
        · exact hno hch
    rw [dirOut_eq s p hoverride]
    cases s.dirLat.getLsbD p <;> cases s.cfgDirInv.getLsbD p <;> decide

end Sys2Proof.Machine

/-! Proof of O45. Two cycles that differ only in the sequencer's registers are followed stage by stage: each stage writes the same into both. -/

namespace Sys2Proof.Machine

/-- `s` with other sequencer registers. -/
def State.withSequencer (s : State) (q : Babystep) (p : PerAxis (BitVec 16)) (c : PerAxis Word) : State :=
  { s with bs := q, bsPending := p, bsCount := c }

/-- The two working states differ only in the sequencer's registers. -/
def Twin (w w' : Work) : Prop := ∃ q p c, w' = { w with st := w.st.withSequencer q p c }

section
variable {s : State} {q : Babystep} {p : PerAxis (BitVec 16)} {c : PerAxis Word} {w w' : Work}

theorem counted_twin (s : State) (q : Babystep) (p : PerAxis (BitVec 16)) (c : PerAxis Word) :
    Twin (counted s) (counted (s.withSequencer q p c)) := by
  refine ⟨(counting (s.withSequencer q p c)).bs, p, (counting (s.withSequencer q p c)).bsCount, ?_⟩
  rw [counted, counted, counting_eq s, counting_eq (s.withSequencer q p c)]
  rfl

theorem halt_twin (h : Twin w w') (cause : Cause) (k sl : Nat) (ax : AxisMask) :
    Twin (halt s cause k sl ax w) (halt (s.withSequencer q p c) cause k sl ax w') := by
  obtain ⟨_, _, _, rfl⟩ := h
  exact ⟨_, _, _, rfl⟩

theorem retire_twin (h : Twin w w') : Twin (retire s w) (retire (s.withSequencer q p c) w') := by
  obtain ⟨_, _, _, rfl⟩ := h
  exact ⟨_, _, _, rfl⟩

theorem finishStop_twin (h : Twin w w') : Twin (finishStop s w) (finishStop (s.withSequencer q p c) w') := by
  obtain ⟨_, _, _, rfl⟩ := h
  exact ⟨_, _, _, rfl⟩

theorem afterHoming_twin (h : Twin w w') (trig : AxisMask) : Twin (afterHoming s trig w) (afterHoming (s.withSequencer q p c) trig w') := by
  obtain ⟨_, _, _, rfl⟩ := h
  exact ⟨_, _, _, rfl⟩

theorem emitStep_twin (h : Twin w w') (b : Block) : Twin (emitStep s b w) (emitStep (s.withSequencer q p c) b w') := by
  obtain ⟨_, _, _, rfl⟩ := h
  exact ⟨_, _, _, rfl⟩

theorem scheduled_twin (h : Twin w w') (b : Block) (i : Nat) : Twin (scheduled s b i w) (scheduled (s.withSequencer q p c) b i w') := by
  obtain ⟨_, _, _, rfl⟩ := h
  exact ⟨_, _, _, rfl⟩

theorem claim_twin (h : Twin w w') (b : Block) (chg : Bool) : Twin (claim s b chg w) (claim (s.withSequencer q p c) b chg w') := by
  obtain ⟨_, _, _, rfl⟩ := h
  exact ⟨_, _, _, rfl⟩

/-- With no sequence running in either, a load attempt decides alike. -/
theorem loadAttempt_twin (h : Twin w w') (hbusy : s.bs.busy = false) (hbusy' : q.busy = false) (i : QueueIndex) :
    Twin (loadAttempt s i w) (loadAttempt (s.withSequencer q p c) i w') := by
  obtain ⟨q', p', c', rfl⟩ := id h
  rcases loadAttempt_cases s i w with ⟨e, hb | hd | ⟨hv, hchg, hpulse⟩⟩ | ⟨_, hd, hbad, e⟩ | ⟨_, hd, hv, hpulse, e⟩ <;> rw [e]
  · exact absurd hb (by simp [hbusy])
  · rw [loadAttempt_of_empty (S := s.withSequencer q p c) hd]; exact h
  · rw [loadAttempt_of_pulse (S := s.withSequencer q p c) (w := { w with st := w.st.withSequencer q' p' c' }) hv hchg hpulse]; exact h
  · rw [loadAttempt_of_bad (S := s.withSequencer q p c) hbusy' hd hbad]
    exact halt_twin h _ _ _ _
  · rw [loadAttempt_of_claim (S := s.withSequencer q p c) (w := { w with st := w.st.withSequencer q' p' c' }) hbusy' hd hv hpulse]
    exact claim_twin h _ _

theorem homingAbort_twin (h : Twin w w') (hbusy : s.bs.busy = false) (hbusy' : q.busy = false) (trig : AxisMask) :
    Twin (homingAbort s trig w) (homingAbort (s.withSequencer q p c) trig w') := by
  have hhoming : Twin (afterHoming s trig w) (afterHoming (s.withSequencer q p c) trig w') := afterHoming_twin h trig
  rcases homingAbort_cases s trig w with ⟨hstop, e⟩ | ⟨hgo, e⟩ <;>
    rcases homingAbort_cases (s.withSequencer q p c) trig w' with ⟨hstop', e'⟩ | ⟨hgo', e'⟩ <;> rw [e, e']
  · exact finishStop_twin hhoming
  · exact absurd (hstop.symm.trans hgo') nofun
  · exact absurd (hgo.symm.trans hstop') nofun
  · exact loadAttempt_twin hhoming hbusy hbusy' _

theorem complete_twin (h : Twin w w') (hbusy : s.bs.busy = false) (hbusy' : q.busy = false) :
    Twin (complete s w) (complete (s.withSequencer q p c) w') := by
  have hretired : Twin (retire s w) (retire (s.withSequencer q p c) w') := retire_twin h
  rcases complete_cases s w with ⟨hstop, e⟩ | ⟨hgo, e⟩ <;>
    rcases complete_cases (s.withSequencer q p c) w' with ⟨hstop', e'⟩ | ⟨hgo', e'⟩ <;> rw [e, e']
  · exact finishStop_twin hretired
  · exact absurd (hstop.symm.trans hgo') nofun
  · exact absurd (hgo.symm.trans hstop') nofun
  · exact loadAttempt_twin hretired hbusy hbusy' _

theorem nextInterval_twin (h : Twin w w') (b : Block) (i : Nat) :
    Twin (nextInterval s b i w) (nextInterval (s.withSequencer q p c) b i w') := by
  have hscheduled : Twin (scheduled s b i w) (scheduled (s.withSequencer q p c) b i w') := scheduled_twin h b i
  have hrate : nextRate (s.withSequencer q p c) b (nextPhase (s.withSequencer q p c) b i) = nextRate s b (nextPhase s b i) := rfl
  have hstopping : (s.withSequencer q p c).stopping = s.stopping := rfl
  have hmin : (s.withSequencer q p c).cfgMinRate = s.cfgMinRate := rfl
  rcases nextInterval_cases s b i w with ⟨hstop, hslow, e⟩ | ⟨hgo, e⟩ <;>
    rcases nextInterval_cases (s.withSequencer q p c) b i w' with ⟨hstop', hslow', e'⟩ | ⟨hgo', e'⟩ <;> rw [e, e']
  · exact finishStop_twin hscheduled
  · rw [hrate, hstopping, hmin] at hgo'
    rcases hgo' with hno | hfast
    · exact absurd (hstop.symm.trans hno) nofun
    · exact absurd hslow (Nat.not_le.2 hfast)
  · rw [hrate, hmin] at hslow'
    rcases hgo with hno | hfast
    · exact absurd (hno.symm.trans hstop') nofun
    · exact absurd hslow' (Nat.not_le.2 hfast)
  · exact hscheduled

end

/-! ### The engine stage -/

theorem afterEngine_of_estop {s : State} {e : Bool} (h : (s.sample.estopIn || e) = true) : afterEngine s e = estopHalt s (counted s) := if_pos h

theorem afterEngine_of_fault {s : State} (he : s.sample.estopIn = false) (hrun : s.eng = .run) (hcd : s.cd = 1#32) (htrig : s.triggered ≠ 0#16)
    (hhoming : s.headBlock.homing = false) : afterEngine s false = halt s .endstop 0 s.headSlot s.triggered (counted s) :=
  (afterEngine_of_event he hrun hcd).trans (stepEvent_of_endstop_fault _ htrig hhoming)

section
variable {s : State} {q : Babystep} {p : PerAxis (BitVec 16)} {c : PerAxis Word}

/-- With no sequence running in either, a step event decides alike. -/
theorem afterEngine_twin_of_event (hbusy : s.bs.busy = false) (hbusy' : q.busy = false) (he : s.sample.estopIn = false)
    (hrun : s.eng = .run) (hcd : s.cd = 1#32) : Twin (afterEngine s false) (afterEngine (s.withSequencer q p c) false) := by
  have hcounted : Twin (counted s) (counted (s.withSequencer q p c)) := counted_twin s q p c
  have hemitted : Twin s.emitted (s.withSequencer q p c).emitted := emitStep_twin hcounted s.headBlock
  by_cases htrig : s.triggered = 0#16
  · by_cases hlast : s.stepIndex.toNat + 1 = s.headBlock.dominant s.params
    · rw [afterEngine_of_last he hrun hcd htrig hlast, afterEngine_of_last (s := s.withSequencer q p c) he hrun hcd htrig hlast]
      exact complete_twin hemitted hbusy hbusy'
    · rw [afterEngine_of_more he hrun hcd htrig hlast, afterEngine_of_more (s := s.withSequencer q p c) he hrun hcd htrig hlast]
      exact nextInterval_twin hemitted _ _
  · cases hhoming : s.headBlock.homing with
    | false =>
      rw [afterEngine_of_fault he hrun hcd htrig hhoming, afterEngine_of_fault (s := s.withSequencer q p c) he hrun hcd htrig hhoming]
      exact halt_twin hcounted _ _ _ _
    | true =>
      rw [afterEngine_of_homing he hrun hcd htrig hhoming, afterEngine_of_homing (s := s.withSequencer q p c) he hrun hcd htrig hhoming]
      exact homingAbort_twin hcounted hbusy hbusy' _

/-- R220: the engine stage does the same with either sequencer. -/
theorem afterEngine_twin (hcases : (s.eng = .run ∧ s.cd ≠ 1#32) ∨ s.eng = .halted ∨ (s.bs.busy = false ∧ q.busy = false)) :
    Twin (afterEngine s false) (afterEngine (s.withSequencer q p c) false) := by
  have hcounted : Twin (counted s) (counted (s.withSequencer q p c)) := counted_twin s q p c
  have hcount : ∀ cd, Twin { counted s with st := { counting s with cd := cd } }
      { counted (s.withSequencer q p c) with st := { counting (s.withSequencer q p c) with cd := cd } } := by
    intro cd
    obtain ⟨q', p', c', e⟩ := hcounted
    refine ⟨q', p', c', ?_⟩
    rw [show counting (s.withSequencer q p c) = (counting s).withSequencer q' p' c' from congrArg Work.st e]
    rfl
  cases he : s.sample.estopIn with
  | true =>
    rw [afterEngine_of_estop (by rw [he]; rfl), afterEngine_of_estop (s := s.withSequencer q p c) (Bool.or_eq_true_iff.2 (.inl he))]
    exact halt_twin hcounted _ _ _ _
  | false =>
    cases heng : s.eng with
    | halted =>
      rw [afterEngine_of_halted he heng, afterEngine_of_halted (s := s.withSequencer q p c) he heng]
      exact hcounted
    | idle =>
      have hfree : s.bs.busy = false ∧ q.busy = false := by simpa [heng] using hcases
      rw [afterEngine_of_idle he heng, afterEngine_of_idle (s := s.withSequencer q p c) he heng]
      exact loadAttempt_twin hcounted hfree.1 hfree.2 _
    | run =>
      by_cases hcd : s.cd = 1#32
      · have hfree : s.bs.busy = false ∧ q.busy = false := by simpa [heng, hcd] using hcases
        exact afterEngine_twin_of_event hfree.1 hfree.2 he heng hcd
      · rw [afterEngine_of_count he heng hcd, afterEngine_of_count (s := s.withSequencer q p c) he heng hcd]
        exact hcount _

end

/-! ### The statement -/

/-- The IDLE event is bit 2 alone. -/
theorem getLsbD_idleEvent (s t : State) {i : Nat} (h : i ≠ 2) : (idleEvent s t).getLsbD i = false := by
  have hbit : evIdle = BitVec.twoPow 5 2 := rfl
  unfold idleEvent
  split
  · rw [hbit, BitVec.getLsbD_twoPow]
    simp [h.symm]
  · exact BitVec.getLsbD_zero

/-- `u` with the sequencer's registers and IRQ_STATUS of `v`. -/
def State.withSequencerOf (u v : State) : State :=
  { u with bs := v.bs, bsPending := v.bsPending, bsCount := v.bsCount, irqStatus := v.irqStatus }

/-- Settles O45: the engine stages are twins, and the stages after them write the sequencer's registers and the IDLE event. -/
theorem babystepsDoNotPerturb : Obligations.BabystepsDoNotPerturb := by
  intro s s' hs' hr hcases
  obtain ⟨q, p, c, rfl⟩ : ∃ q p c, s' = s.withSequencer q p c := ⟨_, _, _, hs'⟩
  obtain ⟨q', p', c', htwin⟩ := afterEngine_twin (q := q) (p := p) (c := c) hcases
  have hevents : (s.withSequencer q p c).engineEvents = s.engineEvents := (congrArg Work.ev htwin :)
  have hcycle := idleCycle_eq hr
  have hcycle' := idleCycle_eq (s := s.withSequencer q p c) hr
  rw [htwin] at hcycle'
  have hcount : (idleCycle (s.withSequencer q p c)).bsCount = c' := (congrArg State.bsCount hcycle' :)
  have hirq := (congrArg State.irqStatus hcycle :)
  have hirq' := (congrArg State.irqStatus hcycle' :)
  constructor
  · have hengine : (idleCycle s).withSequencerOf (idleCycle (s.withSequencer q p c))
        = (afterEngine s false).st.withSequencerOf (idleCycle (s.withSequencer q p c)) :=
      congrArg (fun u => u.withSequencerOf (idleCycle (s.withSequencer q p c))) hcycle
    refine Eq.trans ?_ hengine.symm
    refine hcycle'.trans ?_
    rw [State.withSequencerOf, hcount, hirq']
    rfl
  · intro i hi
    rw [hirq, hirq', hevents]
    simp only [BitVec.getLsbD_or, getLsbD_idleEvent _ _ hi]
    rfl

end Sys2Proof.Machine

/-! Proof of O16. The words of several fields are sums of their fields at their weights, so a field is a quotient and a remainder of the word. -/

namespace Sys2Proof.Machine

theorem toNat_append_eq {m n : Nat} (x : BitVec m) (y : BitVec n) : (x ++ y).toNat = x.toNat * 2 ^ n + y.toNat := by
  rw [BitVec.toNat_append, ← Nat.shiftLeft_add_eq_or_of_lt y.isLt, Nat.shiftLeft_eq]

/-- A field of a word, as a number. -/
theorem field_eq {n len start : Nat} {x : BitVec n} {f : BitVec len} (h : x.toNat / 2 ^ start % 2 ^ len = f.toNat) :
    x.extractLsb' start len = f := by
  apply BitVec.eq_of_toNat_eq
  rw [BitVec.extractLsb'_toNat, Nat.shiftRight_eq_div_pow, h]

theorem reserved_eq {n len start : Nat} {x : BitVec n} (h : x.toNat / 2 ^ start % 2 ^ len = 0) : x.extractLsb' start len = 0#len :=
  field_eq (h.trans BitVec.toNat_zero.symm)

/-! ### FAULT, CMDRES and BS_STATE -/

theorem faultWord_toNat (f : FaultRecord) :
    f.word.toNat = f.axes.toNat * 2 ^ 16 + f.slot.toNat * 2 ^ 8 + f.check.toNat * 2 ^ 4 + f.cause.code.toNat := by
  simp only [FaultRecord.word, toNat_append_eq, BitVec.toNat_ofNat]
  omega

theorem faultWord_fields (f : FaultRecord) :
    f.word.extractLsb' 0 4 = f.cause.code ∧ f.word.extractLsb' 4 4 = f.check ∧ f.word.extractLsb' 8 6 = f.slot
      ∧ f.word.extractLsb' 14 2 = 0#2 ∧ f.word.extractLsb' 16 16 = f.axes := by
  have hword := faultWord_toNat f
  have hcause := f.cause.code.isLt
  have hcheck := f.check.isLt
  have hslot := f.slot.isLt
  have haxes := f.axes.isLt
  exact ⟨field_eq (by omega), field_eq (by omega), field_eq (by omega), reserved_eq (by omega), field_eq (by omega)⟩

theorem commandWord_toNat (c : CommandRecord) :
    c.word.toNat = c.opcode.toNat * 2 ^ 8 + c.result.reasonCode.toNat * 2 ^ 4 + c.result.resultCode.toNat := by
  simp only [CommandRecord.word, toNat_append_eq, BitVec.toNat_ofNat]
  omega

theorem commandWord_fields (c : CommandRecord) :
    c.word.extractLsb' 0 2 = c.result.resultCode ∧ c.word.extractLsb' 2 2 = 0#2 ∧ c.word.extractLsb' 4 4 = c.result.reasonCode
      ∧ c.word.extractLsb' 8 8 = c.opcode ∧ c.word.extractLsb' 16 16 = 0#16 := by
  have hword := commandWord_toNat c
  have hresult := c.result.resultCode.isLt
  have hreason := c.result.reasonCode.isLt
  have hopcode := c.opcode.isLt
  exact ⟨field_eq (by omega), reserved_eq (by omega), field_eq (by omega), field_eq (by omega), reserved_eq (by omega)⟩

theorem babystepWord_toNat {b : Babystep} (hbusy : b.busy = true) :
    b.word.toNat = b.ch.toNat * 2 ^ 8 + b.flip.toNat * 2 ^ 6 + b.dir.toNat * 2 ^ 5 + b.axis.toNat * 2 + 1 := by
  rw [Babystep.word, if_pos hbusy]
  simp only [toNat_append_eq, BitVec.toNat_ofNat, BitVec.toNat_ofBool]
  omega

theorem babystepWord_fields {b : Babystep} (hbusy : b.busy = true) :
    b.word.extractLsb' 0 8 = 0#1 ++ BitVec.ofBool b.flip ++ BitVec.ofBool b.dir ++ b.axis ++ 1#1
      ∧ b.word.extractLsb' 8 5 = b.ch ∧ b.word.extractLsb' 13 19 = 0#19 := by
  have hword := babystepWord_toNat hbusy
  have hflip := b.flip.toNat_lt
  have hdir := b.dir.toNat_lt
  have haxis := b.axis.isLt
  have hch := b.ch.isLt
  refine ⟨field_eq ?_, field_eq (by omega), reserved_eq (by omega)⟩
  simp only [toNat_append_eq, BitVec.toNat_ofNat, BitVec.toNat_ofBool]
  omega

/-! ### PARAMS -/

theorem paramsWord_eq (p : Params) : paramsWord p = BitVec.ofNat 32 (p.A + 2 ^ 8 * p.NE + 2 ^ 12 * p.log2N) := by
  have haxes := axisCount_le p
  have hextruders := extruders_le p
  have hlog : p.log2N < 16 := by have := p.log2nPred.isLt; simp only [Params.log2N]; omega
  apply BitVec.eq_of_toNat_eq
  simp only [paramsWord, toNat_append_eq, BitVec.toNat_ofNat]
  omega

/-! ### A slot word (R30) -/

/-- The busy bit stands over the stored bit 26 of word 0. -/
theorem slotReadback_bit (S : State) (sl w i : Nat) (hi : i < 32) :
    (slotReadback S sl w).getLsbD i = if w = 0 ∧ i = 26 then S.busySlot sl else (Memory.slot S.mem sl w).getLsbD i := by
  have hmask : (0xFBFFFFFF#32) = ~~~BitVec.twoPow 32 26 := by decide
  have hbit : (0x04000000#32) = BitVec.twoPow 32 26 := by decide
  unfold slotReadback
  by_cases hw : w = 0
  · subst hw
    rw [if_pos rfl, hmask, hbit]
    by_cases h26 : i = 26
    · subst h26
      cases S.busySlot sl <;> simp
    · cases S.busySlot sl <;> simp [hi, h26]
  · rw [if_neg hw, if_neg (fun h => hw h.1)]

/-! ### The statement -/

/-- Settles O16: the words of several fields as above, every other register as stored or zero-extended. -/
theorem registerFormats : Obligations.RegisterFormats := by
  intro s e
  have hcause : s.fault.cause.code
      = (match s.fault.cause with | .none => 0#4 | .estopPin => 1#4 | .estopCmd => 2#4 | .endstop => 3#4 | .badBlock => 4#4) := by
    cases s.fault.cause <;> rfl
  have hresult : s.cmdres.result.resultCode
      = (if s.cmdres.result = .none then 0#2 else if s.cmdres.result = .accepted then 1#2 else 2#2) := by
    cases s.cmdres.result <;> rfl
  obtain ⟨hcode, hfault⟩ := faultWord_fields s.fault
  obtain ⟨hcommand, hreserved, hreason, hopcode⟩ := commandWord_fields s.cmdres
  have hwide : ∀ {n : Nat} (x : BitVec n), n ≤ 32 → (x.setWidth 32).toNat = x.toNat := fun x hn => BitVec.toNat_setWidth_of_le hn
  refine ⟨⟨hcode.trans hcause, hfault⟩, ⟨hcommand.trans hresult, hreserved, ?reason, hopcode⟩, fun sl w i hi => ?slot, fun a => ?pending,
    fun hidle => ?noSequence, fun hbusy => ?sequence, ⟨rfl, rfl, paramsWord_eq _⟩, ?events, ?configuration, ?running,
    fun _ => ⟨rfl, rfl, rfl, rfl⟩, fun _ => rfl⟩
  case reason => exact hreason.trans (by cases s.cmdres.result <;> rfl)
  case slot =>
    have hzero : (w = 0 ∧ i = 26) = (w.val = 0 ∧ i = 26) := by rw [Fin.ext_iff]; rfl
    simp only [hzero]
    exact slotReadback_bit s sl.val w.val i hi
  case pending => exact BitVec.toInt_signExtend_of_le (by decide)
  case noSequence => exact ⟨if_neg (by simp [hidle]), if_neg (by simp [hidle]), if_neg (by simp [hidle])⟩
  case sequence =>
    obtain ⟨hlow, hch, hhigh⟩ := babystepWord_fields hbusy
    exact ⟨hlow, hch, hhigh, (congrArg BitVec.toNat (if_pos hbusy)).trans (hwide _ (by decide)),
      (congrArg BitVec.toNat (if_pos hbusy)).trans (hwide _ (by decide))⟩
  case events =>
    exact ⟨hwide _ (by decide), hwide _ (by decide), hwide _ (by decide), hwide _ (by decide), hwide _ (by decide), hwide _ (by decide)⟩
  case configuration =>
    exact ⟨hwide _ (by decide), hwide _ (by decide), hwide _ (by decide), hwide _ (by decide), hwide _ (by decide), hwide _ (by decide),
      hwide _ (by decide), rfl, rfl⟩
  case running =>
    exact ⟨hwide _ (by decide), hwide _ (by decide), hwide _ (by decide), rfl, rfl, rfl, rfl, rfl, hwide _ (by decide), hwide _ (by decide)⟩

end Sys2Proof.Machine

/-! Proof of O1 to O4 and O7: the reset cycle, the reset values, the step, and the words of the encodings. -/

namespace Sys2Proof.Machine

/-! ### The reset cycle -/

theorem cycleWith_of_reset {s : State} (hr : s.sample.rst = true) (e : Bool) (clear : BitVec 5) (bus : Work → Work) :
    cycleWith s e clear bus = resetCycle s := if_pos hr

/-- Settles O1: no stage runs in a reset cycle, whatever is on the bus. -/
theorem resetOverridesEverything : Obligations.ResetOverridesEverything := by
  intro s hr
  have hexec : ∀ i, exec i s = .next (resetCycle s) := fun i => by rw [exec_eq_cycle, cycleWith_of_reset hr]
  have hidle : idleCycle s = resetCycle s := cycleWith_of_reset hr _ _ _
  have hillegal : illegalAccessCycle s = resetCycle s := cycleWith_of_reset hr _ _ _
  obtain ⟨t, hstep⟩ := step_next s
  refine ⟨hexec, ?_, hidle, hillegal, rfl⟩
  rw [hstep]
  rcases step_cases hstep with ⟨_, i, _, _, e⟩ | ⟨_, e⟩ | ⟨_, _, _, _, e⟩ <;> rw [e]
  · rw [cycleWith_of_reset hr]
  · rw [hidle]
  · rw [hillegal]

/-! ### The reset values -/

theorem replicate_get {α : Type} (x : α) (a : Axis) : (Vector.replicate 16 x)[a] = x := by simp

theorem stage_of_zero {m : Memory} (h : ∀ x, 0x800 ≤ x ∧ x < 0x880 → Memory.byteAt m x = 0#8) {w : Nat} (hw : w < 32) :
    Memory.stage m w = 0#32 := by
  unfold Memory.stage Memory.readWord stageAddr
  rw [h _ (by omega), h _ (by omega), h _ (by omega), h _ (by omega)]
  rfl

theorem noCommand_word : CommandRecord.word { result := .none, opcode := 0#8 } = 0#32 := by decide

/-- R261 for a state with the reset values of the registers over any memory with STAGE at 0. -/
theorem resetValues_of_stage (p : Params) (m : Memory) (pins : List Pins) (host : List HostLine) (cycle : Nat)
    (hstage : ∀ w, w < 32 → Memory.stage m w = 0#32) :
    ResetValues { State.resetWith p with mem := m, pins := pins, host := host, cycle := cycle } where
  eng := rfl
  phase := rfl
  stopping := rfl
  indices := ⟨rfl, rfl⟩
  fault := noFault_word
  cmdres := noCommand_word
  stage := hstage
  stepIndex := rfl
  rates := ⟨rfl, rfl, rfl, rfl⟩
  pulse := ⟨rfl, rfl, rfl⟩
  outputs := ⟨rfl, rfl⟩
  homed := rfl
  axes := fun a _ => ⟨replicate_get _ a, replicate_get _ a, replicate_get _ a, replicate_get _ a, replicate_get _ a⟩
  bs := rfl
  events := ⟨rfl, rfl, rfl⟩
  masks := ⟨rfl, rfl, rfl, rfl, rfl⟩
  timing := ⟨rfl, rfl, rfl, rfl⟩

/-- An idle machine at its reset values is quiet. -/
theorem ResetValues.idle {s : State} (h : ResetValues s) : IdleState s := by
  obtain ⟨hhead, htail⟩ := h.indices
  refine ⟨h.eng, ?_, h.pulse.1, h.bs, fun a ha => (h.axes a ha).2.2.2.1⟩
  rw [State.depth, hhead, htail]
  exact depth_self _ _

theorem ResetValues.status {s : State} (h : ResetValues s) (e : Bool) :
    statusWord s e = if e then 0x000014AC#32 else 0x000010AC#32 := by
  have hidle := h.idle
  have hflagIdle := (isIdle_iff s).2 hidle
  have hflagUnlocked := (unlocked_iff s).2 ⟨.inl hidle.1, hidle.2⟩
  have hroom : (0 : Nat) ≠ s.params.N := (capacity_pos s.params).ne
  rw [statusWord, hflagIdle, hflagUnlocked, hidle.1, hidle.2.1, h.phase, h.stopping, h.bs, h.pulse.1]
  simp only [hroom, decide_false]
  cases e <;> decide

/-- Settles O2: the reset state field by field, and the words and pins its values give. -/
theorem resetLeavesResetValues : Obligations.ResetLeavesResetValues := by
  refine ⟨fun s => ⟨?values, rfl, fun x hx => ?bytes⟩, fun s h => ⟨rfl, paramsWord_eq _, h.status false, h.status true, fun sl => ?busy,
    fun p => ⟨?step, ?dir⟩, ?irq⟩⟩
  case values =>
    exact resetValues_of_stage _ _ _ _ _ fun w hw => stage_of_zero (fun x hx => by rw [byteAt_clearStage, if_pos hx]) hw
  case bytes => exact (byteAt_clearStage s.mem x).trans (if_neg (by omega))
  case busy =>
    have hbusy : s.busySlot sl.val = false := by simp [State.busySlot, h.eng]
    exact (slotReadback_bit s sl.val 0 26 (by decide)).trans ((if_pos ⟨rfl, rfl⟩).trans hbusy)
  case step => simp [stepOut, pulseActive, babystepPulse, h.pulse.1, h.bs, h.masks.1]
  case dir => simp [dirOut, directionOverride, h.bs, h.outputs.1, h.masks.2.1]
  case irq => simp [irqOut, h.events.1]

theorem resetWith_inv (p : Params) : Inv (State.resetWith p) where
  mem_wf := show Memory.wf [] by decide
  width_pos := Nat.le_refl 1
  rate_min_pos := Nat.le_refl 1
  depth_le := (depth_self p 0#7).trans_le (Nat.zero_le _)
  running := nofun
  not_running := fun _ => ⟨rfl, rfl⟩
  halted_empty := nofun
  stopping_run := nofun
  pulse_mask := fun _ => rfl
  sequence := nofun
  rem_lt := timer_pos p
  one_busy := fun i j _ _ => busySlot_unique _ i j

theorem resetWith_pulseInv (p : Params) : PulseInv (State.resetWith p) := ⟨Nat.zero_le _, nofun, nofun, nofun, nofun, nofun⟩

theorem resetWith_fieldInv (p : Params) : FieldInv (State.resetWith p) := by
  have hw := resetCycle_fieldInv (State.resetWith p)
  exact ⟨hw.1, hw.2, hw.3, hw.4, hw.5, hw.6, hw.7, hw.8, hw.9, hw.10, hw.11, hw.12, hw.13, hw.14⟩

/-- Settles O3: the base case of the four invariants. -/
theorem resetSatisfiesInvariants : Obligations.ResetSatisfiesInvariants := by
  intro p
  have hstage : ∀ x, 0x800 ≤ x ∧ x < 0x880 → Memory.byteAt [] x = 0#8 := fun x hx => by
    rw [Memory.byteAt, Memory.stored, Memory.listed, Memory.unlisted, if_pos hx]
    rfl
  exact ⟨resetValues_of_stage p [] [] [] 0 fun w hw => stage_of_zero hstage hw, resetWith_inv p, resetWith_pulseInv p, resetWith_fieldInv p,
    nofun⟩

/-! ### The step -/

/-- Settles O4: the step's cases, and the host program line by line. -/
theorem stepRunsDecodedInstruction : Obligations.StepRunsDecodedInstruction := by
  refine ⟨fun s r i t hreq hdec hexec => ?_, fun s hreq => ?_, fun s r e hreq hdec => ?_, fun _ => rfl, fun t r rest h => ?_,
    fun t a m v rest h => ?_, fun t k rest h => ?_, fun t rest h => ?_, fun _ _ => rfl, fun _ _ _ _ => rfl, fun _ _ => rfl, fun _ => rfl,
    rfl, fun t h => ?_⟩
  · rw [step, hreq]; simp only [hdec, hexec]
  · rw [step, hreq]
  · rw [step, hreq]; simp only [hdec]
  all_goals simp only [advanceHost, h, hostAdvance]

/-! ### The words -/

/-- Settles O7: each word is decoded. -/
theorem wordsDecode : Obligations.WordsDecode := by
  unfold Obligations.WordsDecode
  decide

end Sys2Proof.Machine
